-- ==== Sys2Proof/Word.lean ====
section
/-! DEFINITION. The widths of the HTB's values (spec/00_scope.md R9, R10; spec/10_state.md R20).
Every value is unsigned and bit 0 is the least significant bit (R9). -/

namespace Sys2Proof

/-- A command word or a word of the host bus, 32 bits (R60, R80). -/
abbrev Word := BitVec 32

/-- A byte address of the host register space, 16 bits (R60). -/
abbrev Addr := BitVec 16

/-- A byte value (R5). -/
abbrev Byte := BitVec 8

/-- The operand field OPND of a command word, 10 bits (R80). -/
abbrev Opnd := BitVec 10

/-- A node index, 10 bits: leaves 0 to 257, internal nodes 258 to 514 (R6). -/
abbrev NodeIx := BitVec 10

/-- A symbol as R_SYM holds it, 9 bits (R5, R30). -/
abbrev Sym := BitVec 9

/-- A frequency counter. It is CNT_W bits wide and CNT_W is at most 56 (R7, R21); log 2. -/
abbrev Count := BitVec 56

/-- A weight. It is WGT_W = CNT_W + 8 bits wide, at most 64 (R7, R22); log 2. -/
abbrev Weight := BitVec 64

/-- A bit string, leftmost bit first (R10): `false` is bit 0 and `true` is bit 1. -/
abbrev BitString := List Bool

end Sys2Proof
end

