-- ==== Sys2Proof/Syntax.lean ====
section
/-! DEFINITION. The 14 commands, one constructor for each row of spec/opcode_table.json (spec/30_encoding.md R81).
A command with an operand carries the whole 10-bit OPND field: its range is checked when the command executes (R87),
so an operand outside the range is still a command. -/

namespace Sys2Proof

inductive Instr where
  /-- NOP (R191) -/
  | nop
  /-- SESS_INIT m, form MODE (R192) -/
  | sessInit (m : Opnd)
  /-- FT_RESET (R101) -/
  | ftReset
  /-- FT_RECORD b, form BYTE (R102) -/
  | ftRecord (b : Opnd)
  /-- FT_QUERY b, form BYTE (R103) -/
  | ftQuery (b : Opnd)
  /-- FT_NEXT s, form START (R104) -/
  | ftNext (s : Opnd)
  /-- HEAP_CLEAR (R124) -/
  | heapClear
  /-- HEAP_INSERT n, form NODE (R125) -/
  | heapInsert (n : Opnd)
  /-- HEAP_EXTRACT (R126) -/
  | heapExtract
  /-- BUILD (R140) -/
  | build
  /-- ENCODE s, form SYM (R162) -/
  | encode (s : Opnd)
  /-- DECODE (R166) -/
  | decode
  /-- ENC_STEP s, form SYM (R193) -/
  | encStep (s : Opnd)
  /-- DEC_STEP (R194) -/
  | decStep
deriving DecidableEq, Repr

/-- Why a command word is Illegal (R83 to R86). All three give the same fault, ILLEGAL_CMD. -/
inductive IllegalReason where
  /-- OP is 0x0E to 0xFF (R85) -/
  | unassignedOpcode
  /-- RSV is not 0 (R83) -/
  | reservedBits
  /-- OPND is not 0 in a command of form NONE (R84) -/
  | operandNotZero
deriving DecidableEq, Repr

/-- What the decoder answers (R86): a command, or Illegal. -/
inductive Decoded where
  | command (i : Instr)
  | illegal (why : IllegalReason)
deriving DecidableEq, Repr

end Sys2Proof
end

