-- ==== Sys2Proof/Machine/Operands.lean ====
section
/-! DEFINITION. The operand forms of spec/30_encoding.md R82 and the node numbering of spec/00_scope.md R5, R6: the legal
values of each form, and what an operand stands for. -/

namespace Sys2Proof

/-- The symbol NOT_SEEN, and its leaf (R5). -/
def notSeen : NodeIx := 256#10

/-- The symbol END_OF_STREAM, and its leaf (R5). -/
def endOfStream : NodeIx := 257#10

/-- Nodes 0 to 257 are the leaves (R6). -/
def isLeaf (n : NodeIx) : Bool := decide (n.toNat ≤ 257)

/-- Arena slot k is node 258 + k (R6, R23). -/
def internalNode (k : Nat) : NodeIx := BitVec.ofNat 10 (258 + k)

/-- The arena slot of an internal node (R6). -/
def slotOf (n : NodeIx) : Nat := n.toNat - 258

/-- Form BYTE: 0 to 255 (R82). -/
def byteLegal (o : Opnd) : Bool := decide (o.toNat ≤ 255)

/-- Form START: 0 to 256 (R82). -/
def startLegal (o : Opnd) : Bool := decide (o.toNat ≤ 256)

/-- Form MODE: 0 or 1 (R82). -/
def modeLegal (o : Opnd) : Bool := decide (o.toNat ≤ 1)

/-- Form SYM: 0 to 255, or 257; 256 is refused (R82). -/
def symLegal (o : Opnd) : Bool := decide (o.toNat ≤ 255 ∨ o.toNat = 257)

/-- `NodeLegal` of R87, with NINT as it stands when the command starts. -/
def nodeLegal (nint : Nat) (o : Opnd) : Bool :=
  decide (o.toNat ≤ 257 ∨ (258 ≤ o.toNat ∧ o.toNat < 258 + nint))

/-- The byte a legal BYTE operand stands for (R82: no sign extension, scaling or shift). -/
def byteOf (o : Opnd) : Byte := o.setWidth 8

/-- The leaf node of a byte: leaf s is the leaf of symbol s (R6). -/
def leafOfByte (b : Byte) : NodeIx := b.setWidth 10

/-- A byte as the 9-bit symbol R_SYM holds (R30). -/
def symOfByte (b : Byte) : Sym := b.setWidth 9

/-- `bin8(v)`: the 8 bits of v, most significant bit first (R10). -/
def bin8 (v : Byte) : BitString := (List.range 8).map fun i => v.getLsbD (7 - i)

end Sys2Proof
end

