-- ==== Sys2Proof/WellFormed.lean ====
section
/-! DEFINITION. Which commands the assembler accepts by mnemonic (spec/30_encoding.md R89): it "refuses an operand outside
the form's legal range when that range is constant". The range of form NODE depends on NINT, so every node operand is
accepted here and checked when the command runs (R82, R87). Every `Instr` has an encoding, so nothing else is to check:
a 10-bit operand cannot exceed 1023. -/

namespace Sys2Proof

def Instr.wellFormed : Instr → Bool
  | .nop => true
  | .sessInit m => modeLegal m
  | .ftReset => true
  | .ftRecord b => byteLegal b
  | .ftQuery b => byteLegal b
  | .ftNext s => startLegal s
  | .heapClear => true
  | .heapInsert _ => true
  | .heapExtract => true
  | .build => true
  | .encode s => symLegal s
  | .decode => true
  | .encStep s => symLegal s
  | .decStep => true

end Sys2Proof
end

