-- ==== Sys2Proof/Decode.lean ====
section
/-! DEFINITION. The command encoding of spec/30_encoding.md: the fields of CMD32 (R80), the decoder (R86), the encoder
written from the opcode map (R81), and the host's `decodeTableWord`. -/

namespace Sys2Proof

/-- OP, bits [31:24] (R80). -/
def opField (w : Word) : BitVec 8 := w.extractLsb' 24 8

/-- RSV, bits [23:10] (R80). -/
def rsvField (w : Word) : BitVec 14 := w.extractLsb' 10 14

/-- OPND, bits [9:0] (R80). -/
def opndField (w : Word) : Opnd := w.extractLsb' 0 10

/-- The operand forms of R82. -/
inductive Form where
  | none | mode | byte | start | node | sym
deriving DecidableEq, Repr

/-- The form of each assigned opcode (R81); `none` where OP is unassigned (R85). -/
def formOfOp (op : Nat) : Option Form :=
  match op with
  | 0x00 => some .none
  | 0x01 => some .mode
  | 0x02 => some .none
  | 0x03 => some .byte
  | 0x04 => some .byte
  | 0x05 => some .start
  | 0x06 => some .none
  | 0x07 => some .node
  | 0x08 => some .none
  | 0x09 => some .none
  | 0x0A => some .sym
  | 0x0B => some .none
  | 0x0C => some .sym
  | 0x0D => some .none
  | _ => Option.none

/-- `Cmd(op, opnd)` of R86 by the opcode map of R81; `none` where OP is unassigned. -/
def commandOf (op : Nat) (o : Opnd) : Option Instr :=
  match op with
  | 0x00 => some .nop
  | 0x01 => some (.sessInit o)
  | 0x02 => some .ftReset
  | 0x03 => some (.ftRecord o)
  | 0x04 => some (.ftQuery o)
  | 0x05 => some (.ftNext o)
  | 0x06 => some .heapClear
  | 0x07 => some (.heapInsert o)
  | 0x08 => some .heapExtract
  | 0x09 => some .build
  | 0x0A => some (.encode o)
  | 0x0B => some .decode
  | 0x0C => some (.encStep o)
  | 0x0D => some .decStep
  | _ => none

/-- `Decode(w)`, total on every 32-bit word (R86); an illegal word is rejected by the name of its first reason. -/
def decode (w : Word) : Decoded :=
  match commandOf (opField w).toNat (opndField w) with
  | none => .illegal .unassignedOpcode
  | some i =>
    if rsvField w ≠ 0 then .illegal .reservedBits
    else if formOfOp (opField w).toNat = some .none ∧ opndField w ≠ 0 then .illegal .operandNotZero
    else .command i

/-- The opcode of each command (R81). -/
def opcodeOf : Instr → BitVec 8
  | .nop => 0x00
  | .sessInit _ => 0x01
  | .ftReset => 0x02
  | .ftRecord _ => 0x03
  | .ftQuery _ => 0x04
  | .ftNext _ => 0x05
  | .heapClear => 0x06
  | .heapInsert _ => 0x07
  | .heapExtract => 0x08
  | .build => 0x09
  | .encode _ => 0x0A
  | .decode => 0x0B
  | .encStep _ => 0x0C
  | .decStep => 0x0D

/-- The operand field of each command; a command of form NONE has OPND = 0 (R84). -/
def operandOf : Instr → Opnd
  | .nop => 0
  | .sessInit m => m
  | .ftReset => 0
  | .ftRecord b => b
  | .ftQuery b => b
  | .ftNext s => s
  | .heapClear => 0
  | .heapInsert n => n
  | .heapExtract => 0
  | .build => 0
  | .encode s => s
  | .decode => 0
  | .encStep s => s
  | .decStep => 0

/-- The command word of a command: OP, then 14 zero bits, then OPND (R80). -/
def encode (i : Instr) : Word := opcodeOf i ++ (0#14 ++ operandOf i)

/-- The instruction the decoder reads from a table row's bits: one 32-bit word (R88), every bit from `nbits` up zero. -/
def decodeTableWord (nbits w : Nat) : Option Instr :=
  match decode (BitVec.ofNat 32 (w % 2 ^ nbits)) with
  | .command i => some i
  | .illegal _ => none

/-- The pseudo-instructions of R90, each exactly one command. -/
def pseudoSessEnc : Instr := .sessInit 0

def pseudoSessDec : Instr := .sessInit 1

def pseudoEncEnd : Instr := .encStep endOfStream

def pseudoFtFirst : Instr := .ftNext 0

end Sys2Proof
end

