-- ==== Sys2Proof/Config.lean ====
section
/-! DEFINITION. The implementation parameters of spec/00_scope.md R7, the identification constant (R41) and the one
free value of the spec (R70). -/

namespace Sys2Proof.Config

/-- CNT_W, the width of a frequency counter: "parameter, default 32, legal 1 to 56" (R7). The legality travels with the
value, so no state carries an illegal width. -/
structure CntW where
  val : Nat
  legal : 1 ≤ val ∧ val ≤ 56
deriving DecidableEq, Repr

/-- The default of R7. -/
def CntW.default : CntW := ⟨32, by decide⟩

/-- The largest count, `2^CNT_W - 1` (R102). -/
def CntW.maxCount (w : CntW) : Nat := 2 ^ w.val - 1

/-- WGT_W = CNT_W + 8 (R7). -/
def CntW.wgtW (w : CntW) : Nat := w.val + 8

/-- HEAP_CAP (R7). -/
def heapCap : Nat := 258

/-- NINT_MAX (R7). -/
def nintMax : Nat := 257

/-- CW_CAP, the capacity of the codeword register in bits (R7). -/
def cwCap : Nat := 258

/-- CW_MAXLEN, the length of the longest codeword (R7, R161). -/
def cwMaxLen : Nat := 257

/-- The constant the ID register reads (R41). -/
def idWord : Word := 0x48544201#32

/-- FREE VALUE (log 8): the unspecified word the n-th read while BUSY = 1 returns (R70). It has no body: nothing can be
proved about its values. -/
opaque busyRead : Nat → Word

end Sys2Proof.Config
end

