-- ==== Sys2Proof/Machine/State.lean ====
section
/-! DEFINITION. The state of the HTB (spec/10_state.md R20), the ports and the host's schedule the model carries beside it,
the reasons a step can stop, and the state after reset (R42). -/

namespace Sys2Proof.Machine

/-- SESSION (R29); log 17. -/
inductive Session where
  | idle | encoding | decoding | done
deriving DecidableEq, Repr

/-- DSTAT (R35): the outcome of the last DECODE or DEC_STEP; log 17. -/
inductive DStat where
  | none | leaf | literal | eos | trunc
deriving DecidableEq, Repr

/-- FCODE (R201): the codes a fault of the HTB can leave; log 17. These are the machine's own sticky faults, recorded in
its state: a step that raises one answers a next state. -/
inductive FaultCode where
  | none | illegalCmd | operandRange | cntOverflow | heapFull | heapEmpty | noTree | sessionMode | overrun
deriving DecidableEq, Repr

/-- A heap entry: a node and the weight captured when it was inserted (R22). -/
structure HeapEntry where
  node : NodeIx
  wgt : Weight
deriving DecidableEq, Repr

/-- An arena slot: LEFT, RIGHT and WINT of one internal node (R23). -/
structure ArenaSlot where
  left : NodeIx
  right : NodeIx
  wint : Weight
deriving DecidableEq, Repr

/-- A token of the bit source: `0`, `1` or OTHER (R76). -/
inductive Token where
  | zero | one | other
deriving DecidableEq, Repr

/-- What can happen next at the block (R71, R76, R204, R230). A bus access names its width in bytes: `MemRead(addr, 4)`,
`MemWrite(addr, 4, v)`; other widths exist only to be rejected (R61). -/
inductive Event where
  /-- the host reads (R60) -/
  | memRead (bytes : Nat) (addr : Addr)
  /-- the host writes (R60) -/
  | memWrite (bytes : Nat) (addr : Addr) (value : Word)
  /-- the bit source delivers one more token (R76) -/
  | deliver (t : Token)
  /-- the block takes its step, if it is enabled (R204) -/
  | blockTurn
  /-- the hardware reset (R230) -/
  | reset
deriving DecidableEq, Repr

/-- The machine's state: R20's tuple, then what the model carries beside it. -/
structure State where
  /-- CNT_W, the model's parameter (R7): never changed by a step; log 1 -/
  cntW : Config.CntW
  /-- FREQ[0..255] (R21); log 2 -/
  freq : Vector Count 256
  /-- HEAP[0..HSIZE-1], the live entries (R22); log 3 -/
  heap : List HeapEntry
  /-- LEFT, RIGHT, WINT of slots 0 to NINT-1, the live slots (R23); log 4 -/
  arena : List ArenaSlot
  /-- ROOT (R26) -/
  root : NodeIx
  /-- TREE_VALID (R26) -/
  treeValid : Bool
  /-- STALE (R28) -/
  stale : Bool
  /-- SESSION (R29) -/
  session : Session
  /-- R_SYM (R30) -/
  rSym : Sym
  /-- R_COUNT (R31) -/
  rCount : Count
  /-- HIT (R31) -/
  hit : Bool
  /-- R_NODE (R32) -/
  rNode : NodeIx
  /-- R_WEIGHT (R32) -/
  rWeight : Weight
  /-- CW[0..257], CW[i] is bit i (R33) -/
  cw : BitVec 258
  /-- CW_LEN (R33) -/
  cwLen : BitVec 9
  /-- FOUND (R33) -/
  found : Bool
  /-- DSTAT (R35) -/
  dstat : DStat
  /-- FAULT (R36) -/
  fault : Bool
  /-- FCODE (R36) -/
  fcode : FaultCode
  /-- PENDING (R37): the accepted command word, or none; BUSY is 1 exactly while it is a word, log 5 -/
  pending : Option Word
  /-- the bit source: tokens delivered and not yet consumed, next first (R38, R76) -/
  bitSource : List Token
  /-- the bit sink: the bits appended so far, oldest first (R38, R77) -/
  bitSink : BitString
  /-- the byte sink: the bytes appended so far, oldest first (R38, R77) -/
  byteSink : List Byte
  /-- the model's own: what happens next, in order (R71); log 6 -/
  schedule : List Event
  /-- the model's own: the words the host's reads returned, oldest first; log 9 -/
  hostReads : List Word
  /-- the model's own: how many free values have been drawn (R70); log 8 -/
  draws : Nat
deriving DecidableEq, Repr

/-- HSIZE (R22): the number of live heap entries. -/
def State.hsize (s : State) : Nat := s.heap.length

/-- NINT (R23): the number of allocated arena slots. -/
def State.nint (s : State) : Nat := s.arena.length

/-- BUSY (R37): 1 from the acceptance of a command until it completes. -/
def State.busy (s : State) : Bool := s.pending.isSome

/-- Why the machine stops with a fault of the model. The HTB's own faults (FCODE) are not here: they are next states. -/
inductive Fault where
  /-- Raised by ENCODE, DECODE, ENC_STEP and DEC_STEP when a codeword search or a tree walk meets a node with no live arena
  slot, or the tree holds no path to NOT_SEEN: R160 and R164 then define nothing. Safe: it stops where the spec gives no
  effect, and no state reached from reset meets it (log 10). -/
  | brokenTree
deriving DecidableEq, Repr

/-- Why the bus rejects an access (R61 to R63, R208). -/
inductive BusError where
  /-- not 32 bits wide (R61) -/
  | width
  /-- not at a multiple of 4 (R61) -/
  | misaligned
  /-- an offset R40 does not list (R62) -/
  | unmapped
  /-- a write to a read-only location, or a read of CMD (R63) -/
  | direction
deriving DecidableEq, Repr

/-- Why a step has no meaning. -/
inductive Refusal where
  /-- Raised by exec for a command that has no meaning yet. Safe. -/
  | notModelled (mnemonic : String)
  /-- Raised by a host access the bus rejects: "A model refuses the access, which errs toward unprovable" (R208). Safe; log 7. -/
  | busError (why : BusError)
deriving DecidableEq, Repr

/-- The outcome of one step of this machine. -/
abbrev Result := Host.Outcome State Fault Refusal

/-- The state after reset (R42), with CNT_W at its default (R7), empty ports and nothing scheduled (log 1, 6, 11). -/
def State.reset : State where
  cntW := Config.CntW.default
  freq := Vector.replicate 256 0
  heap := []
  arena := []
  root := 0
  treeValid := false
  stale := false
  session := .idle
  rSym := 0
  rCount := 0
  hit := false
  rNode := 0
  rWeight := 0
  cw := 0
  cwLen := 0
  found := false
  dstat := .none
  fault := false
  fcode := .none
  pending := none
  bitSource := []
  bitSink := []
  byteSink := []
  schedule := []
  hostReads := []
  draws := 0

end Sys2Proof.Machine
end

