-- ==== Sys2Proof/Machine/Flags.lean ====
section
/-! DEFINITION. The one-bit results and the STATUS register: HIT (spec/10_state.md R31), the codes of SESSION, DSTAT and
FCODE (R29, R35, spec/60_exceptions.md R201), and STATUS assembled field by field (R39). -/

namespace Sys2Proof.Machine

/-- "true iff count > 0" (R31, R103). -/
def hitFlag (c : Count) : Bool := decide (0 < c.toNat)

/-- The value of SESSION (R29). -/
def Session.code : Session → BitVec 2
  | .idle => 0
  | .encoding => 1
  | .decoding => 2
  | .done => 3

/-- The value of DSTAT (R35). -/
def DStat.code : DStat → BitVec 3
  | .none => 0
  | .leaf => 1
  | .literal => 2
  | .eos => 3
  | .trunc => 4

/-- The value of FCODE (R201). -/
def FaultCode.code : FaultCode → BitVec 4
  | .none => 0
  | .illegalCmd => 1
  | .operandRange => 2
  | .cntOverflow => 3
  | .heapFull => 4
  | .heapEmpty => 5
  | .noTree => 6
  | .sessionMode => 7
  | .overrun => 8

/-- One bit as a 1-bit vector. -/
def bit (b : Bool) : BitVec 1 := BitVec.ofBool b

/-- STATUS, from bit 31 down to bit 0 (R39). -/
def statusWord (s : State) : Word :=
  0#13 ++ (s.dstat.code ++ (0#2 ++ (bit s.hit ++ (bit s.found ++ (bit s.stale ++ (bit s.treeValid ++
    (s.session.code ++ (s.fcode.code ++ (0#2 ++ (bit s.fault ++ bit s.busy))))))))))

end Sys2Proof.Machine
end

