-- ==== Sys2Proof/Machine/Ops.lean ====
section
/-! DEFINITION. The shared operations over the registers: the frequency table (spec/10_state.md R21), the weight of a node
(R25), the codeword register (R33), command completion and fault entry (spec/60_exceptions.md R202, R204), the ports
(spec/20_memory.md R76, R77) and the hardware reset (spec/70_reset_and_hazards.md R230). -/

namespace Sys2Proof.Machine

/-! ## The frequency table -/

/-- `FREQ[b]` (R21). -/
def countAt (freq : Vector Count 256) (b : Byte) : Count := freq[b.toNat]'b.isLt

/-- `FREQ[b] <- c` (R21). -/
def putCount (freq : Vector Count 256) (b : Byte) (c : Count) : Vector Count 256 := freq.set b.toNat c b.isLt

/-- Every count 0 (R101). -/
def zeroTable : Vector Count 256 := Vector.replicate 256 0

/-- The observed bytes with their counts, each as (count, byte), in ascending byte order: the source's
`enumerate_observed()` (R104, R141). -/
def observed (freq : Vector Count 256) : List (Count × Nat) := freq.toList.zipIdx.filter fun e => hitFlag e.1

/-- `FREQ[b] = 2^CNT_W - 1` (R102): one more occurrence would not fit. -/
def countFull (s : State) (b : Byte) : Bool := decide ((countAt s.freq b).toNat = s.cntW.maxCount)

/-- `FREQ[b] <- FREQ[b] + 1; STALE <- 1` (R102, R193, R194). -/
def recordByte (b : Byte) (s : State) : State :=
  { s with freq := putCount s.freq b (countAt s.freq b + 1), stale := true }

/-! ## Weights -/

/-- `Weight(n)` (R25), zero-extended to the weight's width. For a node with no live slot R25 gives no value and no rule
evaluates it; the NODE window reads 0 there (R67), which is what this answers. -/
def weightOf (freq : Vector Count 256) (arena : List ArenaSlot) (n : NodeIx) : Weight :=
  if n.toNat ≤ 255 then (countAt freq (byteOf n)).setWidth 64
  else if n.toNat ≤ 257 then 0
  else match arena[slotOf n]? with
    | some slot => slot.wint
    | none => 0

/-! ## The codeword register -/

/-- The number whose bit i is `p.i`, 0 beyond the string. -/
def bitsValue : BitString → Nat
  | [] => 0
  | b :: p => b.toNat + 2 * bitsValue p

/-- `for i in 0..257: CW[i] <- (i < len(p)) ? p.i : 0; CW_LEN <- len(p)`, and FOUND (R162, R193). -/
def putCodeword (p : BitString) (found : Bool) (s : State) : State :=
  { s with cw := BitVec.ofNat 258 (bitsValue p), cwLen := BitVec.ofNat 9 p.length, found := found }

/-! ## Ports -/

/-- `BitOut` of every bit of p in order (R77). -/
def emitBits (p : BitString) (s : State) : State := { s with bitSink := s.bitSink ++ p }

/-- `ByteOut(v)` (R77). -/
def emitByte (v : Byte) (s : State) : State := { s with byteSink := s.byteSink ++ [v] }

/-! ## Completion and faults -/

/-- The command word the block executes: the data of the accepted CMD write (R74, R204). -/
def fetch (s : State) : Option Word := s.pending

/-- `BUSY <- 0; PENDING <- none` (R204). -/
def complete (s : State) : State := { s with pending := none }

/-- `if FAULT = 0: FCODE <- X`, `FAULT <- 1`: the first two lines of R202, which OVERRUN also performs (R206). -/
def recordFault (c : FaultCode) (s : State) : State :=
  { s with fcode := if s.fault then s.fcode else c, fault := true }

/-- `raise Fault(X)` by an executing command (R202): the one exception entry of the HTB. No register saves a return point
and there is no handler and no return from a fault (R202, R205). -/
def raise (c : FaultCode) (s : State) : State := complete (recordFault c s)

/-- The hardware reset (R230): every register to R42, the command in flight abandoned, the ports kept (R232). The
parameter, the host's side and what is scheduled are not the block's and are kept (log 12). -/
def hardReset (s : State) : State :=
  { State.reset with
    cntW := s.cntW, bitSource := s.bitSource, bitSink := s.bitSink, byteSink := s.byteSink,
    schedule := s.schedule, hostReads := s.hostReads, draws := s.draws }

end Sys2Proof.Machine
end

