-- ==== Sys2Proof/Machine/Bus.lean ====
section
/-! DEFINITION. The host register space: the register map (spec/10_state.md R40), the windows and the packing of codewords
and wide values (spec/20_memory.md R64 to R68), which accesses the bus rejects (R61 to R63), reads while a command runs
(R70), and command acceptance with OVERRUN (spec/60_exceptions.md R204, R206). -/

namespace Sys2Proof.Machine

/-- What a mapped offset names (R40). A window offset names a record and a word of it. -/
inductive Location where
  | cmd | status | rSym | rNode | rCountLo | rCountHi | rWeightLo | rWeightHi | root | nint | hsize | cwLen | id | param
  /-- CWj, j = 0..8 (R65) -/
  | cw (j : Nat)
  /-- the low or high word of FREQ[b] (R66) -/
  | freq (b : Byte) (high : Bool)
  /-- word `k` (0 to 3) of node n's record (R67) -/
  | node (n : NodeIx) (k : Nat)
  /-- word `k` (0 to 3) of heap entry i's record (R68) -/
  | heap (i : Nat) (k : Nat)
deriving DecidableEq, Repr

/-- The register map of R40, for an aligned offset; none where the offset is unmapped (R62). -/
def locate (addr : Addr) : Option Location :=
  let a := addr.toNat
  if a < 0x0040 then
    match a with
    | 0x0000 => some .cmd
    | 0x0004 => some .status
    | 0x0008 => some .rSym
    | 0x000C => some .rNode
    | 0x0010 => some .rCountLo
    | 0x0014 => some .rCountHi
    | 0x0018 => some .rWeightLo
    | 0x001C => some .rWeightHi
    | 0x0020 => some .root
    | 0x0024 => some .nint
    | 0x0028 => some .hsize
    | 0x002C => some .cwLen
    | 0x0030 => some .id
    | 0x0034 => some .param
    | _ => none
  else if a ≤ 0x0060 then some (.cw ((a - 0x0040) / 4))
  else if 0x1000 ≤ a ∧ a ≤ 0x17FF then some (.freq (BitVec.ofNat 8 ((a - 0x1000) / 8)) (decide (a / 4 % 2 = 1)))
  else if 0x4000 ≤ a ∧ a ≤ 0x602F then some (.node (BitVec.ofNat 10 ((a - 0x4000) / 16)) (a / 4 % 4))
  else if 0x8000 ≤ a ∧ a ≤ 0x901F then some (.heap ((a - 0x8000) / 16) (a / 4 % 4))
  else none

/-- Bits 31:0 of a wide value, at the lower address (R64). -/
def lowWord (v : Nat) : Word := BitVec.ofNat 32 v

/-- Bits 63:32 of a wide value, at the next address, zero above its width (R64). -/
def highWord (v : Nat) : Word := BitVec.ofNat 32 (v / 2 ^ 32)

/-- A word of node n's record (R67): the weight of a leaf is its current count; a free internal node reads 0. -/
def nodeWord (s : State) (n : NodeIx) (k : Nat) : Word :=
  match k with
  | 0 => lowWord (weightOf s.freq s.arena n).toNat
  | 1 => highWord (weightOf s.freq s.arena n).toNat
  | _ =>
    if isLeaf n then 0
    else match s.arena[slotOf n]? with
      | none => 0
      | some slot => if k = 2 then 0x80000000#32 ||| slot.left.setWidth 32 else slot.right.setWidth 32

/-- A word of heap entry i's record (R68): zero from HSIZE up. -/
def heapWord (s : State) (i k : Nat) : Word :=
  match s.heap[i]? with
  | none => 0
  | some e =>
    match k with
    | 0 => e.node.setWidth 32
    | 1 => lowWord e.wgt.toNat
    | 2 => highWord e.wgt.toNat
    | _ => 0

/-- What a mapped location reads while no command runs (R40); CMD is not readable (R63) and is given no word here. -/
def locationWord (s : State) : Location → Word
  | .cmd => 0
  | .status => statusWord s
  | .rSym => s.rSym.setWidth 32
  | .rNode => s.rNode.setWidth 32
  | .rCountLo => lowWord s.rCount.toNat
  | .rCountHi => highWord s.rCount.toNat
  | .rWeightLo => lowWord s.rWeight.toNat
  | .rWeightHi => highWord s.rWeight.toNat
  | .root => s.root.setWidth 32
  | .nint => BitVec.ofNat 32 s.nint
  | .hsize => BitVec.ofNat 32 s.hsize
  | .cwLen => s.cwLen.setWidth 32
  | .id => Config.idWord
  | .param => BitVec.ofNat 32 s.cntW.val
  | .cw j => s.cw.extractLsb' (32 * j) 32
  | .freq b high => if high then highWord (countAt s.freq b).toNat else lowWord (countAt s.freq b).toNat
  | .node n k => nodeWord s n k
  | .heap i k => heapWord s i k

/-- Why the bus rejects an access, or the location it reaches (R61 to R63). Where several reasons hold the first is named,
in the order width, alignment, mapping, direction (log 7). -/
def resolve (write : Bool) (bytes : Nat) (addr : Addr) : Except BusError Location :=
  if bytes ≠ 4 then .error .width
  else if addr.toNat % 4 ≠ 0 then .error .misaligned
  else match locate addr with
    | none => .error .unmapped
    | some loc => if write = decide (loc = .cmd) then .ok loc else .error .direction

/-- A read that is not STATUS while BUSY = 1 returns a draw (R70). -/
def drawsValue (s : State) (loc : Location) : Bool := s.busy && decide (loc ≠ .status)

/-- The word a read of a readable location returns (R40, R70). -/
def readValue (s : State) (loc : Location) : Word :=
  if drawsValue s loc then Config.busyRead s.draws else locationWord s loc

/-- `MemRead(addr, bytes)` (R60): the word returned joins the host's record, and no state of the block changes (R69). A
rejected access is refused (R208). -/
def busRead (bytes : Nat) (addr : Addr) (s : State) : Result :=
  match resolve false bytes addr with
  | .error e => .refused (.busError e)
  | .ok loc => .next { s with
      hostReads := s.hostReads ++ [readValue s loc],
      draws := if drawsValue s loc then s.draws + 1 else s.draws }

/-- A CMD write (R204, R206): dropped while FAULT = 1; OVERRUN while BUSY = 1; else accepted. -/
def acceptCommand (w : Word) (s : State) : State :=
  if s.fault then s
  else if s.busy then recordFault .overrun s
  else { s with pending := some w }

/-- `MemWrite(addr, bytes, v)` (R60): CMD is the only writable location. -/
def busWrite (bytes : Nat) (addr : Addr) (value : Word) (s : State) : Result :=
  match resolve true bytes addr with
  | .error e => .refused (.busError e)
  | .ok _ => .next (acceptCommand value s)

end Sys2Proof.Machine
end

