-- ==== Sys2Proof/Machine/Frequency.lean ====
section
/-! DEFINITION. The frequency table commands (spec/40_frequency_table.md R100 to R106). -/

namespace Sys2Proof.Machine

/-- FT_RESET (R101). -/
def execFtReset (s : State) : Result := .next (complete { s with freq := zeroTable, stale := true })

/-- FT_RECORD b (R102). -/
def execFtRecord (o : Opnd) (s : State) : Result :=
  if !byteLegal o then .next (raise .operandRange s)
  else if countFull s (byteOf o) then .next (raise .cntOverflow s)
  else .next (complete (recordByte (byteOf o) s))

/-- FT_QUERY b (R103). -/
def execFtQuery (o : Opnd) (s : State) : Result :=
  if !byteLegal o then .next (raise .operandRange s)
  else
    let c := countAt s.freq (byteOf o)
    .next (complete { s with rCount := c, hit := hitFlag c })

/-- FT_NEXT s (R104): the least observed byte at or above the start value. -/
def execFtNext (o : Opnd) (s : State) : Result :=
  if !startLegal o then .next (raise .operandRange s)
  else match (observed s.freq).find? fun e => decide (o.toNat ≤ e.2) with
    | some (c, b) => .next (complete { s with rSym := BitVec.ofNat 9 b, rCount := c, hit := true })
    | none => .next (complete { s with rSym := 256, rCount := 0, hit := false })

end Sys2Proof.Machine
end

