-- ==== Sys2Proof/Machine/Heap.lean ====
section
/-! DEFINITION. The priority heap (spec/41_heap.md): the functions HeapInsert (R121) and HeapExtract (R122) on the live
entries `HEAP[0..HSIZE-1]`, and the heap commands (R124 to R126). Each loop carries a bound no run of it reaches (log 13). -/

namespace Sys2Proof.Machine

/-- `Parent(i)` (R120). -/
def parentIx (i : Nat) : Nat := (i - 1) / 2

/-- `LeftC(i)` (R120). -/
def leftIx (i : Nat) : Nat := 2 * i + 1

/-- `RightC(i)` (R120). -/
def rightIx (i : Nat) : Nat := 2 * i + 2

/-- `swap HEAP[i], HEAP[j]`. -/
def swapAt (h : List HeapEntry) (i j : Nat) : List HeapEntry :=
  match h[i]?, h[j]? with
  | some x, some y => (h.set i y).set j x
  | _, _ => h

/-- `HEAP[i].wgt < HEAP[j].wgt`, unsigned, the weights only (R120); false where an index is not live. -/
def lighter (h : List HeapEntry) (i j : Nat) : Bool :=
  match h[i]?, h[j]? with
  | some x, some y => decide (x.wgt.toNat < y.wgt.toNat)
  | _, _ => false

/-- The loop of R121: up while strictly lighter than the parent. The index at least halves, so `i` rounds suffice. -/
def siftUp : Nat → List HeapEntry → Nat → List HeapEntry
  | 0, h, _ => h
  | fuel + 1, h, i =>
    if 0 < i ∧ lighter h i (parentIx i) = true then siftUp fuel (swapAt h i (parentIx i)) (parentIx i) else h

/-- HeapInsert(node, w) (R121). -/
def heapInsert (h : List HeapEntry) (e : HeapEntry) : List HeapEntry := siftUp h.length (h ++ [e]) h.length

/-- The lighter live child of i, the left one on a tie or where the right one is not live (R122). -/
def lighterChild (h : List HeapEntry) (i : Nat) : Nat :=
  if lighter h (rightIx i) (leftIx i) then rightIx i else leftIx i

/-- The loop of R122: down while strictly heavier than the lighter live child. The index grows, so HSIZE rounds suffice. -/
def siftDown : Nat → List HeapEntry → Nat → List HeapEntry
  | 0, h, _ => h
  | fuel + 1, h, i =>
    if lighter h (lighterChild h i) i then siftDown fuel (swapAt h i (lighterChild h i)) (lighterChild h i) else h

/-- HeapExtract() (R122): the root entry and the heap that remains; none where HSIZE = 0. -/
def heapExtract (h : List HeapEntry) : Option (HeapEntry × List HeapEntry) :=
  match h with
  | [] => none
  | top :: _ =>
    let last := h.length - 1
    some (top, siftDown last ((swapAt h 0 last).take last) 0)

/-- HEAP_CLEAR (R124). -/
def execHeapClear (s : State) : Result := .next (complete { s with heap := [] })

/-- HEAP_INSERT n (R125). -/
def execHeapInsert (o : Opnd) (s : State) : Result :=
  if !nodeLegal s.nint o then .next (raise .operandRange s)
  else if s.hsize = Config.heapCap then .next (raise .heapFull s)
  else .next (complete { s with heap := heapInsert s.heap ⟨o, weightOf s.freq s.arena o⟩ })

/-- HEAP_EXTRACT (R126). -/
def execHeapExtract (s : State) : Result :=
  match heapExtract s.heap with
  | none => .next (raise .heapEmpty s)
  | some (top, h) => .next (complete { s with heap := h, rNode := top.node, rWeight := top.wgt })

end Sys2Proof.Machine
end

