-- ==== Sys2Proof/Machine/Builder.lean ====
section
/-! DEFINITION. The tree builder (spec/42_tree_builder.md): BuildTree and the command BUILD (R140 to R143). -/

namespace Sys2Proof.Machine

/-- What BuildTree leaves: the heap, the arena and ROOT (R140). -/
structure Tree where
  heap : List HeapEntry
  arena : List ArenaSlot
  root : NodeIx
deriving DecidableEq, Repr

/-- The leaves a build inserts, in order: NOT_SEEN, END_OF_STREAM, then each observed byte, ascending (R141). -/
def leavesOf (freq : Vector Count 256) : List HeapEntry :=
  ⟨notSeen, 0⟩ :: ⟨endOfStream, 0⟩ :: (observed freq).map fun e => ⟨BitVec.ofNat 10 e.2, e.1.setWidth 64⟩

/-- The leaves inserted one after the other into the empty heap (R140 steps 1 and 2). -/
def leafHeap (freq : Vector Count 256) : List HeapEntry := (leavesOf freq).foldl heapInsert []

/-- The merges (R140 step 3, R142, R143): while HSIZE > 1, the two lightest entries become the children of the next arena
slot, the first extracted on the left. Each merge lowers HSIZE by one, so HSIZE rounds suffice (R146; log 13). -/
def mergeLoop : Nat → List HeapEntry → List ArenaSlot → List HeapEntry × List ArenaSlot
  | 0, h, a => (h, a)
  | fuel + 1, h, a =>
    if h.length ≤ 1 then (h, a)
    else match heapExtract h with
      | none => (h, a)
      | some (x, h₁) =>
        match heapExtract h₁ with
        | none => (h, a)
        | some (y, h₂) =>
          mergeLoop fuel (heapInsert h₂ ⟨internalNode a.length, x.wgt + y.wgt⟩) (a ++ [⟨x.node, y.node, x.wgt + y.wgt⟩])

/-- `HEAP[0].node` (R140 step 4). The heap of a build is never empty there, so the 0 stands for no case (log 13). -/
def topNode (h : List HeapEntry) : NodeIx :=
  match h with
  | [] => 0
  | e :: _ => e.node

/-- BuildTree() (R140), a function of FREQ alone (R148). -/
def buildTree (freq : Vector Count 256) : Tree :=
  let merged := mergeLoop (leafHeap freq).length (leafHeap freq) []
  ⟨merged.1, merged.2, topNode merged.1⟩

/-- BuildTree's effect on the state: HEAP, the arena, ROOT, `TREE_VALID <- 1`, `STALE <- 0` (R140). -/
def rebuild (s : State) : State :=
  let t := buildTree s.freq
  { s with heap := t.heap, arena := t.arena, root := t.root, treeValid := true, stale := false }

/-- BUILD (R140). -/
def execBuild (s : State) : Result := .next (complete (rebuild s))

end Sys2Proof.Machine
end

