-- ==== Sys2Proof/Machine/Translator.lean ====
section
/-! DEFINITION. The codeword translator (spec/43_translator.md): Codeword (R160), DecodeWalk (R164), and the commands
ENCODE (R162) and DECODE (R166). -/

namespace Sys2Proof.Machine

/-- The source's depth-first search, left first (R160): the path from a node down to a leaf, over at most `fuel` internal
nodes. -/
def findPath (arena : List ArenaSlot) (target : NodeIx) : Nat → NodeIx → Option BitString
  | 0, n => if isLeaf n && n == target then some [] else none
  | fuel + 1, n =>
    if isLeaf n then (if n = target then some [] else none)
    else match arena[slotOf n]? with
      | none => none
      | some slot =>
        match findPath arena target fuel slot.left with
        | some p => some (false :: p)
        | none => (findPath arena target fuel slot.right).map (true :: ·)

/-- `Codeword(s)`, the path from ROOT to leaf s (R160); none where the tree has no such leaf. A path passes each of the NINT
internal nodes at most once, so NINT rounds suffice (R161; log 13). -/
def codeword (s : State) (sym : NodeIx) : Option BitString := findPath s.arena sym s.nint s.root

/-- The lookup of R162 and R193 step 3: the codeword of a symbol in the tree with FOUND = 1, else NOT_SEEN's with FOUND = 0. -/
def lookup (s : State) (sym : NodeIx) : Option (BitString × Bool) :=
  match codeword s sym with
  | some p => some (p, true)
  | none => (codeword s notSeen).map fun p => (p, false)

/-- ENCODE s (R162). -/
def execEncode (o : Opnd) (s : State) : Result :=
  if !symLegal o then .next (raise .operandRange s)
  else if !s.treeValid then .next (raise .noTree s)
  else match lookup s o with
    | none => .fault .brokenTree
    | some (p, found) => .next (complete (putCodeword p found s))

/-- Where the tree walk of R164 ends: at a leaf, at an OTHER, short of tokens, or at a node with no live slot. -/
inductive Descent where
  | leaf (n : NodeIx) (rest : List Token)
  | trunc (rest : List Token)
  | starved
  | broken
deriving DecidableEq, Repr

/-- The loop of R164: one token for each internal node, taken before the node's children are read. -/
def descend (arena : List ArenaSlot) (n : NodeIx) (tokens : List Token) : Descent :=
  if isLeaf n then .leaf n tokens
  else match tokens with
    | [] => .starved
    | .other :: rest => .trunc rest
    | .zero :: rest =>
      match arena[slotOf n]? with
      | some slot => descend arena slot.left rest
      | none => .broken
    | .one :: rest =>
      match arena[slotOf n]? with
      | some slot => descend arena slot.right rest
      | none => .broken

/-- How DecodeWalk ends: a status and a symbol with the tokens it leaves, or it waits for a token not yet delivered
(R164, R239). -/
inductive Walk where
  | done (st : DStat) (sym : Sym) (rest : List Token)
  | starved
  | broken
deriving DecidableEq, Repr

/-- The literal bits of R164, most significant first: `v <- 2 * v + t`, `count` times. -/
def readLiteral : Nat → Nat → List Token → Walk
  | 0, v, rest => .done .literal (BitVec.ofNat 9 v) rest
  | _ + 1, _, [] => .starved
  | count + 1, v, .zero :: rest => readLiteral count (2 * v) rest
  | count + 1, v, .one :: rest => readLiteral count (2 * v + 1) rest
  | _ + 1, _, .other :: rest => .done .trunc 0x1FF rest

/-- DecodeWalk() (R164). -/
def decodeWalk (arena : List ArenaSlot) (root : NodeIx) (tokens : List Token) : Walk :=
  match descend arena root tokens with
  | .starved => .starved
  | .broken => .broken
  | .trunc rest => .done .trunc 0x1FF rest
  | .leaf n rest =>
    if n = notSeen then readLiteral 8 0 rest
    else if n = endOfStream then .done .eos 257 rest
    else .done .leaf (n.setWidth 9) rest

/-- DECODE (R166). While a needed token has not been delivered the block waits: nothing changes and BUSY stays 1 (R239). -/
def execDecode (s : State) : Result :=
  if !s.treeValid then .next (raise .noTree s)
  else match decodeWalk s.arena s.root s.bitSource with
    | .broken => .fault .brokenTree
    | .starved => .next s
    | .done st v rest => .next (complete { s with dstat := st, rSym := v, bitSource := rest })

end Sys2Proof.Machine
end

