-- ==== Sys2Proof/Machine/Session.lean ====
section
/-! DEFINITION. The session sequencer and the control commands (spec/44_session.md R190 to R194), with the imprecise fault
of DEC_STEP (spec/60_exceptions.md R207). -/

namespace Sys2Proof.Machine

/-- NOP (R191): it completes like any command. -/
def execNop (s : State) : Result := .next (complete s)

/-- SESS_INIT m (R192). -/
def execSessInit (o : Opnd) (s : State) : Result :=
  if !modeLegal o then .next (raise .operandRange s)
  else .next (complete { s with
    freq := zeroTable, heap := [], arena := [], root := 0, treeValid := false, stale := false, dstat := .none,
    session := if o = 0 then .encoding else .decoding })

/-- The bits ENC_STEP emits: the codeword, root first, then the literal when FOUND = 0 (R193, R79). -/
def emission (o : Opnd) (p : BitString) (found : Bool) : BitString := if found then p else p ++ bin8 (byteOf o)

/-- The end of ENC_STEP: END_OF_STREAM ends the session and is not recorded; a byte is recorded (R193 step 4). -/
def afterEncode (o : Opnd) (s : State) : State :=
  if o = endOfStream then { s with session := .done } else recordByte (byteOf o) s

/-- ENC_STEP s (R193). -/
def execEncStep (o : Opnd) (s : State) : Result :=
  if !symLegal o then .next (raise .operandRange s)
  else if s.session ≠ .encoding then .next (raise .sessionMode s)
  else if o ≠ endOfStream ∧ countFull s (byteOf o) = true then .next (raise .cntOverflow s)
  else match lookup (rebuild s) o with
    | none => .fault .brokenTree
    | some (p, found) =>
      .next (complete (afterEncode o (emitBits (emission o p found) (putCodeword p found (rebuild s)))))

/-- The end of DEC_STEP, after DSTAT and R_SYM are written and the tokens consumed (R194): a byte whose count is full raises
CNT_OVERFLOW with all that kept (R207); another byte is output and recorded; EOS and TRUNC end the session. -/
def afterDecode (st : DStat) (v : Sym) (s : State) : State :=
  if st = .leaf ∨ st = .literal then
    let b : Byte := v.setWidth 8
    if countFull s b then raise .cntOverflow s
    else complete (recordByte b (emitByte b s))
  else complete { s with session := .done }

/-- DEC_STEP (R194). While a needed token has not been delivered the block waits: nothing changes, the build included,
and BUSY stays 1 (R239, R12). -/
def execDecStep (s : State) : Result :=
  if s.session ≠ .decoding then .next (raise .sessionMode s)
  else match decodeWalk (rebuild s).arena (rebuild s).root s.bitSource with
    | .broken => .fault .brokenTree
    | .starved => .next s
    | .done st v rest => .next (afterDecode st v { rebuild s with dstat := st, rSym := v, bitSource := rest })

end Sys2Proof.Machine
end

