-- ==== Sys2Proof/Machine/Dispatch.lean ====
section
/-! DEFINITION. One arm for each command: the meaning it has. -/

namespace Sys2Proof.Machine

def exec (i : Instr) (s : State) : Host.Outcome State Fault Refusal :=
  match i with
  | .nop => Sys2Proof.Machine.execNop s
  | .sessInit m => Sys2Proof.Machine.execSessInit m s
  | .ftReset => Sys2Proof.Machine.execFtReset s
  | .ftRecord b => Sys2Proof.Machine.execFtRecord b s
  | .ftQuery b => Sys2Proof.Machine.execFtQuery b s
  | .ftNext o => Sys2Proof.Machine.execFtNext o s
  | .heapClear => Sys2Proof.Machine.execHeapClear s
  | .heapInsert n => Sys2Proof.Machine.execHeapInsert n s
  | .heapExtract => Sys2Proof.Machine.execHeapExtract s
  | .build => Sys2Proof.Machine.execBuild s
  | .encode o => Sys2Proof.Machine.execEncode o s
  | .decode => Sys2Proof.Machine.execDecode s
  | .encStep o => Sys2Proof.Machine.execEncStep o s
  | .decStep => Sys2Proof.Machine.execDecStep s

end Sys2Proof.Machine
end

