-- ==== Sys2Proof/Machine/Block.lean ====
section
/-! DEFINITION. What one scheduled event does: the block's turn (spec/60_exceptions.md R204), a host access (R60), a token
delivered (R76), the hardware reset (R230). -/

namespace Sys2Proof.Machine

/-- The block executes a command word: the command it decodes to, or `raise Fault(ILLEGAL_CMD)` (R86). -/
def executeWord (w : Word) (s : State) : Result :=
  match decode w with
  | .command i => exec i s
  | .illegal _ => .next (raise .illegalCmd s)

/-- The block's turn (R204): it executes the accepted word; with BUSY = 0 it is idle and keeps all state (R216). -/
def blockStep (s : State) : Result :=
  match fetch s with
  | none => .next s
  | some w => executeWord w s

/-- One event (R71: the agents act one at a time, in order). -/
def perform (e : Event) (s : State) : Result :=
  match e with
  | .memRead bytes addr => busRead bytes addr s
  | .memWrite bytes addr value => busWrite bytes addr value s
  | .deliver t => .next { s with bitSource := s.bitSource ++ [t] }
  | .blockTurn => blockStep s
  | .reset => .next (hardReset s)

end Sys2Proof.Machine
end

