-- ==== Sys2Proof/Machine/Step.lean ====
section
/-! DEFINITION. One step of the host, the block and the environment together: the next scheduled event, or the block's turn
when nothing is scheduled, so that a block step that stays enabled is taken (spec/70_reset_and_hazards.md R240; log 6). -/

namespace Sys2Proof.Machine

def step (s : State) : Host.Outcome State Fault Refusal :=
  match s.schedule with
  | [] => blockStep s
  | e :: rest => perform e { s with schedule := rest }

/-- The command word accepted, and the block's turn next (R204): the very next step executes it (log 14). -/
def State.withFetchWord (s : State) (nbits w : Nat) : State :=
  { s with pending := some (BitVec.ofNat 32 (w % 2 ^ nbits)), schedule := .blockTurn :: s.schedule }

end Sys2Proof.Machine
end

