-- ==== Sys2Proof/Machine/Assembler.lean ====
section
/-! DEFINITION. The assembler of spec/30_encoding.md R89 with the pseudo-instructions of R90: one source line to the command
words it emits. It is the host's tool and no state of the machine depends on it. -/

namespace Sys2Proof.Assembler

/-- A line's words (R89): separated by blanks, the rest of the line from `;` on dropped. A character literal is kept whole and
is a word of its own, also with no blank before or after it, so `FT_RECORD'A'` is accepted (DESIGN CHOICE, log 18). -/
def lexLine (current : List Char) : List Char → List (List Char)
  | [] => [current].filter (· ≠ [])
  | '\'' :: c :: '\'' :: rest => [current].filter (· ≠ []) ++ ['\'', c, '\''] :: lexLine [] rest
  | c :: rest =>
    if c = ';' then [current].filter (· ≠ [])
    else if c = ' ' ∨ c = '\t' then [current].filter (· ≠ []) ++ lexLine [] rest
    else lexLine (current ++ [c]) rest

/-- The digits of R89's two bases, each at its value; `0x` digits are read in either case (log 18). -/
def digits : List Char := "0123456789abcdef".toList

/-- An unsigned numeral in base 10 or 16: at least one digit, each below the base. -/
def numeral (base : Nat) (text : List Char) : Option Nat :=
  if text = [] then none
  else (text.mapM fun c => (digits.take base).idxOf? c.toLower).map fun ds => ds.foldl (fun v d => base * v + d) 0

/-- A number, decimal or hexadecimal (R89). -/
def number : List Char → Option Nat
  | '0' :: 'x' :: rest => numeral 16 rest
  | text => numeral 10 text

/-- An operand as R89 writes it, for a command of the given form. -/
def operandValue (form : Form) (text : List Char) : Option Nat :=
  match text with
  | ['\'', c, '\''] => if c.toNat < 128 then some c.toNat else none
  | ['N', 'S'] => if form = .node then some 256 else none
  | ['E', 'O', 'S'] => some 257
  | ['E', 'N', 'C'] => if form = .mode then some 0 else none
  | ['D', 'E', 'C'] => if form = .mode then some 1 else none
  | 'I' :: k => if form = .node then (numeral 10 k).map (258 + ·) else none
  | _ => number text

/-- The opcode of a mnemonic (R81). -/
def opcodeOfName (name : List Char) : Option Nat :=
  ["NOP", "SESS_INIT", "FT_RESET", "FT_RECORD", "FT_QUERY", "FT_NEXT", "HEAP_CLEAR", "HEAP_INSERT", "HEAP_EXTRACT", "BUILD",
    "ENCODE", "DECODE", "ENC_STEP", "DEC_STEP"].findIdx? fun m => m.toList = name

/-- A pseudo-instruction's command (R90). -/
def pseudo (name : List Char) : Option Instr :=
  if name = "SESS_ENC".toList then some pseudoSessEnc
  else if name = "SESS_DEC".toList then some pseudoSessDec
  else if name = "ENC_END".toList then some pseudoEncEnd
  else if name = "FT_FIRST".toList then some pseudoFtFirst
  else none

/-- The word of a command by its mnemonic: `(OP << 24) | operand`, refused above 1023 or outside a constant legal range
(R89). -/
def commandWord (op : Nat) (operand : Nat) : Option Word :=
  if 1023 < operand then none
  else match commandOf op (BitVec.ofNat 10 operand) with
    | some i => if i.wellFormed then some (encode i) else none
    | none => none

/-- One source line (R89): the words it emits (none for a blank line), or refused. A command of form NONE is written without
an operand: a line that gives it one is refused, an explicit 0 (`NOP 0`) included (DESIGN CHOICE, log 18). -/
def assemble (line : List Char) : Option (List Word) :=
  match lexLine [] line with
  | [] => some []
  | [name] =>
    match pseudo name, opcodeOfName name with
    | some i, _ => some [encode i]
    | none, some op => if formOfOp op = some .none then (commandWord op 0).map ([·]) else none
    | none, none => none
  | [name, text] =>
    if name = ".word".toList then
      match number text with
      | some v => if v < 2 ^ 32 then some [BitVec.ofNat 32 v] else none
      | none => none
    else match opcodeOfName name with
      | none => none
      | some op =>
        match formOfOp op with
        | none => none
        | some form =>
          if form = .none then none
          else match operandValue form text with
            | some v => (commandWord op v).map ([·])
            | none => none
  | _ => none

end Sys2Proof.Assembler
end

