-- ==== Sys2Proof/Safety.lean ====
section
/-! DEFINITION. The notions the statements are written in: paths and tree membership (spec/43_translator.md R160,
spec/10_state.md R27), the decoding walk as a relation (R164), the invariants of R43, what the host can read, runs of
commands, the merges of a build (R140 to R142), waiting (R239), runs from reset and their ends (R242). -/

namespace Sys2Proof.Machine

/-! ## Paths and membership -/

/-- `Follow(n, p)` (R160); none where the path leaves the live arena or passes a leaf. -/
def follow (arena : List ArenaSlot) : NodeIx → BitString → Option NodeIx
  | n, [] => some n
  | n, b :: p =>
    if n.toNat < 258 then none
    else match arena[n.toNat - 258]? with
      | none => none
      | some slot => follow arena (if b then slot.right else slot.left) p

/-- `Reach(n)` (R27). -/
inductive Reach (arena : List ArenaSlot) (root : NodeIx) : NodeIx → Prop where
  | root : Reach arena root root
  | left {k : Nat} {slot : ArenaSlot} :
      arena[k]? = some slot → Reach arena root (BitVec.ofNat 10 (258 + k)) → Reach arena root slot.left
  | right {k : Nat} {slot : ArenaSlot} :
      arena[k]? = some slot → Reach arena root (BitVec.ofNat 10 (258 + k)) → Reach arena root slot.right

/-- `InTree(n)` (R27). -/
def InTree (s : State) (n : NodeIx) : Prop := s.treeValid = true ∧ Reach s.arena s.root n

/-- The tokens a bit string is delivered as (R10, R76). -/
def tokensOf (p : BitString) : List Token := p.map fun b => if b then Token.one else Token.zero

/-- DecodeWalk as a relation (R164): the tokens it starts with, its status and symbol, the tokens it leaves. -/
inductive WalkEnds (arena : List ArenaSlot) (root : NodeIx) : List Token → DStat → Sym → List Token → Prop where
  /-- a byte leaf -/
  | leaf {p : BitString} {n : NodeIx} {rest : List Token} :
      follow arena root p = some n → n.toNat ≤ 255 →
      WalkEnds arena root (tokensOf p ++ rest) .leaf (n.setWidth 9) rest
  /-- NOT_SEEN and then the 8 literal bits, most significant first -/
  | literal {p : BitString} {v : Byte} {rest : List Token} :
      follow arena root p = some 256 →
      WalkEnds arena root (tokensOf p ++ (tokensOf (bin8 v) ++ rest)) .literal (v.setWidth 9) rest
  /-- END_OF_STREAM -/
  | eos {p : BitString} {rest : List Token} :
      follow arena root p = some 257 →
      WalkEnds arena root (tokensOf p ++ rest) .eos 257 rest
  /-- an OTHER at an internal node -/
  | truncCodeword {p : BitString} {n : NodeIx} {rest : List Token} :
      follow arena root p = some n → 258 ≤ n.toNat →
      WalkEnds arena root (tokensOf p ++ (.other :: rest)) .trunc 0x1FF rest
  /-- an OTHER among the literal bits -/
  | truncLiteral {p q : BitString} {rest : List Token} :
      follow arena root p = some 256 → q.length < 8 →
      WalkEnds arena root (tokensOf p ++ (tokensOf q ++ (.other :: rest))) .trunc 0x1FF rest

/-- The walk needs a token not yet delivered (R164, R239). -/
inductive WalkStarves (arena : List ArenaSlot) (root : NodeIx) : List Token → Prop where
  | inCodeword {p : BitString} {n : NodeIx} :
      follow arena root p = some n → 258 ≤ n.toNat → WalkStarves arena root (tokensOf p)
  | inLiteral {p q : BitString} :
      follow arena root p = some 256 → q.length < 8 → WalkStarves arena root (tokensOf p ++ tokensOf q)

/-! ## The loops of the heap -/

/-- The loop of R121 from index i: the entry moves up while strictly lighter than its parent. -/
inductive SiftsUp : List HeapEntry → Nat → List HeapEntry → Prop where
  | atRoot {h : List HeapEntry} : SiftsUp h 0 h
  | stays {h : List HeapEntry} {i : Nat} {e parent : HeapEntry} :
      0 < i → h[i]? = some e → h[(i - 1) / 2]? = some parent → parent.wgt.toNat ≤ e.wgt.toNat → SiftsUp h i h
  | moves {h h' : List HeapEntry} {i : Nat} {e parent : HeapEntry} :
      0 < i → h[i]? = some e → h[(i - 1) / 2]? = some parent → e.wgt.toNat < parent.wgt.toNat →
      SiftsUp ((h.set i parent).set ((i - 1) / 2) e) ((i - 1) / 2) h' → SiftsUp h i h'

/-- The child R122 compares with: the right one only where it is live and strictly lighter than the left one. -/
def ChosenChild (h : List HeapEntry) (i c : Nat) (child : HeapEntry) : Prop :=
  (c = 2 * i + 2 ∧ h[2 * i + 2]? = some child ∧ ∃ l, h[2 * i + 1]? = some l ∧ child.wgt.toNat < l.wgt.toNat) ∨
  (c = 2 * i + 1 ∧ h[2 * i + 1]? = some child ∧ ∀ r, h[2 * i + 2]? = some r → child.wgt.toNat ≤ r.wgt.toNat)

/-- The loop of R122 from index i: the entry moves down while strictly heavier than the chosen child. -/
inductive SiftsDown : List HeapEntry → Nat → List HeapEntry → Prop where
  | noChild {h : List HeapEntry} {i : Nat} : h.length ≤ 2 * i + 1 → SiftsDown h i h
  | stays {h : List HeapEntry} {i c : Nat} {e child : HeapEntry} :
      h[i]? = some e → ChosenChild h i c child → e.wgt.toNat ≤ child.wgt.toNat → SiftsDown h i h
  | moves {h h' : List HeapEntry} {i c : Nat} {e child : HeapEntry} :
      h[i]? = some e → ChosenChild h i c child → child.wgt.toNat < e.wgt.toNat →
      SiftsDown ((h.set i child).set c e) c h' → SiftsDown h i h'

/-- HeapInsert(e) takes the heap h to h' (R121). -/
def Inserts (h : List HeapEntry) (e : HeapEntry) (h' : List HeapEntry) : Prop := SiftsUp (h ++ [e]) h.length h'

/-- HeapExtract() takes the heap h to h' and returns top (R122): the last entry goes to the root and sifts down. -/
def Extracts (h : List HeapEntry) (top : HeapEntry) (h' : List HeapEntry) : Prop :=
  (h = [top] ∧ h' = []) ∨ ∃ mid last, h = top :: (mid ++ [last]) ∧ SiftsDown (last :: mid) 0 h'

/-! ## The merges of a build -/

/-- The leaves of R141 in its order: NOT_SEEN, END_OF_STREAM, each byte with a non-zero count, ascending, with its count. -/
def leavesInOrder (freq : Vector Count 256) : List HeapEntry :=
  ⟨256, 0⟩ :: ⟨257, 0⟩ ::
    (((List.range 256).map (BitVec.ofNat 8)).filter fun b => countAt freq b ≠ 0).map fun b =>
      ⟨b.setWidth 10, (countAt freq b).setWidth 64⟩

/-- The entries go into the heap one after the other (R140 step 2). -/
inductive InsertsAll : List HeapEntry → List HeapEntry → List HeapEntry → Prop where
  | none {h : List HeapEntry} : InsertsAll h [] h
  | next {h h₁ h' : List HeapEntry} {e : HeapEntry} {l : List HeapEntry} :
      Inserts h e h₁ → InsertsAll h₁ l h' → InsertsAll h (e :: l) h'

/-- The loop of R140 step 3, from a heap and an arena to those it leaves: while two entries are left, a and then c are
extracted, slot NINT gets them as its left and right child with the sum of their weights (R142), and node 258 + NINT goes
back into the heap with it. -/
inductive Merges : List HeapEntry → List ArenaSlot → List HeapEntry → List ArenaSlot → Prop where
  | finished {h : List HeapEntry} {arena : List ArenaSlot} : h.length ≤ 1 → Merges h arena h arena
  | merge {h h₁ h₂ h₃ h' : List HeapEntry} {arena arena' : List ArenaSlot} {a c : HeapEntry} :
      Extracts h a h₁ → Extracts h₁ c h₂ →
      Inserts h₂ ⟨BitVec.ofNat 10 (258 + arena.length), a.wgt + c.wgt⟩ h₃ →
      Merges h₃ (arena ++ [⟨a.node, c.node, a.wgt + c.wgt⟩]) h' arena' →
      Merges h arena h' arena'

/-! ## The table as a whole -/

/-- The number of observed bytes, m (R141). -/
def observedBytes (freq : Vector Count 256) : Nat := freq.toList.countP fun c => decide (0 < c.toNat)

/-- `Σ FREQ[b]` (R145). -/
def totalCount (freq : Vector Count 256) : Nat := (freq.toList.map fun c => c.toNat).sum

/-! ## Invariants (R43) -/

/-- R43 (a). -/
def SizesOk (s : State) : Prop := s.hsize ≤ 258 ∧ s.nint ≤ 257

/-- R43 (b), R127: the heap property. -/
def HeapOrdered (h : List HeapEntry) : Prop :=
  ∀ i x y, 1 ≤ i → h[(i - 1) / 2]? = some x → h[i]? = some y → x.wgt.toNat ≤ y.wgt.toNat

/-- R43 (c) and (d): with TREE_VALID = 1 the tree is rooted in the last slot, children stand below their parent, and both
sentinels are in it; with TREE_VALID = 0 there is no internal node and ROOT is 0 (R26). -/
def TreeOk (s : State) : Prop :=
  if s.treeValid then
    1 ≤ s.nint ∧ s.nint ≤ 257 ∧ s.root = BitVec.ofNat 10 (258 + s.nint - 1) ∧
    (∀ k slot, s.arena[k]? = some slot → slot.left.toNat < 258 + k ∧ slot.right.toNat < 258 + k) ∧
    InTree s 256 ∧ InTree s 257
  else s.nint = 0 ∧ s.root = 0

/-- Every count fits CNT_W bits and every weight WGT_W bits (R20, R21, R22, R31, R32, R147). -/
def WidthsOk (s : State) : Prop :=
  (∀ b, (countAt s.freq b).toNat < 2 ^ s.cntW.val) ∧
  s.rCount.toNat < 2 ^ s.cntW.val ∧
  (∀ e ∈ s.heap, e.wgt.toNat < 2 ^ (s.cntW.val + 8)) ∧
  (∀ slot ∈ s.arena, slot.wint.toNat < 2 ^ (s.cntW.val + 8)) ∧
  s.rWeight.toNat < 2 ^ (s.cntW.val + 8)

/-- "Bits CW[i] for i >= CW_LEN are 0" (R33), and CW_LEN is at most CW_MAXLEN (R161). -/
def CodewordOk (s : State) : Prop :=
  s.cwLen.toNat ≤ 257 ∧ ∀ i, s.cwLen.toNat ≤ i → s.cw.getLsbD i = false

/-- FCODE is NONE exactly while there was no fault since reset (R36, R201). -/
def FaultOk (s : State) : Prop := s.fault = true ↔ s.fcode ≠ .none

/-! ## What the host sees -/

/-- `MemRead(a, 4)` returns w and changes nothing but the host's record (R60, R69). -/
def MemReads (s : State) (a : Nat) (w : Word) : Prop :=
  perform (.memRead 4 (BitVec.ofNat 16 a)) s = .next { s with hostReads := s.hostReads ++ [w] }

/-- The codeword the registers hold: CW[0] to CW[CW_LEN - 1] (R33). -/
def heldCodeword (s : State) : BitString := (List.range s.cwLen.toNat).map fun i => s.cw.getLsbD i

/-- The offsets R40 lists, aligned and below 0x10000. -/
def MappedOffset (a : Nat) : Prop :=
  a % 4 = 0 ∧ (a ≤ 0x34 ∨ (0x40 ≤ a ∧ a ≤ 0x60) ∨ (0x1000 ≤ a ∧ a ≤ 0x17FF) ∨ (0x4000 ≤ a ∧ a ≤ 0x602F) ∨
    (0x8000 ≤ a ∧ a ≤ 0x901F))

/-! ## Runs of commands -/

/-- The commands executed one after the other, each from the state the last one left; none where one stops. -/
def runCommands : List Instr → State → Option State
  | [], s => some s
  | i :: rest, s =>
    match exec i s with
    | .next t => runCommands rest t
    | _ => none

/-- An encoder's session over a byte string (R195, R233). -/
def encoderSession (bytes : List Byte) : List Instr :=
  .sessInit 0 :: (bytes.map fun b => .encStep (leafOfByte b)) ++ [.encStep 257]

/-- A decoder's session of n bytes and the end of the stream (R195, R233). -/
def decoderSession (n : Nat) : List Instr := .sessInit 1 :: List.replicate (n + 1) .decStep

/-! ## Waiting -/

/-- The block waits: a command is in flight and the block's turn changes nothing (R239). -/
def Waiting (s : State) : Prop := s.busy = true ∧ blockStep s = .next s

/-- Waiting, and no token is to come (R239). -/
def Stuck (s : State) : Prop := Waiting s ∧ s.schedule = []

/-! ## Runs from reset and how they end (R242) -/

/-- The state after n steps; none where a step before that stops. -/
def afterSteps : Nat → State → Option State
  | 0, s => some s
  | n + 1, s =>
    match step s with
    | .next t => afterSteps n t
    | _ => none

/-- A run from reset: s₀ is as the hardware reset leaves a state, with any ports and any schedule (R230, R232), and n steps,
none of them another reset, lead to t. -/
def RunFromReset (s₀ : State) (n : Nat) (t : State) : Prop :=
  s₀ = hardReset s₀ ∧ afterSteps n s₀ = some t ∧
  ∀ k u, k < n → afterSteps k s₀ = some u → u.schedule.head? ≠ some .reset

/-- The next step of u is the block's turn and executes command i. -/
def Executes (u : State) (i : Instr) : Prop :=
  (u.schedule = [] ∨ u.schedule.head? = some .blockTurn) ∧ ∃ w, u.pending = some w ∧ decode w = .command i

/-- Command i ended the session, at a step of the run, and SESSION has been DONE from there to the end of its n steps,
whatever commands came after. -/
def DoneBy (i : Instr) (s₀ : State) (n : Nat) : Prop :=
  ∃ k u, k < n ∧ afterSteps k s₀ = some u ∧ Executes u i ∧ u.session ≠ .done ∧
    ∀ j v, k < j → j ≤ n → afterSteps j s₀ = some v → v.session = .done

/-- The five ways a run ends (R242), the first three with the run's result. -/
inductive RunEnd where
  | encodeComplete (result : BitString)
  | decodeComplete (result : List Byte)
  | decodeTruncated (result : List Byte)
  | faulted
  | stuck
deriving DecidableEq, Repr

/-- "Only (a) and (b) are good ends" (R242). -/
def RunEnd.good : RunEnd → Bool
  | .encodeComplete _ => true
  | .decodeComplete _ => true
  | .decodeTruncated _ => false
  | .faulted => false
  | .stuck => false

/-- BUSY = 0, FAULT = 0 and SESSION = DONE (R242 (a) to (c)). -/
def DoneAtRest (t : State) : Prop := t.busy = false ∧ t.fault = false ∧ t.session = .done

/-- The n steps from s₀ to t end in the given way, (a) to (e) of R242; log 20 says how the ways are kept apart. The result
is what the run appended to the sink. -/
def EndsAs (s₀ : State) (n : Nat) (t : State) : RunEnd → Prop
  | .encodeComplete result =>
    DoneAtRest t ∧ DoneBy (.encStep endOfStream) s₀ n ∧ t.bitSink = s₀.bitSink ++ result
  | .decodeComplete result =>
    DoneAtRest t ∧ DoneBy .decStep s₀ n ∧ t.dstat = .eos ∧ t.byteSink = s₀.byteSink ++ result
  | .decodeTruncated result =>
    DoneAtRest t ∧ DoneBy .decStep s₀ n ∧ t.dstat = .trunc ∧ t.byteSink = s₀.byteSink ++ result
  | .faulted => t.fault = true
  | .stuck => t.fault = false ∧ Stuck t

end Sys2Proof.Machine
end

