-- ==== Sys2Proof/Certificates/Slice0/Obligations.lean ====
section
/-! DEFINITION. The statements for the provers. Each docstring names the rules of spec/ it formalises; "derived" marks a
statement that rests on an inference the spec marks as its own, or on a choice of the model's with its log entry. -/

open Sys2Proof Sys2Proof.Machine

/-! ## Encoding and fetching -/

/-- Decode and encode agree, both ways, on every command with every operand and on every word (derived from
30_encoding.md, sections 1 and 2). -/
def Obligations.DecodeEncodeRoundTrip : Prop :=
  (∀ i : Instr, decode (encode i) = .command i) ∧
  (∀ (w : Word) (i : Instr), decode w = .command i → encode i = w)

/-- R83, R84, R85, R86: which words are Illegal, what every other word decodes to, and that executing an Illegal word raises
ILLEGAL_CMD. -/
def Obligations.IllegalWordsExactly : Prop :=
  (∀ w : Word, (∃ why, decode w = .illegal why) ↔
    (0x0D < (w.extractLsb' 24 8).toNat ∨ w.extractLsb' 10 14 ≠ 0 ∨
      ((w.extractLsb' 24 8).toNat ∈ [0x00, 0x02, 0x06, 0x08, 0x09, 0x0B, 0x0D] ∧ w.extractLsb' 0 10 ≠ 0))) ∧
  (∀ (w : Word) (i : Instr), decode w = .command i →
    opcodeOf i = w.extractLsb' 24 8 ∧ operandOf i = w.extractLsb' 0 10) ∧
  (∀ (w : Word) (why : IllegalReason) (s : State), decode w = .illegal why → s.pending = some w → s.schedule = [] →
    step s = .next { s with fault := true, fcode := if s.fault then s.fcode else .illegalCmd, pending := none })

/-- A few of the worked encodings of 30_encoding.md, section 4, and of the decoding vectors of 95_test_vectors.md (derived). -/
def Obligations.WorkedWordsDecode : Prop :=
  decode 0x00000000 = .command .nop ∧
  decode 0x01000001 = .command (.sessInit 1) ∧
  decode 0x03000041 = .command (.ftRecord 0x41) ∧
  decode 0x040000FF = .command (.ftQuery 255) ∧
  decode 0x05000100 = .command (.ftNext 256) ∧
  decode 0x07000102 = .command (.heapInsert 258) ∧
  decode 0x0A000101 = .command (.encode 257) ∧
  decode 0x0D000000 = .command .decStep ∧
  decode 0x03000100 = .command (.ftRecord 256) ∧
  decode 0x09000001 = .illegal .operandNotZero ∧
  decode 0x0E000000 = .illegal .unassignedOpcode ∧
  decode 0x0D800000 = .illegal .reservedBits

/-- The block's turn executes the command the accepted word decodes to, whether the turn is scheduled or nothing is (derived
from 60_exceptions.md section 1; that the turn comes when nothing is scheduled is the model's choice, log 6). -/
def Obligations.StepRunsDecodedCommand : Prop :=
  ∀ (s : State) (w : Word) (i : Instr), s.pending = some w → decode w = .command i →
    (s.schedule = [] → step s = exec i s) ∧
    (∀ rest, s.schedule = .blockTurn :: rest → step s = exec i { s with schedule := rest })

/-- With BUSY = 0 the block's turn keeps all state, and with FAULT = 0 a CMD write is then accepted: PENDING holds it and
BUSY reads 1 (derived from 60_exceptions.md, the acceptance pseudocode and "Between commands it is idle (BUSY = 0), and all
state is kept"). -/
def Obligations.IdleBlockKeepsStateAndAccepts : Prop :=
  (∀ s : State, s.busy = false → s.schedule = [] → step s = .next s) ∧
  (∀ (s : State) (w : Word), s.busy = false → s.fault = false →
    ∃ t, perform (.memWrite 4 0 w) s = .next t ∧ t = { s with pending := some w } ∧ t.busy = true)

/-! ## Faults and the handshake -/

/-- A command that raises a fault from FAULT = 0 has no other effect, DEC_STEP's CNT_OVERFLOW apart (derived from
60_exceptions.md section 1: "The faulting command has no other effect"). -/
def Obligations.FaultsArePrecise : Prop :=
  ∀ (i : Instr) (s t : State), exec i s = .next t → s.fault = false → t.fault = true →
    (t = { s with fault := true, fcode := t.fcode, pending := none } ∧
      t.fcode ∈ [FaultCode.operandRange, .cntOverflow, .heapFull, .heapEmpty, .noTree, .sessionMode]) ∨
    (i = .decStep ∧ t.fcode = .cntOverflow ∧ s.session = .decoding)

/-- R203: the order in which a command's conditions are checked; ILLEGAL_CMD is first because an Illegal word decodes to no
command. -/
def Obligations.FaultCheckOrder : Prop :=
  (∀ (w : Word) (why : IllegalReason) (s : State), decode w = .illegal why →
    executeWord w s = .next (raise .illegalCmd s)) ∧
  (∀ (o : Opnd) (s : State), ¬ (o.toNat ≤ 255 ∨ o.toNat = 257) →
    exec (.encStep o) s = .next (raise .operandRange s) ∧ exec (.encode o) s = .next (raise .operandRange s)) ∧
  (∀ (o : Opnd) (s : State), 255 < o.toNat →
    exec (.ftRecord o) s = .next (raise .operandRange s) ∧ exec (.ftQuery o) s = .next (raise .operandRange s)) ∧
  (∀ (o : Opnd) (s : State), 256 < o.toNat → exec (.ftNext o) s = .next (raise .operandRange s)) ∧
  (∀ (o : Opnd) (s : State), 1 < o.toNat → exec (.sessInit o) s = .next (raise .operandRange s)) ∧
  (∀ (o : Opnd) (s : State), 258 + s.nint ≤ o.toNat → exec (.heapInsert o) s = .next (raise .operandRange s)) ∧
  (∀ (o : Opnd) (s : State), o.toNat ≤ 255 ∨ o.toNat = 257 → s.session ≠ .encoding →
    exec (.encStep o) s = .next (raise .sessionMode s)) ∧
  (∀ s : State, s.session ≠ .decoding → exec .decStep s = .next (raise .sessionMode s)) ∧
  (∀ (o : Opnd) (s : State), o.toNat ≤ 255 ∨ o.toNat = 257 → s.treeValid = false →
    exec (.encode o) s = .next (raise .noTree s)) ∧
  (∀ s : State, s.treeValid = false → exec .decode s = .next (raise .noTree s)) ∧
  (∀ (o : Opnd) (s : State), o.toNat < 258 + s.nint → s.hsize = 258 →
    exec (.heapInsert o) s = .next (raise .heapFull s)) ∧
  (∀ s : State, s.hsize = 0 → exec .heapExtract s = .next (raise .heapEmpty s)) ∧
  (∀ (o : Opnd) (s : State), o.toNat ≤ 255 → (countAt s.freq (o.setWidth 8)).toNat = 2 ^ s.cntW.val - 1 →
    exec (.ftRecord o) s = .next (raise .cntOverflow s) ∧
    (s.session = .encoding → exec (.encStep o) s = .next (raise .cntOverflow s)))

/-- R205: no step but the reset clears FAULT or FCODE once FAULT is 1, every command write is then dropped, an idle block
stays as it is, and the reset clears both. -/
def Obligations.FaultIsStickyUntilReset : Prop :=
  (∀ (s t : State), s.fault = true → (∀ rest, s.schedule ≠ .reset :: rest) → step s = .next t →
    t.fault = true ∧ t.fcode = s.fcode) ∧
  (∀ (s : State) (w : Word), s.fault = true → perform (.memWrite 4 0 w) s = .next s) ∧
  (∀ s : State, s.fault = true → s.pending = none → perform .blockTurn s = .next s) ∧
  (∀ s t : State, perform .reset s = .next t → t.fault = false ∧ t.fcode = .none)

/-- R206: a CMD write while BUSY = 1 with FAULT = 0 is discarded and raises OVERRUN; the command in flight runs as it would
have without it, FCODE keeps OVERRUN, and every further command write is dropped. -/
def Obligations.OverrunRule : Prop :=
  (∀ (s : State) (w : Word), s.busy = true → s.fault = false →
    perform (.memWrite 4 0 w) s = .next { s with fault := true, fcode := .overrun }) ∧
  (∀ (i : Instr) (s t : State), exec i s = .next t →
    exec i { s with fault := true, fcode := .overrun } = .next { t with fault := true, fcode := .overrun }) ∧
  (∀ (s : State) (w : Word), s.fault = true → perform (.memWrite 4 0 w) s = .next s)

/-- A completed command clears BUSY; only a command that waits for tokens leaves the state as it was (derived from
60_exceptions.md section 1 and 70_reset_and_hazards.md section 3). -/
def Obligations.CommandCompletesOrWaits : Prop :=
  ∀ (i : Instr) (s t : State), exec i s = .next t →
    t.busy = false ∨ (t = s ∧ (i = .decode ∨ i = .decStep))

/-- R42 and R232: what the hardware reset leaves, that State.reset is that state, and that neither reset nor SESS_INIT
touches the ports. -/
def Obligations.ResetValues : Prop :=
  (∀ s : State, ∃ t, perform .reset s = .next t ∧
    (∀ b, countAt t.freq b = 0) ∧ t.hsize = 0 ∧ t.nint = 0 ∧ t.root = 0 ∧ t.treeValid = false ∧ t.stale = false ∧
    t.session = .idle ∧ t.rSym = 0 ∧ t.rNode = 0 ∧ t.rCount = 0 ∧ t.rWeight = 0 ∧ t.cw = 0 ∧ t.cwLen = 0 ∧
    t.found = false ∧ t.hit = false ∧ t.dstat = .none ∧ t.fault = false ∧ t.fcode = .none ∧ t.pending = none ∧
    t.busy = false ∧ t.cntW = s.cntW ∧
    t.bitSource = s.bitSource ∧ t.bitSink = s.bitSink ∧ t.byteSink = s.byteSink) ∧
  perform .reset State.reset = .next State.reset ∧
  (∀ (o : Opnd) (s t : State), exec (.sessInit o) s = .next t →
    t.bitSource = s.bitSource ∧ t.bitSink = s.bitSink ∧ t.byteSink = s.byteSink)

/-! ## The host register space -/

/-- R39: the layout of STATUS, with the numbers that R29, R35 and R201 give the values of its fields, that it is read while
BUSY = 1 too, and its reset value. -/
def Obligations.StatusLayout : Prop :=
  (∀ s : State, ∃ w : Word, MemReads s 0x0004 w ∧
    w.getLsbD 0 = s.busy ∧ w.getLsbD 1 = s.fault ∧ w.extractLsb' 2 2 = 0 ∧
    (∀ x ∈ [(FaultCode.none, 0), (.illegalCmd, 1), (.operandRange, 2), (.cntOverflow, 3), (.heapFull, 4), (.heapEmpty, 5),
      (.noTree, 6), (.sessionMode, 7), (.overrun, 8)], s.fcode = x.1 → w.extractLsb' 4 4 = x.2) ∧
    (∀ x ∈ [(Session.idle, 0), (.encoding, 1), (.decoding, 2), (.done, 3)], s.session = x.1 → w.extractLsb' 8 2 = x.2) ∧
    w.getLsbD 10 = s.treeValid ∧ w.getLsbD 11 = s.stale ∧ w.getLsbD 12 = s.found ∧
    w.getLsbD 13 = s.hit ∧ w.extractLsb' 14 2 = 0 ∧
    (∀ x ∈ [(DStat.none, 0), (.leaf, 1), (.literal, 2), (.eos, 3), (.trunc, 4)],
      s.dstat = x.1 → w.extractLsb' 16 3 = x.2) ∧
    w.extractLsb' 19 13 = 0) ∧
  MemReads State.reset 0x0004 0

/-- The result registers, ID and PARAM at their offsets while no command runs, each zero above its field (derived from
10_state.md section 9). -/
def Obligations.RegisterMapReads : Prop :=
  ∀ s : State, s.busy = false →
    MemReads s 0x0008 (s.rSym.setWidth 32) ∧
    MemReads s 0x000C (s.rNode.setWidth 32) ∧
    MemReads s 0x0010 (BitVec.ofNat 32 s.rCount.toNat) ∧
    MemReads s 0x0014 (BitVec.ofNat 32 (s.rCount.toNat / 2 ^ 32)) ∧
    MemReads s 0x0018 (BitVec.ofNat 32 s.rWeight.toNat) ∧
    MemReads s 0x001C (BitVec.ofNat 32 (s.rWeight.toNat / 2 ^ 32)) ∧
    MemReads s 0x0020 (s.root.setWidth 32) ∧
    MemReads s 0x0024 (BitVec.ofNat 32 s.nint) ∧
    MemReads s 0x0028 (BitVec.ofNat 32 s.hsize) ∧
    MemReads s 0x002C (s.cwLen.setWidth 32) ∧
    MemReads s 0x0030 0x48544201 ∧
    MemReads s 0x0034 (BitVec.ofNat 32 s.cntW.val)

/-- R65: word CWj holds CW[32j + 31 .. 32j], word bit i is CW[32j + i], and CW8 reads 0 above bit 1; where the codeword
register keeps its rule (CodewordOk), bits at or beyond CW_LEN read 0. -/
def Obligations.CodewordPacking : Prop :=
  ∀ (s : State) (j : Nat), s.busy = false → j ≤ 8 → ∃ w : Word, MemReads s (0x0040 + 4 * j) w ∧
    (∀ i, i < 32 → w.getLsbD i = s.cw.getLsbD (32 * j + i)) ∧
    (j = 8 → ∀ i, 1 < i → w.getLsbD i = false) ∧
    (CodewordOk s → ∀ i, i < 32 → s.cwLen.toNat ≤ 32 * j + i → w.getLsbD i = false)

/-- R66: the FREQ window, whose high word reads 0 when CNT_W is at most 32 (every count within its width, WidthsOk). -/
def Obligations.FreqWindow : Prop :=
  ∀ (s : State) (b : Byte), s.busy = false →
    MemReads s (0x1000 + 8 * b.toNat) (BitVec.ofNat 32 (countAt s.freq b).toNat) ∧
    MemReads s (0x1000 + 8 * b.toNat + 4) (BitVec.ofNat 32 ((countAt s.freq b).toNat / 2 ^ 32)) ∧
    (WidthsOk s → s.cntW.val ≤ 32 → MemReads s (0x1000 + 8 * b.toNat + 4) 0)

/-- R67: the NODE window, for a byte leaf, a sentinel leaf, a live and a free internal node. -/
def Obligations.NodeWindow : Prop :=
  ∀ s : State, s.busy = false →
    (∀ b : Byte,
      MemReads s (0x4000 + 16 * b.toNat) (BitVec.ofNat 32 (countAt s.freq b).toNat) ∧
      MemReads s (0x4000 + 16 * b.toNat + 4) (BitVec.ofNat 32 ((countAt s.freq b).toNat / 2 ^ 32)) ∧
      MemReads s (0x4000 + 16 * b.toNat + 8) 0 ∧ MemReads s (0x4000 + 16 * b.toNat + 12) 0) ∧
    (∀ n k : Nat, n = 256 ∨ n = 257 → k < 4 → MemReads s (0x4000 + 16 * n + 4 * k) 0) ∧
    (∀ (k : Nat) (slot : ArenaSlot), k ≤ 256 → s.arena[k]? = some slot →
      MemReads s (0x4000 + 16 * (258 + k)) (BitVec.ofNat 32 slot.wint.toNat) ∧
      MemReads s (0x4000 + 16 * (258 + k) + 4) (BitVec.ofNat 32 (slot.wint.toNat / 2 ^ 32)) ∧
      MemReads s (0x4000 + 16 * (258 + k) + 8) (BitVec.ofNat 32 (2 ^ 31 + slot.left.toNat)) ∧
      MemReads s (0x4000 + 16 * (258 + k) + 12) (BitVec.ofNat 32 slot.right.toNat)) ∧
    (∀ k j : Nat, s.nint ≤ k → k ≤ 256 → j < 4 → MemReads s (0x4000 + 16 * (258 + k) + 4 * j) 0)

/-- R68: the HEAP window. -/
def Obligations.HeapWindow : Prop :=
  ∀ (s : State) (i : Nat), s.busy = false → i ≤ 257 →
    (∀ e : HeapEntry, s.heap[i]? = some e →
      MemReads s (0x8000 + 16 * i) (BitVec.ofNat 32 e.node.toNat) ∧
      MemReads s (0x8000 + 16 * i + 4) (BitVec.ofNat 32 e.wgt.toNat) ∧
      MemReads s (0x8000 + 16 * i + 8) (BitVec.ofNat 32 (e.wgt.toNat / 2 ^ 32)) ∧
      MemReads s (0x8000 + 16 * i + 12) 0) ∧
    (s.hsize ≤ i → ∀ k, k < 4 → MemReads s (0x8000 + 16 * i + 4 * k) 0)

/-- While BUSY = 1, a read of any readable location but STATUS returns the model's next free value, whatever it is, and
counts it; nothing of the block changes (derived from 20_memory.md section 1: "an unspecified value, a draw the model leaves
free"; the free value is log 8). -/
def Obligations.BusyReadIsADraw : Prop :=
  ∀ (s : State) (a : Addr), s.busy = true → MappedOffset a.toNat → a ≠ 0 → a ≠ 4 →
    perform (.memRead 4 a) s =
      .next { s with hostReads := s.hostReads ++ [Config.busyRead s.draws], draws := s.draws + 1 }

/-- R61, R62, R63: every access the bus rejects is refused, and every other access completes. -/
def Obligations.BusErrorsAreRefused : Prop :=
  (∀ (s : State) (bytes : Nat) (a : Addr) (v : Word), bytes ≠ 4 ∨ a.toNat % 4 ≠ 0 ∨ ¬ MappedOffset a.toNat →
    (∃ e, perform (.memRead bytes a) s = .refused (.busError e)) ∧
    (∃ e, perform (.memWrite bytes a v) s = .refused (.busError e))) ∧
  (∀ (s : State) (a : Addr) (v : Word), MappedOffset a.toNat → a ≠ 0 →
    perform (.memWrite 4 a v) s = .refused (.busError .direction)) ∧
  (∀ s : State, perform (.memRead 4 0) s = .refused (.busError .direction)) ∧
  (∀ (s : State) (a : Addr), MappedOffset a.toNat → a ≠ 0 → ∃ t, perform (.memRead 4 a) s = .next t) ∧
  (∀ (s : State) (v : Word), ∃ t, perform (.memWrite 4 0 v) s = .next t)

/-- R76's order: a delivered token joins the end of the source and nothing else changes (derived from 20_memory.md section 3). -/
def Obligations.DeliveredTokensQueueInOrder : Prop :=
  ∀ (s : State) (t : Token) (rest : List Event), s.schedule = .deliver t :: rest →
    step s = .next { s with schedule := rest, bitSource := s.bitSource ++ [t] }

/-! ## The frequency table -/

/-- R101: FT_RESET. -/
def Obligations.FtResetRule : Prop :=
  encode .ftReset = 0x02000000 ∧
  (∀ (w : Word) (s : State), w.extractLsb' 24 8 = 0x02 → w.extractLsb' 0 24 ≠ 0 →
    executeWord w s = .next (raise .illegalCmd s)) ∧
  ∀ s : State, ∃ t, exec .ftReset s = .next t ∧ (∀ b, countAt t.freq b = 0) ∧
    t = { s with freq := t.freq, stale := true, pending := none }

/-- R102: FT_RECORD. -/
def Obligations.FtRecordRule : Prop :=
  (∀ o : Opnd, encode (.ftRecord o) = 0x03000000 ||| o.setWidth 32) ∧
  (∀ (w : Word) (s : State), w.extractLsb' 24 8 = 0x03 → w.extractLsb' 10 14 ≠ 0 →
    executeWord w s = .next (raise .illegalCmd s)) ∧
  ∀ (o : Opnd) (s : State),
    (255 < o.toNat → exec (.ftRecord o) s = .next (raise .operandRange s)) ∧
    (o.toNat ≤ 255 → (countAt s.freq (o.setWidth 8)).toNat = 2 ^ s.cntW.val - 1 →
      exec (.ftRecord o) s = .next (raise .cntOverflow s)) ∧
    (o.toNat ≤ 255 → (countAt s.freq (o.setWidth 8)).toNat ≠ 2 ^ s.cntW.val - 1 →
      ∃ t, exec (.ftRecord o) s = .next t ∧
        countAt t.freq (o.setWidth 8) = countAt s.freq (o.setWidth 8) + 1 ∧
        (∀ b : Byte, b ≠ o.setWidth 8 → countAt t.freq b = countAt s.freq b) ∧
        t = { s with freq := t.freq, stale := true, pending := none })

/-- R103: FT_QUERY. -/
def Obligations.FtQueryRule : Prop :=
  (∀ o : Opnd, encode (.ftQuery o) = 0x04000000 ||| o.setWidth 32) ∧
  (∀ (w : Word) (s : State), w.extractLsb' 24 8 = 0x04 → w.extractLsb' 10 14 ≠ 0 →
    executeWord w s = .next (raise .illegalCmd s)) ∧
  ∀ (o : Opnd) (s : State),
    (255 < o.toNat → exec (.ftQuery o) s = .next (raise .operandRange s)) ∧
    (o.toNat ≤ 255 → exec (.ftQuery o) s = .next { s with
      rCount := countAt s.freq (o.setWidth 8), hit := decide (0 < (countAt s.freq (o.setWidth 8)).toNat),
      pending := none })

/-- R104: FT_NEXT finds the least observed byte at or above the start value, and says so when there is none. -/
def Obligations.FtNextRule : Prop :=
  (∀ o : Opnd, encode (.ftNext o) = 0x05000000 ||| o.setWidth 32) ∧
  (∀ (w : Word) (s : State), w.extractLsb' 24 8 = 0x05 → w.extractLsb' 10 14 ≠ 0 →
    executeWord w s = .next (raise .illegalCmd s)) ∧
  ∀ (o : Opnd) (s : State),
    (256 < o.toNat → exec (.ftNext o) s = .next (raise .operandRange s)) ∧
    (∀ b : Byte, o.toNat ≤ b.toNat → countAt s.freq b ≠ 0 →
      (∀ c : Byte, o.toNat ≤ c.toNat → c.toNat < b.toNat → countAt s.freq c = 0) →
      exec (.ftNext o) s = .next { s with
        rSym := b.setWidth 9, rCount := countAt s.freq b, hit := true, pending := none }) ∧
    (o.toNat ≤ 256 → (∀ c : Byte, o.toNat ≤ c.toNat → countAt s.freq c = 0) →
      exec (.ftNext o) s = .next { s with rSym := 256, rCount := 0, hit := false, pending := none })

/-- R100: the frequency-table commands complete in every state, session states included, write only FREQ, STALE, R_SYM,
R_COUNT and HIT beside the completion and fault bits, and what they write depends on nothing else. -/
def Obligations.FrequencyFamilyFrame : Prop :=
  ∀ (i : Instr) (s : State),
    i = .ftReset ∨ (∃ o, i = .ftRecord o) ∨ (∃ o, i = .ftQuery o) ∨ (∃ o, i = .ftNext o) →
    ∃ t, exec i s = .next t ∧
      t = { s with freq := t.freq, stale := t.stale, rSym := t.rSym, rCount := t.rCount, hit := t.hit,
                   fault := t.fault, fcode := t.fcode, pending := none } ∧
      ∀ s' : State, s'.freq = s.freq → s'.cntW = s.cntW → s'.stale = s.stale → s'.rSym = s.rSym →
        s'.rCount = s.rCount → s'.hit = s.hit → ∃ t', exec i s' = .next t' ∧
          t'.freq = t.freq ∧ t'.stale = t.stale ∧ t'.rSym = t.rSym ∧ t'.rCount = t.rCount ∧ t'.hit = t.hit

/-- Every command but SESS_INIT and FT_RESET leaves each count or adds one to it (derived from 40_frequency_table.md, the
last rule: "Each command of the spec changes it by 0 or +1"); the widths of the counts are premised. -/
def Obligations.CountsGrowByAtMostOne : Prop :=
  ∀ (i : Instr) (s t : State) (b : Byte), WidthsOk s → exec i s = .next t → i ≠ .ftReset → (∀ o, i ≠ .sessInit o) →
    (countAt t.freq b).toNat = (countAt s.freq b).toNat ∨ (countAt t.freq b).toNat = (countAt s.freq b).toNat + 1

/-! ## The heap -/

/-- R124: HEAP_CLEAR. -/
def Obligations.HeapClearRule : Prop :=
  encode .heapClear = 0x06000000 ∧
  (∀ (w : Word) (s : State), w.extractLsb' 24 8 = 0x06 → w.extractLsb' 0 24 ≠ 0 →
    executeWord w s = .next (raise .illegalCmd s)) ∧
  ∀ s : State, exec .heapClear s = .next { s with heap := [], pending := none }

/-- HEAP_INSERT adds the node with its current weight, keeps the other entries and the heap property, and places it by
R121's loop, so that an entry no lighter than its parent stays at the end (derived from 41_heap.md, sections 1 and 2, with the heap invariant the spec
marks as derived there). -/
def Obligations.HeapInsertAddsTheWeightedNode : Prop :=
  ∀ (o : Opnd) (s : State), o.toNat < 258 + s.nint → s.hsize ≠ 258 →
    ∃ (t : State) (w : Weight), exec (.heapInsert o) s = .next t ∧
      t = { s with heap := t.heap, pending := none } ∧
      (o.toNat ≤ 255 → w = (countAt s.freq (o.setWidth 8)).setWidth 64) ∧
      (o.toNat = 256 ∨ o.toNat = 257 → w = 0) ∧
      (∀ k slot, o.toNat = 258 + k → s.arena[k]? = some slot → w = slot.wint) ∧
      SiftsUp (s.heap ++ [⟨o, w⟩]) s.hsize t.heap ∧
      t.heap.Perm (⟨o, w⟩ :: s.heap) ∧
      (HeapOrdered s.heap → HeapOrdered t.heap) ∧
      (∀ parent, s.hsize ≠ 0 → s.heap[(s.hsize - 1) / 2]? = some parent → parent.wgt.toNat ≤ w.toNat →
        t.heap = s.heap ++ [⟨o, w⟩])

/-- HEAP_EXTRACT removes the root entry and reports it, and sifts the last entry down from the root by R122's loop; in an
ordered heap it is an entry of least weight and the heap stays
ordered (derived from 41_heap.md, sections 1 and 2, with the heap invariant the spec marks as derived there). -/
def Obligations.HeapExtractRemovesAMinimum : Prop :=
  ∀ (s : State) (top : HeapEntry) (others : List HeapEntry), s.heap = top :: others →
    ∃ t, exec .heapExtract s = .next t ∧
      t = { s with heap := t.heap, rNode := top.node, rWeight := top.wgt, pending := none } ∧
      (∀ mid last, others = mid ++ [last] → SiftsDown (last :: mid) 0 t.heap) ∧
      others.Perm t.heap ∧
      (HeapOrdered s.heap → HeapOrdered t.heap ∧ ∀ e ∈ s.heap, top.wgt.toNat ≤ e.wgt.toNat)

/-- R121 and R122: HeapInsert and HeapExtract follow the spec's loops to their end, ties included (SiftsUp and SiftsDown
state the loops round by round; no bound of the model's cuts one short, log 13). -/
def Obligations.HeapFunctionsFollowTheLoops : Prop :=
  (∀ (h : List HeapEntry) (e : HeapEntry), SiftsUp (h ++ [e]) h.length (heapInsert h e)) ∧
  (∀ top : HeapEntry, heapExtract [top] = some (top, [])) ∧
  (∀ (top last : HeapEntry) (mid : List HeapEntry), ∃ h,
    heapExtract (top :: (mid ++ [last])) = some (top, h) ∧ SiftsDown (last :: mid) 0 h)

/-- R128: the heap commands complete in every state and write only HEAP, HSIZE, R_NODE and R_WEIGHT beside the completion and
fault bits; of FREQ and the arena they read only the weights, and NINT for the operand's range. -/
def Obligations.HeapFamilyFrame : Prop :=
  ∀ (i : Instr) (s : State), i = .heapClear ∨ (∃ o, i = .heapInsert o) ∨ i = .heapExtract →
    ∃ t, exec i s = .next t ∧
      t = { s with heap := t.heap, rNode := t.rNode, rWeight := t.rWeight, fault := t.fault, fcode := t.fcode,
                   pending := none } ∧
      ∀ s' : State, s'.heap = s.heap → s'.nint = s.nint → s'.rNode = s.rNode → s'.rWeight = s.rWeight →
        (∀ n, weightOf s'.freq s'.arena n = weightOf s.freq s.arena n) →
        ∃ t', exec i s' = .next t' ∧ t'.heap = t.heap ∧ t'.rNode = t.rNode ∧ t'.rWeight = t.rWeight

/-! ## The tree builder -/

/-- After a BUILD the heap holds one entry, the root with the total weight; ROOT is the node of the last merge; NINT is
1 + m; the tree is valid and not stale; nothing else changed (derived from 42_tree_builder.md: the state after a build and the
exactness of the weights are inferences the spec marks as its own). -/
def Obligations.BuildLeavesOneRoot : Prop :=
  encode .build = 0x09000000 ∧
  ∀ s : State, ∃ t w, exec .build s = .next t ∧
    t = { s with heap := t.heap, arena := t.arena, root := t.root, treeValid := true, stale := false, pending := none } ∧
    t.heap = [⟨t.root, w⟩] ∧ w.toNat = totalCount s.freq ∧
    t.root.toNat = 258 + t.nint - 1 ∧ t.nint = 1 + observedBytes s.freq

/-- BUILD inserts the leaves in R141's order into an empty heap and then merges, each time the two entries HeapExtract gives,
the first as the left child, the new node going back by HeapInsert, until one entry is left; so every slot's children stand
below it, the lighter left, and its weight is the sum of theirs, without wrapping (derived from 42_tree_builder.md, BUILD, the
insertion order, the merge rule and the weight bound). -/
def Obligations.BuildMergesAddWeights : Prop :=
  ∀ s t : State, exec .build s = .next t →
    (∃ leafHeap, InsertsAll [] (leavesInOrder s.freq) leafHeap ∧ Merges leafHeap [] t.heap t.arena) ∧
    ∀ k slot, t.arena[k]? = some slot →
      slot.left.toNat < 258 + k ∧ slot.right.toNat < 258 + k ∧
      slot.wint.toNat = (weightOf t.freq t.arena slot.left).toNat + (weightOf t.freq t.arena slot.right).toNat ∧
      (weightOf t.freq t.arena slot.left).toNat ≤ (weightOf t.freq t.arena slot.right).toNat

/-- After a BUILD the leaves of the tree are exactly NOT_SEEN, END_OF_STREAM and the bytes with a non-zero count (derived
from 42_tree_builder.md, the insertion order and the state after a build). -/
def Obligations.BuildLeavesAreTheObservedSymbols : Prop :=
  ∀ s t : State, exec .build s = .next t →
    ∀ n : NodeIx, n.toNat ≤ 257 →
      (InTree t n ↔ (n.toNat ≤ 255 ∧ countAt s.freq (n.setWidth 8) ≠ 0) ∨ n.toNat = 256 ∨ n.toNat = 257)

/-- After a BUILD each node of the tree is reached by exactly one path from ROOT, and a path reaches no other node (derived from 10_state.md section 4: "Each node of a
tree BUILD made is reached by exactly one path from ROOT"). -/
def Obligations.BuildPathsAreUnique : Prop :=
  ∀ (s t : State) (n : NodeIx), exec .build s = .next t →
    (InTree t n → ∃ p, follow t.arena t.root p = some n) ∧
    (∀ p, follow t.arena t.root p = some n → InTree t n) ∧
    ∀ p q, follow t.arena t.root p = some n → follow t.arena t.root q = some n → p = q

/-- BUILD's result depends on FREQ alone (derived from 42_tree_builder.md, determinism). -/
def Obligations.BuildDependsOnTheTableAlone : Prop :=
  ∀ s₁ s₂ t₁ t₂ : State, s₁.freq = s₂.freq → exec .build s₁ = .next t₁ → exec .build s₂ = .next t₂ →
    t₁.heap = t₂.heap ∧ t₁.arena = t₂.arena ∧ t₁.root = t₂.root

/-- The empty table's tree has the two sentinels, NOT_SEEN on the left (derived from 42_tree_builder.md, the empty table). -/
def Obligations.EmptyTableTree : Prop :=
  ∀ s : State, (∀ b, countAt s.freq b = 0) → ∃ t, exec .build s = .next t ∧
    t.arena = [⟨256, 257, 0⟩] ∧ t.root = 258 ∧ t.heap = [⟨258, 0⟩]

/-! ## The translator -/

/-- R162: ENCODE, in every state whose tree is as the builder leaves it (TreeOk, an invariant stated below). The codeword is
a path from ROOT to the symbol's leaf, or to NOT_SEEN's when the symbol is not in the tree. -/
def Obligations.EncodeRule : Prop :=
  (∀ o : Opnd, encode (.encode o) = 0x0A000000 ||| o.setWidth 32) ∧
  (∀ (w : Word) (s : State), w.extractLsb' 24 8 = 0x0A → w.extractLsb' 10 14 ≠ 0 →
    executeWord w s = .next (raise .illegalCmd s)) ∧
  ∀ (o : Opnd) (s : State),
    (¬ (o.toNat ≤ 255 ∨ o.toNat = 257) → exec (.encode o) s = .next (raise .operandRange s)) ∧
    (o.toNat ≤ 255 ∨ o.toNat = 257 → s.treeValid = false → exec (.encode o) s = .next (raise .noTree s)) ∧
    (o.toNat ≤ 255 ∨ o.toNat = 257 → s.treeValid = true → TreeOk s →
      ∃ (t : State) (p : BitString), exec (.encode o) s = .next t ∧
        t = { s with cw := t.cw, cwLen := t.cwLen, found := t.found, pending := none } ∧
        (t.found = true ↔ InTree s o) ∧
        follow s.arena s.root p = some (if t.found then o else 256) ∧
        t.cwLen.toNat = p.length ∧ (∀ i, i < 258 → t.cw.getLsbD i = p.getD i false))

/-- A codeword has at least one bit and at most NINT, so at most 257 (derived from 43_translator.md section 1). -/
def Obligations.CodewordLengthBound : Prop :=
  ∀ (o : Opnd) (s t : State), s.treeValid = true → TreeOk s → o.toNat ≤ 255 ∨ o.toNat = 257 →
    exec (.encode o) s = .next t → 1 ≤ t.cwLen.toNat ∧ t.cwLen.toNat ≤ s.nint ∧ s.nint ≤ 257

/-- DECODE. Where the walk ends it writes DSTAT and R_SYM and takes exactly the walk's tokens; where it needs a token not yet
delivered, nothing changes (log 15) (derived from 43_translator.md section 3, DecodeWalk and DECODE, and
70_reset_and_hazards.md section 3, R239). -/
def Obligations.DecodeRule : Prop :=
  encode .decode = 0x0B000000 ∧
  (∀ (w : Word) (s : State), w.extractLsb' 24 8 = 0x0B → w.extractLsb' 0 24 ≠ 0 →
    executeWord w s = .next (raise .illegalCmd s)) ∧
  ∀ s : State,
    (s.treeValid = false → exec .decode s = .next (raise .noTree s)) ∧
    (∀ (st : DStat) (v : Sym) (rest : List Token), s.treeValid = true →
      WalkEnds s.arena s.root s.bitSource st v rest →
      exec .decode s = .next { s with dstat := st, rSym := v, bitSource := rest, pending := none }) ∧
    (s.treeValid = true → WalkStarves s.arena s.root s.bitSource → exec .decode s = .next s)

/-- On a tree the builder left, DECODE ends as a walk of the delivered tokens ends, or it is short of tokens and nothing
changes (derived from 43_translator.md section 3 and 70_reset_and_hazards.md section 3; that a wait shows nothing is log 15). -/
def Obligations.DecodeEndsOrWaits : Prop :=
  ∀ s : State, s.treeValid = true → TreeOk s → ∃ t, exec .decode s = .next t ∧
    ((∃ st v rest, WalkEnds s.arena s.root s.bitSource st v rest ∧
        t = { s with dstat := st, rSym := v, bitSource := rest, pending := none }) ∨
      (WalkStarves s.arena s.root s.bitSource ∧ t = s))

/-- A waiting block with nothing scheduled stays as it is, BUSY = 1, for ever (derived from 70_reset_and_hazards.md section 3:
"If the source never delivers a needed token, the block waits forever"; log 15). -/
def Obligations.StarvedDecodeWaits : Prop :=
  ∀ s : State, s.schedule = [] → s.pending = some 0x0B000000 → s.treeValid = true →
    WalkStarves s.arena s.root s.bitSource →
    step s = .next s ∧ s.busy = true ∧ Stuck s

/-- What ENCODE puts in the codeword register, followed by the literal where FOUND = 0, decodes to the symbol again on the
same tree, and DECODE takes exactly those bits (derived from 43_translator.md section 3: "Encode and decode are inverse on one
tree"). -/
def Obligations.DecodeInvertsEncode : Prop :=
  ∀ (o : Opnd) (s t : State) (rest : List Token), s.treeValid = true → TreeOk s → o.toNat ≤ 255 ∨ o.toNat = 257 →
    exec (.encode o) s = .next t →
    ∃ u, exec .decode { t with
        bitSource := tokensOf (heldCodeword t ++ if t.found then [] else bin8 (o.setWidth 8)) ++ rest } = .next u ∧
      u.rSym = o.setWidth 9 ∧ u.bitSource = rest ∧
      u.dstat = (if t.found then (if o = 257 then .eos else .leaf) else .literal)

/-- R169: ENCODE and DECODE leave FREQ, the heap, the arena, ROOT, TREE_VALID, STALE and SESSION, and do the same in every
session state. -/
def Obligations.TranslatorFamilyFrame : Prop :=
  ∀ (i : Instr) (s t : State), (∃ o, i = .encode o) ∨ i = .decode → exec i s = .next t →
    t.freq = s.freq ∧ t.heap = s.heap ∧ t.arena = s.arena ∧ t.root = s.root ∧ t.treeValid = s.treeValid ∧
    t.stale = s.stale ∧ t.session = s.session ∧
    ∀ x : Session, exec i { s with session := x } = .next { t with session := x }

/-! ## The session sequencer -/

/-- R191: NOP completes and does nothing. -/
def Obligations.NopRule : Prop :=
  encode .nop = 0x00000000 ∧
  (∀ (w : Word) (s : State), w.extractLsb' 24 8 = 0x00 → w.extractLsb' 0 24 ≠ 0 →
    executeWord w s = .next (raise .illegalCmd s)) ∧
  (∀ s : State, exec .nop s = .next { s with pending := none }) ∧
  (∀ s : State, s.fault = true → perform (.memWrite 4 0 (encode .nop)) s = .next s)

/-- R192: SESS_INIT. -/
def Obligations.SessInitRule : Prop :=
  (∀ o : Opnd, encode (.sessInit o) = 0x01000000 ||| o.setWidth 32) ∧
  (∀ (w : Word) (s : State), w.extractLsb' 24 8 = 0x01 → w.extractLsb' 10 14 ≠ 0 →
    executeWord w s = .next (raise .illegalCmd s)) ∧
  ∀ (o : Opnd) (s : State),
    (1 < o.toNat → exec (.sessInit o) s = .next (raise .operandRange s)) ∧
    (o.toNat ≤ 1 → ∃ t, exec (.sessInit o) s = .next t ∧ (∀ b, countAt t.freq b = 0) ∧
      t = { s with freq := t.freq, heap := [], arena := [], root := 0, treeValid := false, stale := false, dstat := .none,
                   session := if o = 0 then .encoding else .decoding, pending := none })

/-- R193: ENC_STEP. Its tree is the one BUILD leaves from the same table (the state b); it completes in every state. -/
def Obligations.EncStepRule : Prop :=
  (∀ o : Opnd, encode (.encStep o) = 0x0C000000 ||| o.setWidth 32) ∧
  (∀ (w : Word) (s : State), w.extractLsb' 24 8 = 0x0C → w.extractLsb' 10 14 ≠ 0 →
    executeWord w s = .next (raise .illegalCmd s)) ∧
  ∀ (o : Opnd) (s : State),
    (¬ (o.toNat ≤ 255 ∨ o.toNat = 257) → exec (.encStep o) s = .next (raise .operandRange s)) ∧
    (o.toNat ≤ 255 ∨ o.toNat = 257 → s.session ≠ .encoding → exec (.encStep o) s = .next (raise .sessionMode s)) ∧
    (o.toNat ≤ 255 → s.session = .encoding → (countAt s.freq (o.setWidth 8)).toNat = 2 ^ s.cntW.val - 1 →
      exec (.encStep o) s = .next (raise .cntOverflow s)) ∧
    (s.session = .encoding →
      (o.toNat ≤ 255 ∧ (countAt s.freq (o.setWidth 8)).toNat ≠ 2 ^ s.cntW.val - 1) ∨ o.toNat = 257 →
      ∃ (b t : State) (p : BitString), exec .build s = .next b ∧ exec (.encStep o) s = .next t ∧
        (t.found = true ↔ InTree b o) ∧
        follow b.arena b.root p = some (if t.found then o else 256) ∧
        t.cwLen.toNat = p.length ∧ (∀ i, i < 258 → t.cw.getLsbD i = p.getD i false) ∧
        t.bitSink = s.bitSink ++ p ++ (if t.found then [] else bin8 (o.setWidth 8)) ∧
        (o.toNat = 257 → t = { b with cw := t.cw, cwLen := t.cwLen, found := t.found, bitSink := t.bitSink,
                                      session := .done }) ∧
        (o.toNat ≤ 255 →
          countAt t.freq (o.setWidth 8) = countAt s.freq (o.setWidth 8) + 1 ∧
          (∀ c : Byte, c ≠ o.setWidth 8 → countAt t.freq c = countAt s.freq c) ∧
          t = { b with cw := t.cw, cwLen := t.cwLen, found := t.found, bitSink := t.bitSink, freq := t.freq,
                       stale := true }))

/-- The first occurrence of a byte sends NOT_SEEN's codeword and the literal, every later one its own codeword alone (derived
from 44_session.md, the agreement of encoder and decoder). -/
def Obligations.FirstOccurrenceSendsALiteral : Prop :=
  ∀ (o : Opnd) (s t : State), o.toNat ≤ 255 → s.session = .encoding →
    (countAt s.freq (o.setWidth 8)).toNat ≠ 2 ^ s.cntW.val - 1 → exec (.encStep o) s = .next t →
    (t.found = false ↔ countAt s.freq (o.setWidth 8) = 0) ∧
    follow t.arena t.root (heldCodeword t) = some (if t.found then o else 256) ∧
    (t.found = false → ∃ p, t.bitSink = s.bitSink ++ p ++ bin8 (o.setWidth 8) ∧ p = heldCodeword t) ∧
    (t.found = true → t.bitSink = s.bitSink ++ heldCodeword t)

/-- DEC_STEP, with the state b a BUILD leaves from the same table. A byte whose count is full raises CNT_OVERFLOW after the
build, the tokens, DSTAT and R_SYM, all of which are kept, and outputs nothing (log 19); while a token is missing nothing
changes, the build included (log 15) (derived from 44_session.md, DEC_STEP, and 60_exceptions.md section 1, the one imprecise
fault). -/
def Obligations.DecStepRule : Prop :=
  encode .decStep = 0x0D000000 ∧
  (∀ (w : Word) (s : State), w.extractLsb' 24 8 = 0x0D → w.extractLsb' 0 24 ≠ 0 →
    executeWord w s = .next (raise .illegalCmd s)) ∧
  ∀ s : State,
    (s.session ≠ .decoding → exec .decStep s = .next (raise .sessionMode s)) ∧
    (s.session = .decoding → ∃ b, exec .build s = .next b ∧
      (WalkStarves b.arena b.root s.bitSource → exec .decStep s = .next s) ∧
      (∀ st v rest, WalkEnds b.arena b.root s.bitSource st v rest → st = .eos ∨ st = .trunc →
        exec .decStep s = .next { b with dstat := st, rSym := v, bitSource := rest, session := .done }) ∧
      (∀ st v rest, WalkEnds b.arena b.root s.bitSource st v rest → st = .leaf ∨ st = .literal →
        (countAt s.freq (v.setWidth 8)).toNat = 2 ^ s.cntW.val - 1 →
        exec .decStep s = .next (raise .cntOverflow { b with dstat := st, rSym := v, bitSource := rest })) ∧
      (∀ st v rest, WalkEnds b.arena b.root s.bitSource st v rest → st = .leaf ∨ st = .literal →
        (countAt s.freq (v.setWidth 8)).toNat ≠ 2 ^ s.cntW.val - 1 →
        ∃ t, exec .decStep s = .next t ∧
          countAt t.freq (v.setWidth 8) = countAt s.freq (v.setWidth 8) + 1 ∧
          (∀ c : Byte, c ≠ v.setWidth 8 → countAt t.freq c = countAt s.freq c) ∧
          t = { b with dstat := st, rSym := v, bitSource := rest, byteSink := s.byteSink ++ [v.setWidth 8],
                       freq := t.freq, stale := true }))

/-- R190: the session state machine: how each command and the reset move SESSION, that a step in the wrong state raises
SESSION_MODE, and that no other command reads or writes SESSION. -/
def Obligations.SessionStateMachine : Prop :=
  (∀ s t : State, perform .reset s = .next t → t.session = .idle) ∧
  (∀ s : State, ∃ t, exec (.sessInit 0) s = .next t ∧ t.session = .encoding) ∧
  (∀ s : State, ∃ t, exec (.sessInit 1) s = .next t ∧ t.session = .decoding) ∧
  (∀ (o : Opnd) (s t : State), s.session = .encoding → exec (.encStep o) s = .next t → o ≠ 257 → t.session = .encoding) ∧
  (∀ s t : State, s.session = .encoding → exec (.encStep 257) s = .next t → t.session = .done) ∧
  (∀ s t : State, s.session = .decoding → s.busy = true → exec .decStep s = .next t → t.busy = false →
    t.session = if t.dstat = .eos ∨ t.dstat = .trunc then .done else .decoding) ∧
  (∀ (o : Opnd) (s : State), o.toNat ≤ 255 ∨ o.toNat = 257 → s.session ≠ .encoding →
    exec (.encStep o) s = .next (raise .sessionMode s)) ∧
  (∀ s : State, s.session ≠ .decoding → exec .decStep s = .next (raise .sessionMode s)) ∧
  (∀ (i : Instr) (s t : State) (x : Session), (∀ o, i ≠ .sessInit o) → (∀ o, i ≠ .encStep o) → i ≠ .decStep →
    exec i s = .next t → t.session = s.session ∧ exec i { s with session := x } = .next { t with session := x })

/-- No command reads STALE: with another STALE at the start, everything but STALE ends the same (derived from 10_state.md
section 4: "STALE is informational. No command reads it"). -/
def Obligations.StaleIsNeverRead : Prop :=
  ∀ (i : Instr) (s t : State) (x : Bool), exec i s = .next t →
    ∃ y, exec i { s with stale := x } = .next { t with stale := y }

/-- The decoder reproduces the encoder's byte string from the encoder's bits and takes exactly those bits, for every byte
string an encoder's session takes without a fault (derived from 44_session.md: "Encoder and decoder agree"). -/
def Obligations.DecoderReproducesTheEncodersBytes : Prop :=
  ∀ (bytes : List Byte) (e e' d : State) (rest : List Token),
    runCommands (encoderSession bytes) e = some e' → e'.fault = false →
    d.cntW = e.cntW → d.fault = false →
    d.bitSource = tokensOf (e'.bitSink.drop e.bitSink.length) ++ rest →
    ∃ d', runCommands (decoderSession bytes.length) d = some d' ∧
      d'.byteSink = d.byteSink ++ bytes ∧ d'.dstat = .eos ∧ d'.rSym = 257 ∧ d'.session = .done ∧ d'.bitSource = rest ∧
      d'.fault = false

/-! ## Runs from reset -/

/-- A run from reset ends in at most one of the five ways, with one result; a good end is idle, unfaulted and DONE; and once
the run has run out (nothing is scheduled and the step changes nothing) it has ended in one of them, unless the host left no
finished session: SESSION is not DONE, or a DEC_STEP made it DONE and a DECODE after that overwrote DSTAT. A command issued after a run has ended, any but
SESS_INIT and DECODE, that leaves FAULT = 0 leaves the run's end and its result as they are (derived from
70_reset_and_hazards.md section 5; log 20). -/
def Obligations.RunsEndInOneWay : Prop :=
  (∀ (s₀ : State) (n : Nat) (t : State), RunFromReset s₀ n t →
    (∀ x y : RunEnd, EndsAs s₀ n t x → EndsAs s₀ n t y → x = y) ∧
    (∀ x : RunEnd, x.good = true → EndsAs s₀ n t x → DoneAtRest t) ∧
    (t.schedule = [] → step t = .next t →
      (∃ x, EndsAs s₀ n t x) ∨
      (t.busy = false ∧ t.fault = false ∧
        (t.session ≠ .done ∨
          (DoneBy .decStep s₀ n ∧ t.dstat ∉ [DStat.eos, .trunc] ∧
            ∃ k u, k < n ∧ afterSteps k s₀ = some u ∧ u.session = .done ∧ Executes u .decode))))) ∧
  (∀ (s₀ : State) (n : Nat) (u t : State) (i : Instr) (x : RunEnd),
    RunFromReset s₀ n u → u.schedule = [.memWrite 4 0 (encode i)] → EndsAs s₀ n u x →
    (∀ o, i ≠ .sessInit o) → i ≠ .decode → afterSteps 2 u = some t → t.fault = false →
    RunFromReset s₀ (n + 2) t ∧ EndsAs s₀ (n + 2) t x)

/-! ## Invariants -/

/-- The invariants hold after reset. -/
def Obligations.ResetMeetsTheInvariants : Prop :=
  SizesOk State.reset ∧ HeapOrdered State.reset.heap ∧ TreeOk State.reset ∧ WidthsOk State.reset ∧
  CodewordOk State.reset ∧ FaultOk State.reset

/-- Every step keeps HSIZE within 258 and NINT within 257, and every count and weight within its width (derived from
10_state.md section 11 and 42_tree_builder.md, the bounds and the weights). -/
def Obligations.StepKeepsSizesAndWidths : Prop :=
  ∀ s t : State, SizesOk s → WidthsOk s → step s = .next t → SizesOk t ∧ WidthsOk t

/-- Every step keeps the heap property (derived from 41_heap.md section 2, the heap invariant). -/
def Obligations.StepKeepsHeapOrdered : Prop :=
  ∀ s t : State, HeapOrdered s.heap → step s = .next t → HeapOrdered t.heap

/-- Every step keeps the shape of the tree: rooted in the last slot, children below their parent, both sentinels in it
(derived from 10_state.md section 11). -/
def Obligations.StepKeepsTreeShape : Prop :=
  ∀ s t : State, TreeOk s → step s = .next t → TreeOk t

/-- Every step keeps the codeword register zero from CW_LEN up and CW_LEN within 257 (derived from 10_state.md section 6 and
43_translator.md section 1). -/
def Obligations.StepKeepsCodewordRegister : Prop :=
  ∀ s t : State, SizesOk s → CodewordOk s → step s = .next t → CodewordOk t

/-- Every step keeps FCODE = NONE exactly while FAULT = 0 (derived from 10_state.md section 7 and 60_exceptions.md section 1). -/
def Obligations.StepKeepsFaultCode : Prop :=
  ∀ s t : State, FaultOk s → step s = .next t → FaultOk t

/-- With a tree as the builder leaves it no step of the machine ends in a fault of the model (the fault brokenTree is the
model's own, log 10; derived from 43_translator.md sections 1 and 3). -/
def Obligations.NoModelFaultFromAGoodTree : Prop :=
  ∀ (s : State) (f : Fault), TreeOk s → step s ≠ .fault f
end

