-- ==== Sys2Proof/Laws/State.lean ====
section
/-! SUPPORT. One lemma for each field of each named update of the state, so that no later proof unfolds a record update. -/

namespace Sys2Proof.Machine

/-! ## complete -/

@[simp] theorem complete_cntW (s : State) : (complete s).cntW = s.cntW := rfl
@[simp] theorem complete_freq (s : State) : (complete s).freq = s.freq := rfl
@[simp] theorem complete_heap (s : State) : (complete s).heap = s.heap := rfl
@[simp] theorem complete_arena (s : State) : (complete s).arena = s.arena := rfl
@[simp] theorem complete_root (s : State) : (complete s).root = s.root := rfl
@[simp] theorem complete_treeValid (s : State) : (complete s).treeValid = s.treeValid := rfl
@[simp] theorem complete_stale (s : State) : (complete s).stale = s.stale := rfl
@[simp] theorem complete_session (s : State) : (complete s).session = s.session := rfl
@[simp] theorem complete_rSym (s : State) : (complete s).rSym = s.rSym := rfl
@[simp] theorem complete_rCount (s : State) : (complete s).rCount = s.rCount := rfl
@[simp] theorem complete_hit (s : State) : (complete s).hit = s.hit := rfl
@[simp] theorem complete_rNode (s : State) : (complete s).rNode = s.rNode := rfl
@[simp] theorem complete_rWeight (s : State) : (complete s).rWeight = s.rWeight := rfl
@[simp] theorem complete_cw (s : State) : (complete s).cw = s.cw := rfl
@[simp] theorem complete_cwLen (s : State) : (complete s).cwLen = s.cwLen := rfl
@[simp] theorem complete_found (s : State) : (complete s).found = s.found := rfl
@[simp] theorem complete_dstat (s : State) : (complete s).dstat = s.dstat := rfl
@[simp] theorem complete_fault (s : State) : (complete s).fault = s.fault := rfl
@[simp] theorem complete_fcode (s : State) : (complete s).fcode = s.fcode := rfl
@[simp] theorem complete_pending (s : State) : (complete s).pending = none := rfl
@[simp] theorem complete_bitSource (s : State) : (complete s).bitSource = s.bitSource := rfl
@[simp] theorem complete_bitSink (s : State) : (complete s).bitSink = s.bitSink := rfl
@[simp] theorem complete_byteSink (s : State) : (complete s).byteSink = s.byteSink := rfl
@[simp] theorem complete_schedule (s : State) : (complete s).schedule = s.schedule := rfl
@[simp] theorem complete_hostReads (s : State) : (complete s).hostReads = s.hostReads := rfl
@[simp] theorem complete_draws (s : State) : (complete s).draws = s.draws := rfl
@[simp] theorem complete_hsize (s : State) : (complete s).hsize = s.hsize := rfl
@[simp] theorem complete_nint (s : State) : (complete s).nint = s.nint := rfl
@[simp] theorem complete_busy (s : State) : (complete s).busy = false := rfl

/-! ## recordFault -/

@[simp] theorem recordFault_cntW (c : FaultCode) (s : State) : (recordFault c s).cntW = s.cntW := rfl
@[simp] theorem recordFault_freq (c : FaultCode) (s : State) : (recordFault c s).freq = s.freq := rfl
@[simp] theorem recordFault_heap (c : FaultCode) (s : State) : (recordFault c s).heap = s.heap := rfl
@[simp] theorem recordFault_arena (c : FaultCode) (s : State) : (recordFault c s).arena = s.arena := rfl
@[simp] theorem recordFault_root (c : FaultCode) (s : State) : (recordFault c s).root = s.root := rfl
@[simp] theorem recordFault_treeValid (c : FaultCode) (s : State) : (recordFault c s).treeValid = s.treeValid := rfl
@[simp] theorem recordFault_stale (c : FaultCode) (s : State) : (recordFault c s).stale = s.stale := rfl
@[simp] theorem recordFault_session (c : FaultCode) (s : State) : (recordFault c s).session = s.session := rfl
@[simp] theorem recordFault_rSym (c : FaultCode) (s : State) : (recordFault c s).rSym = s.rSym := rfl
@[simp] theorem recordFault_rCount (c : FaultCode) (s : State) : (recordFault c s).rCount = s.rCount := rfl
@[simp] theorem recordFault_hit (c : FaultCode) (s : State) : (recordFault c s).hit = s.hit := rfl
@[simp] theorem recordFault_rNode (c : FaultCode) (s : State) : (recordFault c s).rNode = s.rNode := rfl
@[simp] theorem recordFault_rWeight (c : FaultCode) (s : State) : (recordFault c s).rWeight = s.rWeight := rfl
@[simp] theorem recordFault_cw (c : FaultCode) (s : State) : (recordFault c s).cw = s.cw := rfl
@[simp] theorem recordFault_cwLen (c : FaultCode) (s : State) : (recordFault c s).cwLen = s.cwLen := rfl
@[simp] theorem recordFault_found (c : FaultCode) (s : State) : (recordFault c s).found = s.found := rfl
@[simp] theorem recordFault_dstat (c : FaultCode) (s : State) : (recordFault c s).dstat = s.dstat := rfl
@[simp] theorem recordFault_fault (c : FaultCode) (s : State) : (recordFault c s).fault = true := rfl
@[simp] theorem recordFault_fcode (c : FaultCode) (s : State) : (recordFault c s).fcode = if s.fault then s.fcode else c := rfl
@[simp] theorem recordFault_pending (c : FaultCode) (s : State) : (recordFault c s).pending = s.pending := rfl
@[simp] theorem recordFault_bitSource (c : FaultCode) (s : State) : (recordFault c s).bitSource = s.bitSource := rfl
@[simp] theorem recordFault_bitSink (c : FaultCode) (s : State) : (recordFault c s).bitSink = s.bitSink := rfl
@[simp] theorem recordFault_byteSink (c : FaultCode) (s : State) : (recordFault c s).byteSink = s.byteSink := rfl
@[simp] theorem recordFault_schedule (c : FaultCode) (s : State) : (recordFault c s).schedule = s.schedule := rfl
@[simp] theorem recordFault_hostReads (c : FaultCode) (s : State) : (recordFault c s).hostReads = s.hostReads := rfl
@[simp] theorem recordFault_draws (c : FaultCode) (s : State) : (recordFault c s).draws = s.draws := rfl
@[simp] theorem recordFault_hsize (c : FaultCode) (s : State) : (recordFault c s).hsize = s.hsize := rfl
@[simp] theorem recordFault_nint (c : FaultCode) (s : State) : (recordFault c s).nint = s.nint := rfl
@[simp] theorem recordFault_busy (c : FaultCode) (s : State) : (recordFault c s).busy = s.busy := rfl

/-! ## raise -/

@[simp] theorem raise_cntW (c : FaultCode) (s : State) : (raise c s).cntW = s.cntW := rfl
@[simp] theorem raise_freq (c : FaultCode) (s : State) : (raise c s).freq = s.freq := rfl
@[simp] theorem raise_heap (c : FaultCode) (s : State) : (raise c s).heap = s.heap := rfl
@[simp] theorem raise_arena (c : FaultCode) (s : State) : (raise c s).arena = s.arena := rfl
@[simp] theorem raise_root (c : FaultCode) (s : State) : (raise c s).root = s.root := rfl
@[simp] theorem raise_treeValid (c : FaultCode) (s : State) : (raise c s).treeValid = s.treeValid := rfl
@[simp] theorem raise_stale (c : FaultCode) (s : State) : (raise c s).stale = s.stale := rfl
@[simp] theorem raise_session (c : FaultCode) (s : State) : (raise c s).session = s.session := rfl
@[simp] theorem raise_rSym (c : FaultCode) (s : State) : (raise c s).rSym = s.rSym := rfl
@[simp] theorem raise_rCount (c : FaultCode) (s : State) : (raise c s).rCount = s.rCount := rfl
@[simp] theorem raise_hit (c : FaultCode) (s : State) : (raise c s).hit = s.hit := rfl
@[simp] theorem raise_rNode (c : FaultCode) (s : State) : (raise c s).rNode = s.rNode := rfl
@[simp] theorem raise_rWeight (c : FaultCode) (s : State) : (raise c s).rWeight = s.rWeight := rfl
@[simp] theorem raise_cw (c : FaultCode) (s : State) : (raise c s).cw = s.cw := rfl
@[simp] theorem raise_cwLen (c : FaultCode) (s : State) : (raise c s).cwLen = s.cwLen := rfl
@[simp] theorem raise_found (c : FaultCode) (s : State) : (raise c s).found = s.found := rfl
@[simp] theorem raise_dstat (c : FaultCode) (s : State) : (raise c s).dstat = s.dstat := rfl
@[simp] theorem raise_fault (c : FaultCode) (s : State) : (raise c s).fault = true := rfl
@[simp] theorem raise_fcode (c : FaultCode) (s : State) : (raise c s).fcode = if s.fault then s.fcode else c := rfl
@[simp] theorem raise_pending (c : FaultCode) (s : State) : (raise c s).pending = none := rfl
@[simp] theorem raise_bitSource (c : FaultCode) (s : State) : (raise c s).bitSource = s.bitSource := rfl
@[simp] theorem raise_bitSink (c : FaultCode) (s : State) : (raise c s).bitSink = s.bitSink := rfl
@[simp] theorem raise_byteSink (c : FaultCode) (s : State) : (raise c s).byteSink = s.byteSink := rfl
@[simp] theorem raise_schedule (c : FaultCode) (s : State) : (raise c s).schedule = s.schedule := rfl
@[simp] theorem raise_hostReads (c : FaultCode) (s : State) : (raise c s).hostReads = s.hostReads := rfl
@[simp] theorem raise_draws (c : FaultCode) (s : State) : (raise c s).draws = s.draws := rfl
@[simp] theorem raise_hsize (c : FaultCode) (s : State) : (raise c s).hsize = s.hsize := rfl
@[simp] theorem raise_nint (c : FaultCode) (s : State) : (raise c s).nint = s.nint := rfl
@[simp] theorem raise_busy (c : FaultCode) (s : State) : (raise c s).busy = false := rfl

/-! ## recordByte -/

@[simp] theorem recordByte_cntW (b : Byte) (s : State) : (recordByte b s).cntW = s.cntW := rfl
@[simp] theorem recordByte_freq (b : Byte) (s : State) : (recordByte b s).freq = putCount s.freq b (countAt s.freq b + 1) := rfl
@[simp] theorem recordByte_heap (b : Byte) (s : State) : (recordByte b s).heap = s.heap := rfl
@[simp] theorem recordByte_arena (b : Byte) (s : State) : (recordByte b s).arena = s.arena := rfl
@[simp] theorem recordByte_root (b : Byte) (s : State) : (recordByte b s).root = s.root := rfl
@[simp] theorem recordByte_treeValid (b : Byte) (s : State) : (recordByte b s).treeValid = s.treeValid := rfl
@[simp] theorem recordByte_stale (b : Byte) (s : State) : (recordByte b s).stale = true := rfl
@[simp] theorem recordByte_session (b : Byte) (s : State) : (recordByte b s).session = s.session := rfl
@[simp] theorem recordByte_rSym (b : Byte) (s : State) : (recordByte b s).rSym = s.rSym := rfl
@[simp] theorem recordByte_rCount (b : Byte) (s : State) : (recordByte b s).rCount = s.rCount := rfl
@[simp] theorem recordByte_hit (b : Byte) (s : State) : (recordByte b s).hit = s.hit := rfl
@[simp] theorem recordByte_rNode (b : Byte) (s : State) : (recordByte b s).rNode = s.rNode := rfl
@[simp] theorem recordByte_rWeight (b : Byte) (s : State) : (recordByte b s).rWeight = s.rWeight := rfl
@[simp] theorem recordByte_cw (b : Byte) (s : State) : (recordByte b s).cw = s.cw := rfl
@[simp] theorem recordByte_cwLen (b : Byte) (s : State) : (recordByte b s).cwLen = s.cwLen := rfl
@[simp] theorem recordByte_found (b : Byte) (s : State) : (recordByte b s).found = s.found := rfl
@[simp] theorem recordByte_dstat (b : Byte) (s : State) : (recordByte b s).dstat = s.dstat := rfl
@[simp] theorem recordByte_fault (b : Byte) (s : State) : (recordByte b s).fault = s.fault := rfl
@[simp] theorem recordByte_fcode (b : Byte) (s : State) : (recordByte b s).fcode = s.fcode := rfl
@[simp] theorem recordByte_pending (b : Byte) (s : State) : (recordByte b s).pending = s.pending := rfl
@[simp] theorem recordByte_bitSource (b : Byte) (s : State) : (recordByte b s).bitSource = s.bitSource := rfl
@[simp] theorem recordByte_bitSink (b : Byte) (s : State) : (recordByte b s).bitSink = s.bitSink := rfl
@[simp] theorem recordByte_byteSink (b : Byte) (s : State) : (recordByte b s).byteSink = s.byteSink := rfl
@[simp] theorem recordByte_schedule (b : Byte) (s : State) : (recordByte b s).schedule = s.schedule := rfl
@[simp] theorem recordByte_hostReads (b : Byte) (s : State) : (recordByte b s).hostReads = s.hostReads := rfl
@[simp] theorem recordByte_draws (b : Byte) (s : State) : (recordByte b s).draws = s.draws := rfl
@[simp] theorem recordByte_hsize (b : Byte) (s : State) : (recordByte b s).hsize = s.hsize := rfl
@[simp] theorem recordByte_nint (b : Byte) (s : State) : (recordByte b s).nint = s.nint := rfl
@[simp] theorem recordByte_busy (b : Byte) (s : State) : (recordByte b s).busy = s.busy := rfl

/-! ## putCodeword -/

@[simp] theorem putCodeword_cntW (p : BitString) (x : Bool) (s : State) : (putCodeword p x s).cntW = s.cntW := rfl
@[simp] theorem putCodeword_freq (p : BitString) (x : Bool) (s : State) : (putCodeword p x s).freq = s.freq := rfl
@[simp] theorem putCodeword_heap (p : BitString) (x : Bool) (s : State) : (putCodeword p x s).heap = s.heap := rfl
@[simp] theorem putCodeword_arena (p : BitString) (x : Bool) (s : State) : (putCodeword p x s).arena = s.arena := rfl
@[simp] theorem putCodeword_root (p : BitString) (x : Bool) (s : State) : (putCodeword p x s).root = s.root := rfl
@[simp] theorem putCodeword_treeValid (p : BitString) (x : Bool) (s : State) : (putCodeword p x s).treeValid = s.treeValid := rfl
@[simp] theorem putCodeword_stale (p : BitString) (x : Bool) (s : State) : (putCodeword p x s).stale = s.stale := rfl
@[simp] theorem putCodeword_session (p : BitString) (x : Bool) (s : State) : (putCodeword p x s).session = s.session := rfl
@[simp] theorem putCodeword_rSym (p : BitString) (x : Bool) (s : State) : (putCodeword p x s).rSym = s.rSym := rfl
@[simp] theorem putCodeword_rCount (p : BitString) (x : Bool) (s : State) : (putCodeword p x s).rCount = s.rCount := rfl
@[simp] theorem putCodeword_hit (p : BitString) (x : Bool) (s : State) : (putCodeword p x s).hit = s.hit := rfl
@[simp] theorem putCodeword_rNode (p : BitString) (x : Bool) (s : State) : (putCodeword p x s).rNode = s.rNode := rfl
@[simp] theorem putCodeword_rWeight (p : BitString) (x : Bool) (s : State) : (putCodeword p x s).rWeight = s.rWeight := rfl
@[simp] theorem putCodeword_cw (p : BitString) (x : Bool) (s : State) : (putCodeword p x s).cw = BitVec.ofNat 258 (bitsValue p) := rfl
@[simp] theorem putCodeword_cwLen (p : BitString) (x : Bool) (s : State) : (putCodeword p x s).cwLen = BitVec.ofNat 9 p.length := rfl
@[simp] theorem putCodeword_found (p : BitString) (x : Bool) (s : State) : (putCodeword p x s).found = x := rfl
@[simp] theorem putCodeword_dstat (p : BitString) (x : Bool) (s : State) : (putCodeword p x s).dstat = s.dstat := rfl
@[simp] theorem putCodeword_fault (p : BitString) (x : Bool) (s : State) : (putCodeword p x s).fault = s.fault := rfl
@[simp] theorem putCodeword_fcode (p : BitString) (x : Bool) (s : State) : (putCodeword p x s).fcode = s.fcode := rfl
@[simp] theorem putCodeword_pending (p : BitString) (x : Bool) (s : State) : (putCodeword p x s).pending = s.pending := rfl
@[simp] theorem putCodeword_bitSource (p : BitString) (x : Bool) (s : State) : (putCodeword p x s).bitSource = s.bitSource := rfl
@[simp] theorem putCodeword_bitSink (p : BitString) (x : Bool) (s : State) : (putCodeword p x s).bitSink = s.bitSink := rfl
@[simp] theorem putCodeword_byteSink (p : BitString) (x : Bool) (s : State) : (putCodeword p x s).byteSink = s.byteSink := rfl
@[simp] theorem putCodeword_schedule (p : BitString) (x : Bool) (s : State) : (putCodeword p x s).schedule = s.schedule := rfl
@[simp] theorem putCodeword_hostReads (p : BitString) (x : Bool) (s : State) : (putCodeword p x s).hostReads = s.hostReads := rfl
@[simp] theorem putCodeword_draws (p : BitString) (x : Bool) (s : State) : (putCodeword p x s).draws = s.draws := rfl
@[simp] theorem putCodeword_hsize (p : BitString) (x : Bool) (s : State) : (putCodeword p x s).hsize = s.hsize := rfl
@[simp] theorem putCodeword_nint (p : BitString) (x : Bool) (s : State) : (putCodeword p x s).nint = s.nint := rfl
@[simp] theorem putCodeword_busy (p : BitString) (x : Bool) (s : State) : (putCodeword p x s).busy = s.busy := rfl

/-! ## emitBits -/

@[simp] theorem emitBits_cntW (p : BitString) (s : State) : (emitBits p s).cntW = s.cntW := rfl
@[simp] theorem emitBits_freq (p : BitString) (s : State) : (emitBits p s).freq = s.freq := rfl
@[simp] theorem emitBits_heap (p : BitString) (s : State) : (emitBits p s).heap = s.heap := rfl
@[simp] theorem emitBits_arena (p : BitString) (s : State) : (emitBits p s).arena = s.arena := rfl
@[simp] theorem emitBits_root (p : BitString) (s : State) : (emitBits p s).root = s.root := rfl
@[simp] theorem emitBits_treeValid (p : BitString) (s : State) : (emitBits p s).treeValid = s.treeValid := rfl
@[simp] theorem emitBits_stale (p : BitString) (s : State) : (emitBits p s).stale = s.stale := rfl
@[simp] theorem emitBits_session (p : BitString) (s : State) : (emitBits p s).session = s.session := rfl
@[simp] theorem emitBits_rSym (p : BitString) (s : State) : (emitBits p s).rSym = s.rSym := rfl
@[simp] theorem emitBits_rCount (p : BitString) (s : State) : (emitBits p s).rCount = s.rCount := rfl
@[simp] theorem emitBits_hit (p : BitString) (s : State) : (emitBits p s).hit = s.hit := rfl
@[simp] theorem emitBits_rNode (p : BitString) (s : State) : (emitBits p s).rNode = s.rNode := rfl
@[simp] theorem emitBits_rWeight (p : BitString) (s : State) : (emitBits p s).rWeight = s.rWeight := rfl
@[simp] theorem emitBits_cw (p : BitString) (s : State) : (emitBits p s).cw = s.cw := rfl
@[simp] theorem emitBits_cwLen (p : BitString) (s : State) : (emitBits p s).cwLen = s.cwLen := rfl
@[simp] theorem emitBits_found (p : BitString) (s : State) : (emitBits p s).found = s.found := rfl
@[simp] theorem emitBits_dstat (p : BitString) (s : State) : (emitBits p s).dstat = s.dstat := rfl
@[simp] theorem emitBits_fault (p : BitString) (s : State) : (emitBits p s).fault = s.fault := rfl
@[simp] theorem emitBits_fcode (p : BitString) (s : State) : (emitBits p s).fcode = s.fcode := rfl
@[simp] theorem emitBits_pending (p : BitString) (s : State) : (emitBits p s).pending = s.pending := rfl
@[simp] theorem emitBits_bitSource (p : BitString) (s : State) : (emitBits p s).bitSource = s.bitSource := rfl
@[simp] theorem emitBits_bitSink (p : BitString) (s : State) : (emitBits p s).bitSink = s.bitSink ++ p := rfl
@[simp] theorem emitBits_byteSink (p : BitString) (s : State) : (emitBits p s).byteSink = s.byteSink := rfl
@[simp] theorem emitBits_schedule (p : BitString) (s : State) : (emitBits p s).schedule = s.schedule := rfl
@[simp] theorem emitBits_hostReads (p : BitString) (s : State) : (emitBits p s).hostReads = s.hostReads := rfl
@[simp] theorem emitBits_draws (p : BitString) (s : State) : (emitBits p s).draws = s.draws := rfl
@[simp] theorem emitBits_hsize (p : BitString) (s : State) : (emitBits p s).hsize = s.hsize := rfl
@[simp] theorem emitBits_nint (p : BitString) (s : State) : (emitBits p s).nint = s.nint := rfl
@[simp] theorem emitBits_busy (p : BitString) (s : State) : (emitBits p s).busy = s.busy := rfl

/-! ## emitByte -/

@[simp] theorem emitByte_cntW (v : Byte) (s : State) : (emitByte v s).cntW = s.cntW := rfl
@[simp] theorem emitByte_freq (v : Byte) (s : State) : (emitByte v s).freq = s.freq := rfl
@[simp] theorem emitByte_heap (v : Byte) (s : State) : (emitByte v s).heap = s.heap := rfl
@[simp] theorem emitByte_arena (v : Byte) (s : State) : (emitByte v s).arena = s.arena := rfl
@[simp] theorem emitByte_root (v : Byte) (s : State) : (emitByte v s).root = s.root := rfl
@[simp] theorem emitByte_treeValid (v : Byte) (s : State) : (emitByte v s).treeValid = s.treeValid := rfl
@[simp] theorem emitByte_stale (v : Byte) (s : State) : (emitByte v s).stale = s.stale := rfl
@[simp] theorem emitByte_session (v : Byte) (s : State) : (emitByte v s).session = s.session := rfl
@[simp] theorem emitByte_rSym (v : Byte) (s : State) : (emitByte v s).rSym = s.rSym := rfl
@[simp] theorem emitByte_rCount (v : Byte) (s : State) : (emitByte v s).rCount = s.rCount := rfl
@[simp] theorem emitByte_hit (v : Byte) (s : State) : (emitByte v s).hit = s.hit := rfl
@[simp] theorem emitByte_rNode (v : Byte) (s : State) : (emitByte v s).rNode = s.rNode := rfl
@[simp] theorem emitByte_rWeight (v : Byte) (s : State) : (emitByte v s).rWeight = s.rWeight := rfl
@[simp] theorem emitByte_cw (v : Byte) (s : State) : (emitByte v s).cw = s.cw := rfl
@[simp] theorem emitByte_cwLen (v : Byte) (s : State) : (emitByte v s).cwLen = s.cwLen := rfl
@[simp] theorem emitByte_found (v : Byte) (s : State) : (emitByte v s).found = s.found := rfl
@[simp] theorem emitByte_dstat (v : Byte) (s : State) : (emitByte v s).dstat = s.dstat := rfl
@[simp] theorem emitByte_fault (v : Byte) (s : State) : (emitByte v s).fault = s.fault := rfl
@[simp] theorem emitByte_fcode (v : Byte) (s : State) : (emitByte v s).fcode = s.fcode := rfl
@[simp] theorem emitByte_pending (v : Byte) (s : State) : (emitByte v s).pending = s.pending := rfl
@[simp] theorem emitByte_bitSource (v : Byte) (s : State) : (emitByte v s).bitSource = s.bitSource := rfl
@[simp] theorem emitByte_bitSink (v : Byte) (s : State) : (emitByte v s).bitSink = s.bitSink := rfl
@[simp] theorem emitByte_byteSink (v : Byte) (s : State) : (emitByte v s).byteSink = s.byteSink ++ [v] := rfl
@[simp] theorem emitByte_schedule (v : Byte) (s : State) : (emitByte v s).schedule = s.schedule := rfl
@[simp] theorem emitByte_hostReads (v : Byte) (s : State) : (emitByte v s).hostReads = s.hostReads := rfl
@[simp] theorem emitByte_draws (v : Byte) (s : State) : (emitByte v s).draws = s.draws := rfl
@[simp] theorem emitByte_hsize (v : Byte) (s : State) : (emitByte v s).hsize = s.hsize := rfl
@[simp] theorem emitByte_nint (v : Byte) (s : State) : (emitByte v s).nint = s.nint := rfl
@[simp] theorem emitByte_busy (v : Byte) (s : State) : (emitByte v s).busy = s.busy := rfl

/-! ## rebuild -/

@[simp] theorem rebuild_cntW (s : State) : (rebuild s).cntW = s.cntW := rfl
@[simp] theorem rebuild_freq (s : State) : (rebuild s).freq = s.freq := rfl
@[simp] theorem rebuild_heap (s : State) : (rebuild s).heap = (buildTree s.freq).heap := rfl
@[simp] theorem rebuild_arena (s : State) : (rebuild s).arena = (buildTree s.freq).arena := rfl
@[simp] theorem rebuild_root (s : State) : (rebuild s).root = (buildTree s.freq).root := rfl
@[simp] theorem rebuild_treeValid (s : State) : (rebuild s).treeValid = true := rfl
@[simp] theorem rebuild_stale (s : State) : (rebuild s).stale = false := rfl
@[simp] theorem rebuild_session (s : State) : (rebuild s).session = s.session := rfl
@[simp] theorem rebuild_rSym (s : State) : (rebuild s).rSym = s.rSym := rfl
@[simp] theorem rebuild_rCount (s : State) : (rebuild s).rCount = s.rCount := rfl
@[simp] theorem rebuild_hit (s : State) : (rebuild s).hit = s.hit := rfl
@[simp] theorem rebuild_rNode (s : State) : (rebuild s).rNode = s.rNode := rfl
@[simp] theorem rebuild_rWeight (s : State) : (rebuild s).rWeight = s.rWeight := rfl
@[simp] theorem rebuild_cw (s : State) : (rebuild s).cw = s.cw := rfl
@[simp] theorem rebuild_cwLen (s : State) : (rebuild s).cwLen = s.cwLen := rfl
@[simp] theorem rebuild_found (s : State) : (rebuild s).found = s.found := rfl
@[simp] theorem rebuild_dstat (s : State) : (rebuild s).dstat = s.dstat := rfl
@[simp] theorem rebuild_fault (s : State) : (rebuild s).fault = s.fault := rfl
@[simp] theorem rebuild_fcode (s : State) : (rebuild s).fcode = s.fcode := rfl
@[simp] theorem rebuild_pending (s : State) : (rebuild s).pending = s.pending := rfl
@[simp] theorem rebuild_bitSource (s : State) : (rebuild s).bitSource = s.bitSource := rfl
@[simp] theorem rebuild_bitSink (s : State) : (rebuild s).bitSink = s.bitSink := rfl
@[simp] theorem rebuild_byteSink (s : State) : (rebuild s).byteSink = s.byteSink := rfl
@[simp] theorem rebuild_schedule (s : State) : (rebuild s).schedule = s.schedule := rfl
@[simp] theorem rebuild_hostReads (s : State) : (rebuild s).hostReads = s.hostReads := rfl
@[simp] theorem rebuild_draws (s : State) : (rebuild s).draws = s.draws := rfl
@[simp] theorem rebuild_busy (s : State) : (rebuild s).busy = s.busy := rfl

/-! ## hardReset -/

@[simp] theorem hardReset_cntW (s : State) : (hardReset s).cntW = s.cntW := rfl
@[simp] theorem hardReset_freq (s : State) : (hardReset s).freq = State.reset.freq := rfl
@[simp] theorem hardReset_heap (s : State) : (hardReset s).heap = State.reset.heap := rfl
@[simp] theorem hardReset_arena (s : State) : (hardReset s).arena = State.reset.arena := rfl
@[simp] theorem hardReset_root (s : State) : (hardReset s).root = State.reset.root := rfl
@[simp] theorem hardReset_treeValid (s : State) : (hardReset s).treeValid = State.reset.treeValid := rfl
@[simp] theorem hardReset_stale (s : State) : (hardReset s).stale = State.reset.stale := rfl
@[simp] theorem hardReset_session (s : State) : (hardReset s).session = State.reset.session := rfl
@[simp] theorem hardReset_rSym (s : State) : (hardReset s).rSym = State.reset.rSym := rfl
@[simp] theorem hardReset_rCount (s : State) : (hardReset s).rCount = State.reset.rCount := rfl
@[simp] theorem hardReset_hit (s : State) : (hardReset s).hit = State.reset.hit := rfl
@[simp] theorem hardReset_rNode (s : State) : (hardReset s).rNode = State.reset.rNode := rfl
@[simp] theorem hardReset_rWeight (s : State) : (hardReset s).rWeight = State.reset.rWeight := rfl
@[simp] theorem hardReset_cw (s : State) : (hardReset s).cw = State.reset.cw := rfl
@[simp] theorem hardReset_cwLen (s : State) : (hardReset s).cwLen = State.reset.cwLen := rfl
@[simp] theorem hardReset_found (s : State) : (hardReset s).found = State.reset.found := rfl
@[simp] theorem hardReset_dstat (s : State) : (hardReset s).dstat = State.reset.dstat := rfl
@[simp] theorem hardReset_fault (s : State) : (hardReset s).fault = State.reset.fault := rfl
@[simp] theorem hardReset_fcode (s : State) : (hardReset s).fcode = State.reset.fcode := rfl
@[simp] theorem hardReset_pending (s : State) : (hardReset s).pending = State.reset.pending := rfl
@[simp] theorem hardReset_bitSource (s : State) : (hardReset s).bitSource = s.bitSource := rfl
@[simp] theorem hardReset_bitSink (s : State) : (hardReset s).bitSink = s.bitSink := rfl
@[simp] theorem hardReset_byteSink (s : State) : (hardReset s).byteSink = s.byteSink := rfl
@[simp] theorem hardReset_schedule (s : State) : (hardReset s).schedule = s.schedule := rfl
@[simp] theorem hardReset_hostReads (s : State) : (hardReset s).hostReads = s.hostReads := rfl
@[simp] theorem hardReset_draws (s : State) : (hardReset s).draws = s.draws := rfl
@[simp] theorem hardReset_busy (s : State) : (hardReset s).busy = false := rfl

/-! ## The states the fetch and the schedule make -/

@[simp] theorem withFetchWord_pending (s : State) (nbits w : Nat) :
    (s.withFetchWord nbits w).pending = some (BitVec.ofNat 32 (w % 2 ^ nbits)) := rfl
@[simp] theorem withFetchWord_schedule (s : State) (nbits w : Nat) :
    (s.withFetchWord nbits w).schedule = .blockTurn :: s.schedule := rfl
theorem busy_eq_pending (s : State) : s.busy = s.pending.isSome := rfl

end Sys2Proof.Machine
end

