-- ==== Sys2Proof/Laws/Ops.lean ====
section
/-! SUPPORT. The laws of the frequency table, the enumeration, the codeword packing and the step. -/

namespace Sys2Proof.Machine

/-! ## The frequency table -/

@[simp] theorem countAt_putCount_same (f : Vector Count 256) (b : Byte) (c : Count) :
    countAt (putCount f b c) b = c := by
  simp [countAt, putCount]

theorem countAt_putCount_ne (f : Vector Count 256) (b b' : Byte) (c : Count) (h : b' ≠ b) :
    countAt (putCount f b c) b' = countAt f b' := by
  have hn : b.toNat ≠ b'.toNat := fun e => h (BitVec.eq_of_toNat_eq e.symm)
  simp only [countAt, putCount]
  exact Vector.getElem_set_ne _ _ hn

@[simp] theorem countAt_zeroTable (b : Byte) : countAt zeroTable b = 0 := by
  simp [countAt, zeroTable]

/-- A table is its 256 counts. -/
theorem freq_ext (f g : Vector Count 256) (h : ∀ b, countAt f b = countAt g b) : f = g := by
  apply Vector.ext
  intro i hi
  have := h (BitVec.ofNat 8 i)
  simpa [countAt, Nat.mod_eq_of_lt hi] using this

theorem hitFlag_iff (c : Count) : hitFlag c = true ↔ c ≠ 0 := by
  simp only [hitFlag, decide_eq_true_eq]
  constructor
  · rintro h rfl; simp at h
  · intro h; exact Nat.pos_of_ne_zero fun e => h (BitVec.eq_of_toNat_eq (by simpa using e))

/-- The enumeration lists exactly the bytes with a non-zero count, each with its count. -/
theorem mem_observed (f : Vector Count 256) (c : Count) (b : Nat) :
    (c, b) ∈ observed f ↔ ∃ h : b < 256, f[b] = c ∧ c ≠ 0 := by
  simp only [observed, List.mem_filter, List.mem_zipIdx_iff_getElem?, hitFlag_iff]
  constructor
  · rintro ⟨h, hc⟩
    obtain ⟨hb, he⟩ := List.getElem?_eq_some_iff.mp h
    have hb' : b < 256 := by simpa using hb
    exact ⟨hb', by simpa using he, hc⟩
  · rintro ⟨hb, he, hc⟩
    refine ⟨List.getElem?_eq_some_iff.mpr ⟨by simpa using hb, by simpa using he⟩, hc⟩

/-- The enumeration is in ascending byte order. -/
theorem observed_ascending (f : Vector Count 256) : (observed f).Pairwise fun x y => x.2 < y.2 := by
  have h : (f.toList.zipIdx).Pairwise fun x y => x.2 < y.2 := by
    have : ((f.toList.zipIdx).map Prod.snd).Pairwise (· < ·) := by
      rw [List.zipIdx_map_snd]
      exact List.pairwise_lt_range'
    exact List.pairwise_map.mp this
  exact h.filter _

/-! ## Codeword packing -/

theorem testBit_bitsValue (p : BitString) (i : Nat) : (bitsValue p).testBit i = p.getD i false := by
  induction p generalizing i with
  | nil => simp [bitsValue]
  | cons b p ih =>
    cases i with
    | zero => cases b <;> simp [bitsValue]
    | succ i =>
      rw [Nat.testBit_succ, List.getD_cons_succ, ← ih]
      congr 1
      cases b <;> simp [bitsValue]; omega

/-- What the codeword register holds after a codeword is put into it. -/
theorem putCodeword_bit (p : BitString) (x : Bool) (s : State) (i : Nat) (hi : i < 258) :
    (putCodeword p x s).cw.getLsbD i = p.getD i false := by
  rw [putCodeword_cw, BitVec.getLsbD_ofNat, testBit_bitsValue]
  simp [hi]

/-! ## The step -/

/-- With nothing scheduled a step is the block's turn. -/
theorem step_idle (s : State) (h : s.schedule = []) : step s = blockStep s := by
  simp [step, h]

/-- A step performs the next scheduled event. -/
theorem step_event (s : State) (e : Event) (rest : List Event) (h : s.schedule = e :: rest) :
    step s = perform e { s with schedule := rest } := by
  simp [step, h]

/-- The block's turn executes the accepted word. -/
theorem blockStep_pending (s : State) (w : Word) (h : s.pending = some w) : blockStep s = executeWord w s := by
  simp [blockStep, fetch, h]

theorem blockStep_idle (s : State) (h : s.pending = none) : blockStep s = .next s := by
  simp [blockStep, fetch, h]

/-- A word that decodes to a command is executed as it. -/
theorem executeWord_command (s : State) (w : Word) (i : Instr) (h : decode w = .command i) :
    executeWord w s = exec i s := by
  simp [executeWord, h]

theorem executeWord_illegal (s : State) (w : Word) (why : IllegalReason) (h : decode w = .illegal why) :
    executeWord w s = .next (raise .illegalCmd s) := by
  simp [executeWord, h]

end Sys2Proof.Machine
end

