-- ==== Sys2Proof/Laws/Heap.lean ====
section
/-! SUPPORT. What the heap functions do to the entries: they lose none, add none and count them. -/

namespace Sys2Proof.Machine

theorem swapAt_perm (h : List HeapEntry) (i j : Nat) : (swapAt h i j).Perm h := by
  unfold swapAt
  split
  · rename_i x y hx hy
    obtain ⟨hi, hx⟩ := List.getElem?_eq_some_iff.mp hx
    obtain ⟨hj, hy⟩ := List.getElem?_eq_some_iff.mp hy
    subst hx hy
    exact List.set_set_perm hi hj
  · exact List.Perm.refl _

@[simp] theorem swapAt_length (h : List HeapEntry) (i j : Nat) : (swapAt h i j).length = h.length :=
  (swapAt_perm h i j).length_eq

theorem siftUp_perm (fuel : Nat) (h : List HeapEntry) (i : Nat) : (siftUp fuel h i).Perm h := by
  induction fuel generalizing h i with
  | zero => exact List.Perm.refl _
  | succ fuel ih =>
    simp only [siftUp]
    split
    · exact (ih _ _).trans (swapAt_perm _ _ _)
    · exact List.Perm.refl _

theorem siftDown_perm (fuel : Nat) (h : List HeapEntry) (i : Nat) : (siftDown fuel h i).Perm h := by
  induction fuel generalizing h i with
  | zero => exact List.Perm.refl _
  | succ fuel ih =>
    simp only [siftDown]
    split
    · exact (ih _ _).trans (swapAt_perm _ _ _)
    · exact List.Perm.refl _

/-- HeapInsert adds exactly the entry. -/
theorem heapInsert_perm (h : List HeapEntry) (e : HeapEntry) : (heapInsert h e).Perm (e :: h) :=
  (siftUp_perm _ _ _).trans (List.perm_append_singleton e h)

@[simp] theorem heapInsert_length (h : List HeapEntry) (e : HeapEntry) : (heapInsert h e).length = h.length + 1 := by
  simpa using (heapInsert_perm h e).length_eq

theorem heapInsert_ne_nil (h : List HeapEntry) (e : HeapEntry) : heapInsert h e ≠ [] := fun hn => by
  have := heapInsert_length h e
  simp [hn] at this

/-- Moving the last entry to the root and shrinking leaves the entries below the root. -/
theorem swap_take_perm (top : HeapEntry) (rest : List HeapEntry) :
    ((swapAt (top :: rest) 0 rest.length).take rest.length).Perm rest := by
  rcases List.eq_nil_or_concat rest with rfl | ⟨mid, last, rfl⟩
  · simp [swapAt]
  · have hlen : (mid.concat last).length = mid.length + 1 := by simp
    have hlast : (top :: mid.concat last)[mid.length + 1]? = some last := by simp
    have : (swapAt (top :: mid.concat last) 0 (mid.concat last).length).take (mid.concat last).length
        = last :: mid := by
      rw [hlen]
      simp only [swapAt, hlast, List.getElem?_cons_zero, List.set_cons_zero, List.set_cons_succ, List.take_succ_cons]
      congr 1
      simp [List.concat_eq_append]
    rw [this]
    simpa [List.concat_eq_append] using (List.perm_append_singleton last mid).symm

/-- HeapExtract answers the root entry and keeps exactly the others; it answers nothing on the empty heap alone. -/
theorem heapExtract_cons (top : HeapEntry) (rest : List HeapEntry) :
    ∃ h, heapExtract (top :: rest) = some (top, h) ∧ h.Perm rest := by
  refine ⟨_, rfl, ?_⟩
  simpa using (siftDown_perm _ _ _).trans (swap_take_perm top rest)

@[simp] theorem heapExtract_nil : heapExtract [] = none := rfl

/-- Everything HeapExtract can answer. -/
theorem heapExtract_some {h h' : List HeapEntry} {top : HeapEntry} (he : heapExtract h = some (top, h')) :
    ∃ rest, h = top :: rest ∧ h'.Perm rest := by
  cases h with
  | nil => simp at he
  | cons x rest =>
    obtain ⟨h₁, h₁e, hp⟩ := heapExtract_cons x rest
    rw [h₁e] at he
    obtain ⟨rfl, rfl⟩ := by simpa using he
    exact ⟨rest, rfl, hp⟩

theorem heapExtract_length {h h' : List HeapEntry} {top : HeapEntry} (he : heapExtract h = some (top, h')) :
    h.length = h'.length + 1 := by
  obtain ⟨rest, rfl, hp⟩ := heapExtract_some he
  simp [hp.length_eq]

theorem heapExtract_isSome {h : List HeapEntry} (hh : h ≠ []) : ∃ top h', heapExtract h = some (top, h') := by
  cases h with
  | nil => exact absurd rfl hh
  | cons x rest =>
    obtain ⟨h', he, -⟩ := heapExtract_cons x rest
    exact ⟨x, h', he⟩

end Sys2Proof.Machine
end

