-- ==== Sys2Proof/Laws/Builder.lean ====
section
/-! SUPPORT. What the merges of a build do: the induction over them packaged once, and how many entries and slots they leave. -/

namespace Sys2Proof.Machine

/-- What every merge keeps, the whole loop keeps. -/
theorem mergeLoop_induction (P : List HeapEntry → List ArenaSlot → Prop)
    (merge : ∀ h a x h₁ y h₂, P h a → heapExtract h = some (x, h₁) → heapExtract h₁ = some (y, h₂) →
      P (heapInsert h₂ ⟨internalNode a.length, x.wgt + y.wgt⟩) (a ++ [⟨x.node, y.node, x.wgt + y.wgt⟩])) :
    ∀ fuel h a, P h a → P (mergeLoop fuel h a).1 (mergeLoop fuel h a).2 := by
  intro fuel
  induction fuel with
  | zero => intro h a hp; exact hp
  | succ fuel ih =>
    intro h a hp
    simp only [mergeLoop]
    split
    · exact hp
    · split
      · exact hp
      · rename_i x h₁ hx
        split
        · exact hp
        · rename_i y h₂ hy
          exact ih _ _ (merge _ _ _ _ _ _ hp hx hy)

/-- A heap of two entries or more is merged once: both extracts answer. -/
theorem mergeLoop_succ (fuel : Nat) (h : List HeapEntry) (a : List ArenaSlot) (hl : 1 < h.length) :
    ∃ x h₁ y h₂, heapExtract h = some (x, h₁) ∧ heapExtract h₁ = some (y, h₂) ∧ h₂.length + 2 = h.length ∧
      mergeLoop (fuel + 1) h a = mergeLoop fuel (heapInsert h₂ ⟨internalNode a.length, x.wgt + y.wgt⟩)
        (a ++ [⟨x.node, y.node, x.wgt + y.wgt⟩]) := by
  obtain ⟨x, h₁, hx⟩ := heapExtract_isSome (h := h) (by rintro rfl; simp at hl)
  have l₁ := heapExtract_length hx
  obtain ⟨y, h₂, hy⟩ := heapExtract_isSome (h := h₁) (by rintro rfl; simp at l₁; omega)
  have l₂ := heapExtract_length hy
  refine ⟨x, h₁, y, h₂, hx, hy, by omega, ?_⟩
  simp [mergeLoop, hx, hy, Nat.not_le.mpr hl]

/-- The loop's bound cuts nothing short: one entry is left, and each merge has added one slot. -/
theorem mergeLoop_length (fuel : Nat) (h : List HeapEntry) (a : List ArenaSlot) (hne : 1 ≤ h.length)
    (hf : h.length ≤ fuel + 1) :
    (mergeLoop fuel h a).1.length = 1 ∧ (mergeLoop fuel h a).2.length + 1 = a.length + h.length := by
  induction fuel generalizing h a with
  | zero => exact ⟨by simp only [mergeLoop]; omega, by simp only [mergeLoop]; omega⟩
  | succ fuel ih =>
    by_cases hl : 1 < h.length
    · obtain ⟨x, h₁, y, h₂, -, -, hlen, heq⟩ := mergeLoop_succ fuel h a hl
      have := ih (heapInsert h₂ ⟨internalNode a.length, x.wgt + y.wgt⟩) (a ++ [⟨x.node, y.node, x.wgt + y.wgt⟩])
        (by simp) (by simp; omega)
      rw [heq]
      simp only [heapInsert_length, List.length_append, List.length_singleton] at this
      omega
    · have : h.length ≤ 1 := by omega
      simp only [mergeLoop, this, if_true]
      omega

/-- After at least one merge the remaining entry is the node of the last slot. -/
theorem mergeLoop_last (fuel : Nat) (h : List HeapEntry) (a : List ArenaSlot) (hl : 1 < h.length)
    (hf : h.length ≤ fuel + 1) :
    ∃ w, (mergeLoop fuel h a).1 = [⟨internalNode ((mergeLoop fuel h a).2.length - 1), w⟩] := by
  induction fuel generalizing h a with
  | zero => omega
  | succ fuel ih =>
    obtain ⟨x, h₁, y, h₂, -, -, hlen, heq⟩ := mergeLoop_succ fuel h a hl
    rw [heq]
    by_cases h2 : h₂ = []
    · subst h2
      refine ⟨x.wgt + y.wgt, ?_⟩
      have h1 : heapInsert [] ⟨internalNode a.length, x.wgt + y.wgt⟩ = [⟨internalNode a.length, x.wgt + y.wgt⟩] := rfl
      rw [h1]
      cases fuel <;> simp [mergeLoop]
    · have : 0 < h₂.length := List.length_pos_iff.mpr h2
      exact ih _ _ (by simp; omega) (by simp; omega)

/-- The leaves a build inserts are at least the two sentinels. -/
theorem leavesOf_length (freq : Vector Count 256) : (leavesOf freq).length = 2 + (observed freq).length := by
  simp [leavesOf]; omega

theorem foldl_heapInsert_perm (l h : List HeapEntry) : (l.foldl heapInsert h).Perm (l ++ h) := by
  induction l generalizing h with
  | nil => exact List.Perm.refl _
  | cons e l ih =>
    exact (ih _).trans (((heapInsert_perm h e).append_left l).trans (by simp))

/-- The heap of a build, before the merges, holds exactly the leaves. -/
theorem leafHeap_perm (freq : Vector Count 256) : (leafHeap freq).Perm (leavesOf freq) := by
  simpa [leafHeap] using foldl_heapInsert_perm (leavesOf freq) []

theorem leafHeap_length (freq : Vector Count 256) : (leafHeap freq).length = 2 + (observed freq).length := by
  rw [(leafHeap_perm freq).length_eq, leavesOf_length]

/-- What a build leaves: one entry, the root; ROOT the node of the last slot; one slot more than observed bytes. -/
theorem buildTree_spec (freq : Vector Count 256) :
    (∃ w, (buildTree freq).heap = [⟨(buildTree freq).root, w⟩]) ∧
    (buildTree freq).root = internalNode ((buildTree freq).arena.length - 1) ∧
    (buildTree freq).arena.length = 1 + (observed freq).length := by
  have hl := leafHeap_length freq
  obtain ⟨w, hw⟩ := mergeLoop_last (leafHeap freq).length (leafHeap freq) [] (by omega) (by omega)
  obtain ⟨-, hn⟩ := mergeLoop_length (leafHeap freq).length (leafHeap freq) [] (by omega) (by omega)
  simp only [List.length_nil] at hn
  refine ⟨⟨w, ?_⟩, ?_, ?_⟩
  · simp only [buildTree, hw, topNode]
  · simp only [buildTree]
    rw [hw]
    rfl
  · simp only [buildTree]
    omega

end Sys2Proof.Machine
end

