-- ==== Sys2Proof/Laws/Decode.lean ====
section
/-! SUPPORT. The fields of an encoded command and of a decoded word. -/

namespace Sys2Proof

@[simp] theorem opField_encode (i : Instr) : opField (encode i) = opcodeOf i := by
  apply BitVec.eq_of_getLsbD_eq
  intro k hk
  simp only [opField, encode, BitVec.getLsbD_extractLsb', BitVec.getLsbD_append, hk, decide_true, Bool.true_and]
  rw [if_neg (by omega)]
  congr 1
  omega

@[simp] theorem rsvField_encode (i : Instr) : rsvField (encode i) = 0 := by
  apply BitVec.eq_of_getLsbD_eq
  intro k hk
  simp only [rsvField, encode, BitVec.getLsbD_extractLsb', BitVec.getLsbD_append, hk, decide_true, Bool.true_and]
  rw [if_pos (by omega), if_neg (by omega)]
  simp

@[simp] theorem opndField_encode (i : Instr) : opndField (encode i) = operandOf i := by
  apply BitVec.eq_of_getLsbD_eq
  intro k hk
  simp only [opndField, encode, BitVec.getLsbD_extractLsb', BitVec.getLsbD_append, hk, decide_true, Bool.true_and]
  rw [if_pos (by omega), if_pos (by omega)]
  simp

/-- A word is its three fields (R80). -/
theorem word_eq_fields (w : Word) : w = opField w ++ (rsvField w ++ opndField w) := by
  apply BitVec.eq_of_getLsbD_eq
  intro k hk
  simp only [opField, rsvField, opndField, BitVec.getLsbD_append, BitVec.getLsbD_extractLsb']
  by_cases h1 : k < 10
  · simp [h1, show k < 14 + 10 by omega]
  · by_cases h2 : k < 24
    · simp [h1, show k < 14 + 10 by omega, show k - 10 < 14 by omega, show 10 + (k - 10) = k by omega]
    · simp [show ¬ k < 14 + 10 by omega, show k - (14 + 10) < 8 by omega, show 24 + (k - (14 + 10)) = k by omega]

/-- A NONE form has no operand bits (R84). -/
theorem operandOf_none_form (i : Instr) (h : formOfOp (opcodeOf i).toNat = some .none) : operandOf i = 0 := by
  cases i <;> first | rfl | (revert h; simp [opcodeOf, formOfOp])

end Sys2Proof
end

