-- ==== Sys2Proof/Laws/PerInstr.lean ====
section
/-! SUPPORT. What holds of every command as syntax, one lemma for each constructor: its encoding has its opcode in [31:24],
zero in [23:10] and its operand in [9:0] (R80). -/

namespace Sys2Proof.Laws.EncodingFields

/-- The fields of the command's word (R80). -/
def Statement (i : Instr) : Prop :=
  opField (encode i) = opcodeOf i ∧ rsvField (encode i) = 0 ∧ opndField (encode i) = operandOf i

/-- The one proof the cases share. -/
theorem fields (i : Instr) : Statement i := ⟨opField_encode i, rsvField_encode i, opndField_encode i⟩

theorem nop : Statement .nop := fields _
theorem sessInit (m : Opnd) : Statement (.sessInit m) := fields _
theorem ftReset : Statement .ftReset := fields _
theorem ftRecord (b : Opnd) : Statement (.ftRecord b) := fields _
theorem ftQuery (b : Opnd) : Statement (.ftQuery b) := fields _
theorem ftNext (s : Opnd) : Statement (.ftNext s) := fields _
theorem heapClear : Statement .heapClear := fields _
theorem heapInsert (n : Opnd) : Statement (.heapInsert n) := fields _
theorem heapExtract : Statement .heapExtract := fields _
theorem build : Statement .build := fields _
theorem encode (s : Opnd) : Statement (.encode s) := fields _
theorem decode : Statement .decode := fields _
theorem encStep (s : Opnd) : Statement (.encStep s) := fields _
theorem decStep : Statement .decStep := fields _

end Sys2Proof.Laws.EncodingFields
end

