-- ==== Sys2Proof/Laws/Run.lean ====
section
/-! SUPPORT. What one step can do, and how runs of steps compose. -/

namespace Sys2Proof.Machine

/-- Everything a step that answers a next state can be: the block's turn with nothing scheduled, or the next event. -/
theorem step_cases {s t : State} (h : step s = .next t) :
    (s.schedule = [] ∧ blockStep s = .next t) ∨
    ∃ e rest, s.schedule = e :: rest ∧ perform e { s with schedule := rest } = .next t := by
  cases hs : s.schedule with
  | nil => exact .inl ⟨rfl, step_idle s hs ▸ h⟩
  | cons e rest => exact .inr ⟨e, rest, rfl, step_event s e rest hs ▸ h⟩

/-- The block's turn: idle, an Illegal word, or a command executed. -/
theorem blockStep_cases {s t : State} (h : blockStep s = .next t) :
    (s.pending = none ∧ t = s) ∨
    (∃ w why, s.pending = some w ∧ decode w = .illegal why ∧ t = raise .illegalCmd s) ∨
    ∃ w i, s.pending = some w ∧ decode w = .command i ∧ exec i s = .next t := by
  cases hp : s.pending with
  | none =>
    rw [blockStep_idle s hp] at h
    exact .inl ⟨rfl, by simpa using h.symm⟩
  | some w =>
    rw [blockStep_pending s w hp] at h
    cases hd : decode w with
    | illegal why =>
      rw [executeWord_illegal s w why hd] at h
      exact .inr (.inl ⟨w, why, rfl, hd, by simpa using h.symm⟩)
    | command i =>
      rw [executeWord_command s w i hd] at h
      exact .inr (.inr ⟨w, i, rfl, hd, h⟩)

@[simp] theorem afterSteps_zero (s : State) : afterSteps 0 s = some s := rfl

theorem afterSteps_succ (n : Nat) {s u : State} (h : step s = .next u) : afterSteps (n + 1) s = afterSteps n u := by
  simp [afterSteps, h]

/-- A run of m + n steps is one of m and then one of n. -/
theorem afterSteps_add (m n : Nat) (s : State) : afterSteps (m + n) s = (afterSteps m s).bind (afterSteps n) := by
  induction m generalizing s with
  | zero => simp
  | succ m ih =>
    rw [Nat.succ_add]
    simp only [afterSteps]
    cases step s with
    | next t => exact ih t
    | fault f => rfl
    | refused r => rfl

/-- The last step of a run. -/
theorem afterSteps_last {n : Nat} {s t : State} (h : afterSteps (n + 1) s = some t) :
    ∃ u, afterSteps n s = some u ∧ step u = .next t := by
  rw [afterSteps_add, Option.bind_eq_some_iff] at h
  obtain ⟨u, hu, ht⟩ := h
  refine ⟨u, hu, ?_⟩
  simp only [afterSteps] at ht
  split at ht
  · rename_i v hv
    rw [hv, Option.some.inj ht]
  · simp at ht

end Sys2Proof.Machine
end

