-- ==== Sys2Proof/Laws/Translator.lean ====
section
/-! SUPPORT. The codeword search, the tree walk and the literal read, each said once in terms of `follow`. -/

namespace Sys2Proof.Machine

theorem isLeaf_iff (n : NodeIx) : isLeaf n = true ↔ n.toNat < 258 := by
  simp only [isLeaf, decide_eq_true_eq]; omega

theorem isLeaf_eq_false (n : NodeIx) (h : 258 ≤ n.toNat) : isLeaf n = false := by
  simp only [isLeaf, decide_eq_false_iff_not]; omega

theorem follow_internal (arena : List ArenaSlot) (n : NodeIx) (b : Bool) (p : BitString) (slot : ArenaSlot)
    (hn : 258 ≤ n.toNat) (hs : arena[slotOf n]? = some slot) :
    follow arena n (b :: p) = follow arena (if b then slot.right else slot.left) p := by
  have hs' : arena[n.toNat - 258]? = some slot := hs
  rw [follow, if_neg (Nat.not_lt.mpr hn), hs']

/-- A path that goes on from n takes a branch at the live internal node n. -/
theorem follow_cons {arena : List ArenaSlot} {n m : NodeIx} {b : Bool} {p : BitString}
    (h : follow arena n (b :: p) = some m) :
    258 ≤ n.toNat ∧ ∃ slot, arena[slotOf n]? = some slot ∧
      follow arena (if b then slot.right else slot.left) p = some m := by
  simp only [follow] at h
  split at h
  · simp at h
  · rename_i hn
    split at h
    · simp at h
    · rename_i slot hs
      exact ⟨by omega, slot, hs, h⟩

/-- Paths compose. -/
theorem follow_append (arena : List ArenaSlot) (n : NodeIx) (p q : BitString) :
    follow arena n (p ++ q) = (follow arena n p).bind fun m => follow arena m q := by
  induction p generalizing n with
  | nil => simp [follow]
  | cons b p ih =>
    simp only [List.cons_append, follow]
    split
    · rfl
    · split
      · rfl
      · exact ih _

/-- What the search finds is a path to the target, a leaf, over at most `fuel` internal nodes. -/
theorem findPath_sound {arena : List ArenaSlot} {target : NodeIx} {fuel : Nat} {n : NodeIx} {p : BitString}
    (h : findPath arena target fuel n = some p) :
    follow arena n p = some target ∧ isLeaf target = true ∧ p.length ≤ fuel := by
  induction fuel generalizing n p with
  | zero =>
    simp only [findPath] at h
    split at h
    · rename_i hc
      obtain ⟨hl, rfl⟩ := by simpa using hc
      obtain rfl := by simpa using h
      exact ⟨rfl, hl, by simp⟩
    · simp at h
  | succ fuel ih =>
    simp only [findPath] at h
    split at h
    · rename_i hl
      split at h
      · rename_i hn
        subst hn
        obtain rfl := by simpa using h
        exact ⟨rfl, hl, by simp⟩
      · simp at h
    · rename_i hl
      have hn : 258 ≤ n.toNat := by
        have := (isLeaf_iff n).not.mp hl; omega
      split at h
      · simp at h
      · rename_i slot hs
        split at h
        · rename_i q hq
          obtain rfl := by simpa using h
          obtain ⟨hf, ht, hlen⟩ := ih hq
          exact ⟨by rw [follow_internal _ _ _ _ _ hn hs]; exact hf, ht, by simpa using hlen⟩
        · obtain ⟨q, hq, rfl⟩ := Option.map_eq_some_iff.mp h
          obtain ⟨hf, ht, hlen⟩ := ih hq
          exact ⟨by rw [follow_internal _ _ _ _ _ hn hs]; exact hf, ht, by simpa using hlen⟩

/-- The walk goes down a path by its tokens. -/
theorem descend_follow {arena : List ArenaSlot} {n m : NodeIx} {p : BitString} (h : follow arena n p = some m)
    (rest : List Token) : descend arena n (tokensOf p ++ rest) = descend arena m rest := by
  induction p generalizing n with
  | nil =>
    obtain rfl := by simpa [follow] using h
    rfl
  | cons b p ih =>
    obtain ⟨hn, slot, hs, hf⟩ := follow_cons h
    have hl := isLeaf_eq_false n hn
    cases b
    · rw [show tokensOf (false :: p) ++ rest = .zero :: (tokensOf p ++ rest) from rfl, descend]
      simpa [hl, hs] using ih hf
    · rw [show tokensOf (true :: p) ++ rest = .one :: (tokensOf p ++ rest) from rfl, descend]
      simpa [hl, hs] using ih hf

theorem descend_leaf (arena : List ArenaSlot) (n : NodeIx) (tokens : List Token) (h : isLeaf n = true) :
    descend arena n tokens = .leaf n tokens := by
  cases tokens with
  | nil => simp [descend, h]
  | cons t rest => cases t <;> simp [descend, h]

/-- `2 * v + t` over the bits of a string (R164). -/
def literalValue (v : Nat) (q : BitString) : Nat := q.foldl (fun acc b => 2 * acc + b.toNat) v

theorem readLiteral_bits (q : BitString) (v : Nat) (rest : List Token) :
    readLiteral q.length v (tokensOf q ++ rest) = .done .literal (BitVec.ofNat 9 (literalValue v q)) rest := by
  induction q generalizing v with
  | nil => simp [readLiteral, tokensOf, literalValue]
  | cons b q ih =>
    cases b
    · exact ih (2 * v)
    · exact ih (2 * v + 1)

theorem literalValue_bin8 : ∀ v : Byte, literalValue 0 (bin8 v) = v.toNat := by decide +kernel

/-- A literal's eight bits read back as the byte. -/
theorem readLiteral_bin8 (v : Byte) (rest : List Token) :
    readLiteral 8 0 (tokensOf (bin8 v) ++ rest) = .done .literal (v.setWidth 9) rest := by
  have h := readLiteral_bits (bin8 v) 0 rest
  have hv : BitVec.ofNat 9 v.toNat = v.setWidth 9 := by
    apply BitVec.eq_of_toNat_eq; simp
  rw [show (bin8 v).length = 8 by simp [bin8], literalValue_bin8, hv] at h
  exact h

end Sys2Proof.Machine
end

