-- ==== Sys2Proof/Tests/Slice0.lean ====
section
/-! SUPPORT. The model's own tests: ill-formed terms refused, words written out from the spec's encodings, one-step vectors
taken from spec/95_test_vectors.md (named in each comment), and for each statement with hypotheses a state that meets them. -/

set_option Elab.async false

namespace Sys2Proof.Tests

open Sys2Proof Sys2Proof.Machine

/-! ## Helpers -/

/-- Whether an outcome is a next state that passes a check. -/
def nextIs (r : Result) (check : State → Bool) : Bool :=
  match r with
  | .next t => check t
  | _ => false

/-- A checked outcome is a next state. -/
theorem next_of {r : Result} {check : State → Bool} (h : nextIs r check = true) : ∃ t, r = .next t ∧ check t = true := by
  cases r with
  | next t => exact ⟨t, rfl, h⟩
  | fault f => simp [nextIs] at h
  | refused f => simp [nextIs] at h

/-- CNT_W = 1, where a second occurrence overflows. -/
def oneBit : Config.CntW := ⟨1, by decide⟩

/-- Reset, with counts put into the table. -/
def withCounts (l : List (Byte × Count)) : State :=
  { State.reset with freq := l.foldl (fun f e => putCount f e.1 e.2) State.reset.freq }

/-- Vector B1: the tree of the empty table, written out. -/
def twoLeaf : State :=
  { State.reset with heap := [⟨258, 0⟩], arena := [⟨256, 257, 0⟩], root := 258, treeValid := true }

/-- Vector B2: the tree of FREQ 65:1, written out. -/
def treeA : State :=
  { withCounts [(65, 1)] with
    heap := [⟨259, 1⟩], arena := [⟨256, 257, 0⟩, ⟨258, 65, 1⟩], root := 259, treeValid := true }

/-- Vector X2: a DEC_STEP in flight after an OVERRUN, its token just delivered. -/
def overrunWaiting : State :=
  { State.reset with
    session := .decoding, pending := some 0x0D000000, fault := true, fcode := .overrun, bitSource := [.one] }

/-! ## WellFormed: each check refuses an ill-formed term (R82, R89) -/

theorem test_wellFormed_refuses_mode : Instr.wellFormed (.sessInit 2) = false := by decide
theorem test_wellFormed_refuses_record : Instr.wellFormed (.ftRecord 256) = false := by decide
theorem test_wellFormed_refuses_query : Instr.wellFormed (.ftQuery 256) = false := by decide
theorem test_wellFormed_refuses_start : Instr.wellFormed (.ftNext 257) = false := by decide
theorem test_wellFormed_refuses_encode_notSeen : Instr.wellFormed (.encode 256) = false := by decide
theorem test_wellFormed_refuses_encStep : Instr.wellFormed (.encStep 258) = false := by decide
theorem test_wellFormed_accepts_bounds :
    Instr.wellFormed (.sessInit 1) ∧ Instr.wellFormed (.ftRecord 255) ∧ Instr.wellFormed (.ftNext 256) ∧
    Instr.wellFormed (.encode 257) ∧ Instr.wellFormed (.heapInsert 1023) := by decide

/-! ## Decoding: one word for each constructor, OP, RSV and OPND written out (R80, R81) -/

theorem test_decode_nop : decode 0b00000000_00000000000000_0000000000#32 = .command .nop := by decide
theorem test_decode_sessInit : decode 0b00000001_00000000000000_0000000001#32 = .command (.sessInit 1) := by decide
theorem test_decode_ftReset : decode 0b00000010_00000000000000_0000000000#32 = .command .ftReset := by decide
theorem test_decode_ftRecord : decode 0b00000011_00000000000000_0001000001#32 = .command (.ftRecord 65) := by decide
theorem test_decode_ftQuery : decode 0b00000100_00000000000000_0011111111#32 = .command (.ftQuery 255) := by decide
theorem test_decode_ftNext : decode 0b00000101_00000000000000_0100000000#32 = .command (.ftNext 256) := by decide
theorem test_decode_heapClear : decode 0b00000110_00000000000000_0000000000#32 = .command .heapClear := by decide
theorem test_decode_heapInsert : decode 0b00000111_00000000000000_1000000010#32 = .command (.heapInsert 514) := by decide
theorem test_decode_heapExtract : decode 0b00001000_00000000000000_0000000000#32 = .command .heapExtract := by decide
theorem test_decode_build : decode 0b00001001_00000000000000_0000000000#32 = .command .build := by decide
theorem test_decode_encode : decode 0b00001010_00000000000000_0100000001#32 = .command (.encode 257) := by decide
theorem test_decode_decode : decode 0b00001011_00000000000000_0000000000#32 = .command .decode := by decide
theorem test_decode_encStep : decode 0b00001100_00000000000000_1111111111#32 = .command (.encStep 1023) := by decide
theorem test_decode_decStep : decode 0b00001101_00000000000000_0000000000#32 = .command .decStep := by decide
/-- W7, W8, W10, F22, F23. -/
theorem test_decode_illegal :
    decode 0x0E000000 = .illegal .unassignedOpcode ∧ decode 0xFF0003FF = .illegal .unassignedOpcode ∧
    decode 0x0D800000 = .illegal .reservedBits ∧ decode 0x03000441 = .illegal .reservedBits ∧
    decode 0x02000001 = .illegal .operandNotZero := by decide
theorem test_encode_worked : encode (.ftRecord 0x41) = 0x03000041 ∧ encode (.heapInsert 258) = 0x07000102 ∧
    encode pseudoEncEnd = 0x0C000101 ∧ encode pseudoSessDec = 0x01000001 := by decide
theorem test_table_word : decodeTableWord 32 0x0A000000 = some (.encode 0) ∧ decodeTableWord 32 0x0E000000 = none := by
  decide

/-- R91 and R90. -/
theorem test_assemble_operands :
    Assembler.assemble ['F', 'T', '_', 'R', 'E', 'C', 'O', 'R', 'D', ' ', '\'', 'A', '\'', ' ', ';', 'x']
      = some [0x03000041] ∧
    Assembler.assemble ['H', 'E', 'A', 'P', '_', 'I', 'N', 'S', 'E', 'R', 'T', ' ', 'I', '0'] = some [0x07000102] ∧
    Assembler.assemble ['E', 'N', 'C', '_', 'E', 'N', 'D'] = some [0x0C000101] := by decide +kernel
/-- R89's bases: a hexadecimal numeral in either case; a letter is no decimal digit. -/
theorem test_numeral : Assembler.number ['0', 'x', 'D', 'e'] = some 222 ∧ Assembler.number ['1', 'a'] = none := by
  decide +kernel
/-- R89: refused, but emitted by `.word`; `NOP 0` is refused by the model's choice (log 18). -/
theorem test_assemble_refuses :
    Assembler.assemble ['E', 'N', 'C', 'O', 'D', 'E', ' ', 'N', 'S'] = none ∧
    Assembler.assemble ['N', 'O', 'P', ' ', '0'] = none ∧
    Assembler.assemble ['.', 'w', 'o', 'r', 'd', ' ', '0', 'x', '0', '3', '0', '0', '0', '1', '0', '0']
      = some [0x03000100] := by decide +kernel

/-! ## One step of each command -/

/-- The step that fetches a word answers a next state that passes the check. -/
def stepsTo (s : State) (w : Nat) (check : State → Bool) : Bool := nextIs (step (s.withFetchWord 32 w)) check

/-- Q11. -/
theorem test_nop : stepsTo State.reset 0x00000000 (fun t => t.busy == false && t.fault == false) = true := by
  decide +kernel
/-- Q1: R_SYM and CW_LEN keep their values. -/
theorem test_sessInit : stepsTo { treeA with rSym := 257, cwLen := 2, session := .done, dstat := .eos } 0x01000000
    (fun t => t.session == .encoding && t.nint == 0 && t.root == 0 && t.treeValid == false && t.dstat == .none &&
      t.rSym == 257 && t.cwLen == 2 && countAt t.freq 65 == 0) = true := by decide +kernel
/-- Q2. -/
theorem test_sessInit_range : stepsTo State.reset 0x01000002
    (fun t => t.fault && t.fcode == .operandRange && t.session == .idle) = true := by decide +kernel
/-- F1. -/
theorem test_ftReset : stepsTo (withCounts [(65, 3)]) 0x02000000
    (fun t => countAt t.freq 65 == 0 && t.stale) = true := by decide +kernel
/-- F3. -/
theorem test_ftRecord : stepsTo State.reset 0x03000041
    (fun t => countAt t.freq 65 == 1 && countAt t.freq 66 == 0 && t.stale) = true := by decide +kernel
/-- F9, with CNT_W = 2. -/
theorem test_ftRecord_overflow : stepsTo { withCounts [(5, 3)] with cntW := ⟨2, by decide⟩ } 0x03000005
    (fun t => t.fcode == .cntOverflow && countAt t.freq 5 == 3 && t.stale == false) = true := by decide +kernel
/-- F11. -/
theorem test_ftQuery : stepsTo (withCounts [(65, 3)]) 0x04000041
    (fun t => t.rCount == 3 && t.hit && t.stale == false) = true := by decide +kernel
/-- F16. -/
theorem test_ftNext : stepsTo (withCounts [(65, 2), (66, 1)]) 0x05000042
    (fun t => t.rSym == 66 && t.rCount == 1 && t.hit) = true := by decide +kernel
/-- F17. -/
theorem test_ftNext_none : stepsTo (withCounts [(65, 2), (66, 1)]) 0x05000043
    (fun t => t.rSym == 256 && t.rCount == 0 && t.hit == false) = true := by decide +kernel
/-- H9. -/
theorem test_heapClear : stepsTo twoLeaf 0x06000000
    (fun t => t.hsize == 0 && t.root == 258 && t.nint == 1 && t.treeValid) = true := by decide +kernel
/-- H1: NOT_SEEN sifts up past 66. -/
theorem test_heapInsert : stepsTo { withCounts [(65, 3), (66, 1)] with heap := [⟨66, 1⟩, ⟨65, 3⟩] } 0x07000100
    (fun t => t.heap == [⟨256, 0⟩, ⟨65, 3⟩, ⟨66, 1⟩]) = true := by decide +kernel
/-- H7: with NINT = 1, I0 is legal and I1 is not. -/
theorem test_heapInsert_node : stepsTo twoLeaf 0x07000102 (fun t => t.heap == [⟨258, 0⟩, ⟨258, 0⟩]) = true ∧
    stepsTo twoLeaf 0x07000103 (fun t => t.fcode == .operandRange) = true := by decide +kernel
/-- H3, the first extract: the left child on a tie. -/
theorem test_heapExtract : stepsTo { State.reset with heap := [⟨1, 4⟩, ⟨2, 7⟩, ⟨3, 7⟩, ⟨4, 9⟩, ⟨5, 8⟩] } 0x08000000
    (fun t => t.rNode == 1 && t.rWeight == 4 && t.heap == [⟨2, 7⟩, ⟨5, 8⟩, ⟨3, 7⟩, ⟨4, 9⟩]) = true := by decide +kernel
/-- H2: four entries of weights 5, 5, 5, 2 come out as 4, 2, 3, 1. -/
theorem test_heap_ties :
    ((heapExtract [⟨4, 2⟩, ⟨1, 5⟩, ⟨3, 5⟩, ⟨2, 5⟩]).map fun r => r.2) = some [⟨2, 5⟩, ⟨1, 5⟩, ⟨3, 5⟩] ∧
    ((heapExtract [⟨2, 5⟩, ⟨1, 5⟩, ⟨3, 5⟩]).map fun r => r.2) = some [⟨3, 5⟩, ⟨1, 5⟩] := by decide +kernel
/-- B1. -/
theorem test_build_empty : stepsTo State.reset 0x09000000
    (fun t => t.arena == [⟨256, 257, 0⟩] && t.root == 258 && t.heap == [⟨258, 0⟩] && t.treeValid) = true := by
  decide +kernel
/-- B5. -/
theorem test_build_letters :
    stepsTo (withCounts [(97, 5), (98, 2), (99, 1), (100, 1), (114, 2)]) 0x09000000
      (fun t => t.arena == [⟨256, 257, 0⟩, ⟨258, 100, 1⟩, ⟨99, 259, 2⟩, ⟨98, 260, 4⟩, ⟨114, 261, 6⟩, ⟨97, 262, 11⟩] &&
        t.root == 263 && t.heap == [⟨263, 11⟩]) = true := by decide +kernel
/-- T1. -/
theorem test_encode_eos : stepsTo twoLeaf 0x0A000101 (fun t => t.cwLen == 1 && t.cw == 1 && t.found) = true := by
  decide +kernel
/-- T2. -/
theorem test_encode_unseen : stepsTo twoLeaf 0x0A000041 (fun t => t.cwLen == 1 && t.cw == 0 && !t.found) = true := by
  decide +kernel
/-- T12. -/
theorem test_decode_step_literal :
    stepsTo { twoLeaf with bitSource := [.zero, .zero, .one, .zero, .zero, .zero, .zero, .zero, .one, .other] } 0x0B000000
      (fun t => t.dstat == .literal && t.rSym == 0x41 && t.bitSource == [.other]) = true := by decide +kernel
/-- T15 and T21. -/
theorem test_decode_step_trunc_and_wait :
    stepsTo { twoLeaf with bitSource := [.zero, .zero, .one, .other] } 0x0B000000
      (fun t => t.dstat == .trunc && t.rSym == 0x1FF && t.bitSource == []) = true ∧
    stepsTo twoLeaf 0x0B000000 (fun t => t.busy && t.dstat == .none) = true := by decide +kernel
/-- R193's example. -/
theorem test_encStep_first : stepsTo { State.reset with session := .encoding } 0x0C000041
    (fun t => t.bitSink == [false, false, true, false, false, false, false, false, true] && !t.found &&
      countAt t.freq 65 == 1 && t.stale && t.root == 258) = true := by decide +kernel
/-- P1, the second command. -/
theorem test_encStep_end : stepsTo { State.reset with session := .encoding } 0x0C000101
    (fun t => t.bitSink == [true] && t.session == .done && statusWord t == 0x00001700) = true := by decide +kernel
/-- Q6, the second step: tree B2, one token. -/
theorem test_decStep_leaf :
    stepsTo { withCounts [(65, 1)] with session := .decoding, bitSource := [.one, .other] } 0x0D000000
      (fun t => t.byteSink == [65] && countAt t.freq 65 == 2 && t.dstat == .leaf && t.bitSource == [.other] &&
        t.root == 259) = true := by decide +kernel
/-- Q9: the imprecise overflow keeps the build and the token. -/
theorem test_decStep_overflow :
    stepsTo { withCounts [(65, 1)] with cntW := oneBit, session := .decoding, bitSource := [.one] } 0x0D000000
      (fun t => t.fault && t.fcode == .cntOverflow && t.root == 259 && t.bitSource == [] && t.dstat == .leaf &&
        t.rSym == 65 && t.byteSink == [] && countAt t.freq 65 == 1 && t.session == .decoding && !t.stale) = true := by
  decide +kernel

/-! ## The host bus -/

/-- Whether a bus outcome is a refusal. -/
def refusedWith (r : Result) (e : BusError) : Bool :=
  match r with
  | .refused (.busError e') => e' == e
  | _ => false

/-- M1, M2, M3. -/
theorem test_bus_reads :
    nextIs (perform (.memRead 4 0x30) State.reset) (fun t => t.hostReads == [0x48544201]) = true ∧
    nextIs (perform (.memRead 4 0x34) State.reset) (fun t => t.hostReads == [0x20]) = true ∧
    nextIs (perform (.memRead 4 0x04) State.reset) (fun t => t.hostReads == [0]) = true := by decide +kernel
/-- The NODE window after B2. -/
theorem test_node_window :
    nextIs (perform (.memRead 4 0x5028) treeA) (fun t => t.hostReads == [0x80000100]) = true ∧
    nextIs (perform (.memRead 4 0x503C) treeA) (fun t => t.hostReads == [0x41]) = true ∧
    nextIs (perform (.memRead 4 0x4410) treeA) (fun t => t.hostReads == [1]) = true ∧
    nextIs (perform (.memRead 4 0x5040) treeA) (fun t => t.hostReads == [0]) = true := by decide +kernel
/-- M4 to M8. -/
theorem test_bus_errors :
    refusedWith (perform (.memRead 4 0) State.reset) .direction = true ∧
    refusedWith (perform (.memWrite 4 4 0) State.reset) .direction = true ∧
    refusedWith (perform (.memRead 4 2) State.reset) .misaligned = true ∧
    refusedWith (perform (.memRead 4 0x6030) State.reset) .unmapped = true ∧
    refusedWith (perform (.memRead 2 4) State.reset) .width = true := by decide +kernel
/-- F24: a count above 32 bits, with CNT_W = 40. -/
theorem test_wide_count :
    nextIs (perform (.memRead 4 0x100C) (withCounts [(1, 0x100000005)])) (fun t => t.hostReads == [1]) = true := by
  decide +kernel
/-- X2: OVERRUN while a DEC_STEP waits; the DEC_STEP completes when its token comes. -/
theorem test_overrun :
    nextIs (perform (.memWrite 4 0 0) { State.reset with session := .decoding, pending := some 0x0D000000 })
      (fun t => t.fault && t.fcode == .overrun && t.pending == some 0x0D000000) = true ∧
    nextIs (exec .decStep overrunWaiting) (fun t => statusWord t == 0x00030782) = true := by decide +kernel

end Sys2Proof.Tests
end

