-- ==== Sys2Proof/Tests/Witnesses.lean ====
section
/-! SUPPORT. For each statement with hypotheses, a concrete state and operands that meet them together, at a boundary of
their range where they have one; the name after `witness_` is the statement's. -/

set_option Elab.async false

namespace Sys2Proof.Tests

open Sys2Proof Sys2Proof.Machine

/-! ## States the witnesses share -/

/-- A command word accepted, nothing scheduled. -/
def accepted (w : Word) : State := { State.reset with pending := some w }

/-- A faulted, idle block. -/
def faulted : State := { State.reset with fault := true, fcode := .noTree }

/-- An encoding session. -/
def encodingStart : State := { State.reset with session := .encoding }

/-- A decoding session with tokens delivered. -/
def decodingWith (tokens : List Token) : State := { State.reset with session := .decoding, bitSource := tokens }

/-- The two-leaf tree with tokens delivered. -/
def twoLeafWith (tokens : List Token) : State := { twoLeaf with bitSource := tokens }

theorem reset_counts (b : Byte) : countAt State.reset.freq b = 0 := countAt_zeroTable b

theorem twoLeaf_follow_notSeen : follow twoLeaf.arena twoLeaf.root [false] = some 256 := by decide
theorem twoLeaf_follow_endOfStream : follow twoLeaf.arena twoLeaf.root [true] = some 257 := by decide
theorem twoLeaf_follow_root : follow twoLeaf.arena twoLeaf.root [] = some 258 := by decide
theorem treeA_follow_A : follow treeA.arena treeA.root [true] = some 65 := by decide

theorem twoLeaf_inTree_notSeen : InTree twoLeaf 256 :=
  ⟨rfl, Reach.left (k := 0) (slot := ⟨256, 257, 0⟩) rfl Reach.root⟩
theorem twoLeaf_inTree_endOfStream : InTree twoLeaf 257 :=
  ⟨rfl, Reach.right (k := 0) (slot := ⟨256, 257, 0⟩) rfl Reach.root⟩

theorem twoLeaf_treeOk : TreeOk twoLeaf := by
  refine ⟨by decide, by decide, by decide, ?_, twoLeaf_inTree_notSeen, twoLeaf_inTree_endOfStream⟩
  intro k slot h
  match k, h with
  | 0, h =>
    obtain rfl : (⟨256, 257, 0⟩ : ArenaSlot) = slot := by simpa [twoLeaf] using h
    decide
  | k + 1, h => simp [twoLeaf] at h

theorem reset_widthsOk : WidthsOk State.reset := by
  refine ⟨fun b => ?_, by decide, by simp [State.reset], by simp [State.reset], by decide⟩
  rw [reset_counts b]; decide

/-! ## Encoding, fetching, faults -/

theorem witness_DecodeEncodeRoundTrip : decode 0x03000041 = .command (.ftRecord 0x41) := by decide
theorem witness_IllegalWordsExactly : decode 0x0E000000 = .illegal .unassignedOpcode ∧
    (accepted 0x0E000000).pending = some 0x0E000000 ∧ (accepted 0x0E000000).schedule = [] := by decide
theorem witness_StepRunsDecodedCommand : decode 0x03000041 = .command (.ftRecord 0x41) ∧
    (accepted 0x03000041).pending = some 0x03000041 ∧ (accepted 0x03000041).schedule = [] ∧
    { accepted 0x03000041 with schedule := [.blockTurn, .reset] }.schedule = .blockTurn :: [.reset] := by decide
theorem witness_IdleBlockKeepsStateAndAccepts :
    State.reset.busy = false ∧ State.reset.schedule = [] ∧ State.reset.fault = false := by decide
theorem witness_FaultsArePrecise :
    State.reset.fault = false ∧ ∃ t, exec .heapExtract State.reset = .next t ∧ t.fault = true :=
  ⟨rfl, next_of (check := fun t => t.fault) (by decide +kernel)⟩
theorem witness_FaultsArePrecise_decStep :
    ∃ t, exec .decStep { decodingWith [.one] with cntW := oneBit, freq := treeA.freq } = .next t ∧ t.fault = true :=
  next_of (check := fun t => t.fault) (by decide +kernel)
theorem witness_FaultCheckOrder_ranges :
    ¬ ((256 : Opnd).toNat ≤ 255 ∨ (256 : Opnd).toNat = 257) ∧ 255 < (256 : Opnd).toNat ∧ 256 < (257 : Opnd).toNat ∧
    1 < (2 : Opnd).toNat ∧ 258 + State.reset.nint ≤ (258 : Opnd).toNat := by decide
theorem witness_FaultCheckOrder_states :
    (255 : Opnd).toNat ≤ 255 ∧ State.reset.session ≠ .encoding ∧ State.reset.session ≠ .decoding ∧
    State.reset.treeValid = false ∧ State.reset.hsize = 0 ∧
    (257 : Opnd).toNat < 258 + State.reset.nint ∧ { State.reset with heap := List.replicate 258 ⟨0, 0⟩ }.hsize = 258 := by
  decide +kernel
theorem witness_FaultCheckOrder_overflow :
    (countAt (withCounts [(255, 1)]).freq ((255 : Opnd).setWidth 8)).toNat = 2 ^ oneBit.val - 1 ∧
    encodingStart.session = .encoding := by decide +kernel
theorem witness_FaultIsStickyUntilReset :
    faulted.fault = true ∧ faulted.pending = none ∧
    (∀ rest, { faulted with schedule := [.deliver .one] }.schedule ≠ .reset :: rest) ∧
    (∃ t, step { faulted with schedule := [.deliver .one] } = .next t ∧ t.fault = true) ∧
    ∃ t, perform .reset faulted = .next t ∧ true = true := by
  refine ⟨rfl, rfl, ?_, next_of (check := fun t => t.fault) (by decide +kernel),
    next_of (check := fun _ => true) (by decide +kernel)⟩
  intro rest h
  simp at h
theorem witness_OverrunRule : (accepted 0).busy = true ∧ (accepted 0).fault = false ∧ faulted.fault = true ∧
    ∃ t, exec .decode (accepted 0x0B000000) = .next t ∧ t.fault = true :=
  ⟨rfl, rfl, rfl, next_of (check := fun t => t.fault) (by decide +kernel)⟩
theorem witness_CommandCompletesOrWaits :
    (∃ t, exec .nop (accepted 0) = .next t ∧ (!t.busy) = true) ∧
    ∃ t, exec .decode { twoLeaf with pending := some 0x0B000000 } = .next t ∧ t.busy = true :=
  ⟨next_of (check := fun t => !t.busy) (by decide +kernel), next_of (check := fun t => t.busy) (by decide +kernel)⟩
theorem witness_ResetValues : ∃ t, exec (.sessInit 0) State.reset = .next t ∧ (t.session == .encoding) = true :=
  next_of (check := fun t => t.session == .encoding) (by decide +kernel)

/-! ## The host register space -/

theorem witness_StatusLayout : overrunWaiting.fcode = .overrun ∧ overrunWaiting.session = .decoding ∧
    overrunWaiting.dstat = .none := by decide
theorem witness_RegisterMapReads : State.reset.busy = false := rfl
theorem witness_CodewordPacking : State.reset.busy = false ∧ 8 ≤ 8 ∧ CodewordOk State.reset ∧
    State.reset.cwLen.toNat ≤ 32 * 8 + 31 := by
  refine ⟨rfl, Nat.le_refl _, ⟨by decide, fun i _ => ?_⟩, by decide⟩
  simp [State.reset]
theorem witness_FreqWindow : State.reset.busy = false ∧ WidthsOk State.reset ∧ State.reset.cntW.val ≤ 32 :=
  ⟨rfl, reset_widthsOk, by decide⟩
theorem witness_NodeWindow : twoLeaf.busy = false ∧ twoLeaf.arena[0]? = some ⟨256, 257, 0⟩ ∧ twoLeaf.nint ≤ 1 ∧ 1 ≤ 256 ∧
    twoLeaf.nint ≤ 256 ∧ 3 < 4 := by decide
theorem witness_HeapWindow : twoLeaf.busy = false ∧ twoLeaf.heap[0]? = some ⟨258, 0⟩ ∧ twoLeaf.hsize ≤ 257 ∧ 3 < 4 := by
  decide
theorem witness_BusyReadIsADraw : (accepted 0).busy = true ∧ MappedOffset (0x901C : Addr).toNat ∧ (0x901C : Addr) ≠ 0 ∧
    (0x901C : Addr) ≠ 4 := by
  refine ⟨rfl, ⟨by decide, by decide⟩, by decide, by decide⟩
theorem witness_BusErrorsAreRefused : (2 : Nat) ≠ 4 ∧ (0x0006 : Addr).toNat % 4 ≠ 0 ∧ ¬ MappedOffset (0x0038 : Addr).toNat ∧
    ¬ MappedOffset (0x1800 : Addr).toNat ∧ MappedOffset (0x0004 : Addr).toNat ∧ (0x0004 : Addr) ≠ 0 := by
  refine ⟨by decide, by decide, ?_, ?_, ⟨by decide, by decide⟩, by decide⟩ <;> · rintro ⟨-, h⟩; revert h; decide
theorem witness_DeliveredTokensQueueInOrder :
    { State.reset with schedule := [.deliver .other] }.schedule = .deliver .other :: [] := rfl

/-! ## The frequency table -/

theorem witness_FtResetRule :
    (0x02000001 : Word).extractLsb' 24 8 = 0x02 ∧ (0x02000001 : Word).extractLsb' 0 24 ≠ 0 := by decide
theorem witness_FtRecordRule :
    (0x03000441 : Word).extractLsb' 24 8 = 0x03 ∧ (0x03000441 : Word).extractLsb' 10 14 ≠ 0 ∧ 255 < (256 : Opnd).toNat ∧
    (255 : Opnd).toNat ≤ 255 ∧
    (countAt (withCounts [(255, 1)]).freq ((255 : Opnd).setWidth 8)).toNat = 2 ^ oneBit.val - 1 ∧
    (countAt (withCounts [(255, 1)]).freq ((255 : Opnd).setWidth 8)).toNat ≠ 2 ^ State.reset.cntW.val - 1 := by
  decide +kernel
theorem witness_FtQueryRule :
    (0x04800000 : Word).extractLsb' 24 8 = 0x04 ∧ (0x04800000 : Word).extractLsb' 10 14 ≠ 0 ∧ 255 < (1023 : Opnd).toNat ∧
    (255 : Opnd).toNat ≤ 255 := by decide
theorem witness_FtNextRule_none :
    (0x05000400 : Word).extractLsb' 24 8 = 0x05 ∧ (0x05000400 : Word).extractLsb' 10 14 ≠ 0 ∧ 256 < (257 : Opnd).toNat ∧
    (256 : Opnd).toNat ≤ 256 ∧ ∀ c : Byte, (256 : Opnd).toNat ≤ c.toNat → countAt State.reset.freq c = 0 :=
  ⟨by decide, by decide, by decide, by decide, fun c _ => reset_counts c⟩
theorem witness_FtNextRule_found :
    (255 : Opnd).toNat ≤ (255 : Byte).toNat ∧ countAt (withCounts [(255, 7)]).freq 255 ≠ 0 ∧
    ∀ c : Byte, (255 : Opnd).toNat ≤ c.toNat → c.toNat < (255 : Byte).toNat → countAt (withCounts [(255, 7)]).freq c = 0 := by
  refine ⟨by decide, by decide +kernel, fun c h h' => ?_⟩
  have e1 : (255 : Opnd).toNat = 255 := rfl
  have e2 : (255 : Byte).toNat = 255 := rfl
  omega
theorem witness_FrequencyFamilyFrame : ∃ o, (Instr.ftNext 257) = .ftNext o := ⟨257, rfl⟩
theorem witness_CountsGrowByAtMostOne : WidthsOk State.reset ∧
    (∃ t, exec (.ftRecord 65) State.reset = .next t ∧ (countAt t.freq 65 == 1) = true) ∧
    (Instr.ftRecord 65) ≠ .ftReset ∧ ∀ o, (Instr.ftRecord 65) ≠ .sessInit o :=
  ⟨reset_widthsOk, next_of (check := fun t => countAt t.freq 65 == 1) (by decide +kernel), by decide, fun o h => by simp at h⟩

/-! ## The heap -/

theorem witness_HeapClearRule :
    (0x06000001 : Word).extractLsb' 24 8 = 0x06 ∧ (0x06000001 : Word).extractLsb' 0 24 ≠ 0 := by decide
theorem witness_HeapInsertAddsTheWeightedNode :
    (258 : Opnd).toNat < 258 + twoLeaf.nint ∧ twoLeaf.hsize ≠ 258 ∧ twoLeaf.hsize ≠ 0 ∧
    (258 : Opnd).toNat = 258 + 0 ∧ twoLeaf.arena[0]? = some ⟨256, 257, 0⟩ ∧
    twoLeaf.heap[(twoLeaf.hsize - 1) / 2]? = some ⟨258, 0⟩ ∧ (0 : Weight).toNat ≤ (0 : Weight).toNat ∧
    (257 : Opnd).toNat = 257 ∧ (255 : Opnd).toNat ≤ 255 := by decide
theorem heapOrdered_two (x y : HeapEntry) (h : x.wgt.toNat ≤ y.wgt.toNat) : HeapOrdered [x, y] := by
  intro i a b hi ha hb
  match i, hi, ha, hb with
  | 1, _, ha, hb =>
    obtain rfl : x = a := by simpa using ha
    obtain rfl : y = b := by simpa using hb
    exact h
  | i + 2, _, _, hb => simp at hb
theorem witness_HeapExtractRemovesAMinimum :
    { State.reset with heap := [⟨1, 4⟩, ⟨2, 7⟩] }.heap = ⟨1, 4⟩ :: [⟨2, 7⟩] ∧
    ([⟨2, 7⟩] : List HeapEntry) = [] ++ [⟨2, 7⟩] ∧ HeapOrdered [⟨1, 4⟩, ⟨2, 7⟩] :=
  ⟨rfl, rfl, heapOrdered_two _ _ (by decide)⟩
theorem witness_HeapFamilyFrame : ∃ o, (Instr.heapInsert 1023) = .heapInsert o := ⟨1023, rfl⟩
theorem witness_StepKeepsHeapOrdered : HeapOrdered { twoLeaf with heap := [⟨256, 0⟩, ⟨257, 0⟩] }.heap ∧
    ∃ t, step { { twoLeaf with heap := [⟨256, 0⟩, ⟨257, 0⟩] } with pending := some 0x07000102 } = .next t ∧
      (t.hsize == 3) = true :=
  ⟨heapOrdered_two _ _ (by decide), next_of (check := fun t => t.hsize == 3) (by decide +kernel)⟩

/-! ## The tree builder -/

theorem witness_BuildMergesAddWeights :
    ∃ t, exec .build State.reset = .next t ∧ (t.arena[0]? == some ⟨256, 257, 0⟩) = true :=
  next_of (check := fun t => t.arena[0]? == some ⟨256, 257, 0⟩) (by decide +kernel)
theorem witness_BuildLeavesAreTheObservedSymbols : (257 : NodeIx).toNat ≤ 257 ∧
    ∃ t, exec .build (withCounts [(65, 1)]) = .next t ∧ (t.root == 259) = true :=
  ⟨by decide, next_of (check := fun t => t.root == 259) (by decide +kernel)⟩
theorem witness_BuildPathsAreUnique :
    (∃ t, exec .build State.reset = .next t ∧
      (follow t.arena t.root [true] == some 257 && t.arena == twoLeaf.arena && t.root == twoLeaf.root) = true) ∧
    InTree twoLeaf 257 :=
  ⟨next_of (check := fun t => follow t.arena t.root [true] == some 257 && t.arena == twoLeaf.arena &&
    t.root == twoLeaf.root) (by decide +kernel), twoLeaf_inTree_endOfStream⟩
theorem witness_BuildDependsOnTheTableAlone : State.reset.freq = encodingStart.freq ∧
    (∃ t, exec .build State.reset = .next t ∧ true = true) ∧ ∃ t, exec .build encodingStart = .next t ∧ true = true :=
  ⟨rfl, next_of (check := fun _ => true) (by decide +kernel), next_of (check := fun _ => true) (by decide +kernel)⟩
theorem witness_EmptyTableTree : ∀ b, countAt State.reset.freq b = 0 := reset_counts

/-! ## The translator -/

theorem witness_EncodeRule :
    (0x0A000400 : Word).extractLsb' 24 8 = 0x0A ∧ (0x0A000400 : Word).extractLsb' 10 14 ≠ 0 ∧
    ¬ ((256 : Opnd).toNat ≤ 255 ∨ (256 : Opnd).toNat = 257) ∧ ((257 : Opnd).toNat ≤ 255 ∨ (257 : Opnd).toNat = 257) ∧
    State.reset.treeValid = false ∧ twoLeaf.treeValid = true ∧ TreeOk twoLeaf :=
  ⟨by decide, by decide, by decide, by decide, rfl, rfl, twoLeaf_treeOk⟩
theorem witness_CodewordLengthBound : twoLeaf.treeValid = true ∧ TreeOk twoLeaf ∧
    ∃ t, exec (.encode 257) twoLeaf = .next t ∧ (t.cwLen == 1) = true :=
  ⟨rfl, twoLeaf_treeOk, next_of (check := fun t => t.cwLen == 1) (by decide +kernel)⟩
theorem witness_DecodeRule_words :
    (0x0B000001 : Word).extractLsb' 24 8 = 0x0B ∧ (0x0B000001 : Word).extractLsb' 0 24 ≠ 0 ∧
    State.reset.treeValid = false ∧ twoLeaf.treeValid = true := by decide
theorem witness_DecodeRule_leaf : WalkEnds treeA.arena treeA.root [.one] .leaf 65 [] :=
  WalkEnds.leaf (p := [true]) (n := 65) (rest := []) treeA_follow_A (by decide)
theorem witness_DecodeRule_literal :
    WalkEnds twoLeaf.arena twoLeaf.root
      [.zero, .zero, .one, .zero, .zero, .zero, .zero, .zero, .one, .other] .literal 0x41 [.other] :=
  WalkEnds.literal (p := [false]) (v := 0x41) (rest := [.other]) twoLeaf_follow_notSeen
theorem witness_DecodeRule_eos : WalkEnds twoLeaf.arena twoLeaf.root [.one, .one] .eos 257 [.one] :=
  WalkEnds.eos (p := [true]) (rest := [.one]) twoLeaf_follow_endOfStream
theorem witness_DecodeRule_truncCodeword : WalkEnds twoLeaf.arena twoLeaf.root [.other] .trunc 0x1FF [] :=
  WalkEnds.truncCodeword (p := []) (n := 258) (rest := []) twoLeaf_follow_root (by decide)
theorem witness_DecodeRule_truncLiteral :
    WalkEnds twoLeaf.arena twoLeaf.root [.zero, .one, .one, .one, .one, .one, .one, .one, .other] .trunc 0x1FF [] :=
  WalkEnds.truncLiteral (p := [false]) (q := [true, true, true, true, true, true, true]) (rest := [])
    twoLeaf_follow_notSeen (by decide)
theorem witness_DecodeRule_starvesInCodeword : WalkStarves twoLeaf.arena twoLeaf.root [] :=
  WalkStarves.inCodeword (p := []) (n := 258) twoLeaf_follow_root (by decide)
theorem witness_DecodeRule_starvesInLiteral :
    WalkStarves twoLeaf.arena twoLeaf.root [.zero, .one, .one, .one, .one, .one, .one, .one] :=
  WalkStarves.inLiteral (p := [false]) (q := [true, true, true, true, true, true, true]) twoLeaf_follow_notSeen (by decide)
theorem witness_DecodeEndsOrWaits : twoLeaf.treeValid = true ∧ TreeOk twoLeaf := ⟨rfl, twoLeaf_treeOk⟩
theorem witness_StarvedDecodeWaits : { twoLeaf with pending := some 0x0B000000 }.schedule = [] ∧
    { twoLeaf with pending := some 0x0B000000 }.treeValid = true ∧
    WalkStarves { twoLeaf with pending := some 0x0B000000 }.arena { twoLeaf with pending := some 0x0B000000 }.root
      { twoLeaf with pending := some 0x0B000000 }.bitSource :=
  ⟨rfl, rfl, witness_DecodeRule_starvesInCodeword⟩
theorem witness_DecodeInvertsEncode : twoLeaf.treeValid = true ∧ TreeOk twoLeaf ∧
    (∃ t, exec (.encode 255) twoLeaf = .next t ∧ (!t.found) = true) ∧
    ∃ t, exec (.encode 257) twoLeaf = .next t ∧ t.found = true :=
  ⟨rfl, twoLeaf_treeOk, next_of (check := fun t => !t.found) (by decide +kernel),
    next_of (check := fun t => t.found) (by decide +kernel)⟩
theorem witness_TranslatorFamilyFrame :
    (∃ o, (Instr.encode 257) = .encode o) ∧ ∃ t, exec (.encode 257) twoLeaf = .next t ∧ t.found = true :=
  ⟨⟨257, rfl⟩, next_of (check := fun t => t.found) (by decide +kernel)⟩

/-! ## The session sequencer -/

theorem witness_NopRule : (0x00000400 : Word).extractLsb' 24 8 = 0x00 ∧ (0x00000400 : Word).extractLsb' 0 24 ≠ 0 ∧
    faulted.fault = true := by decide
theorem witness_SessInitRule : (0x01000400 : Word).extractLsb' 24 8 = 0x01 ∧ (0x01000400 : Word).extractLsb' 10 14 ≠ 0 ∧
    1 < (2 : Opnd).toNat ∧ (1 : Opnd).toNat ≤ 1 := by decide
theorem witness_EncStepRule :
    (0x0C000400 : Word).extractLsb' 24 8 = 0x0C ∧ (0x0C000400 : Word).extractLsb' 10 14 ≠ 0 ∧
    ¬ ((258 : Opnd).toNat ≤ 255 ∨ (258 : Opnd).toNat = 257) ∧ State.reset.session ≠ .encoding ∧
    encodingStart.session = .encoding ∧ (255 : Opnd).toNat ≤ 255 ∧ (257 : Opnd).toNat = 257 ∧
    (countAt (withCounts [(255, 1)]).freq ((255 : Opnd).setWidth 8)).toNat = 2 ^ oneBit.val - 1 ∧
    (countAt encodingStart.freq ((255 : Opnd).setWidth 8)).toNat ≠ 2 ^ encodingStart.cntW.val - 1 := by decide +kernel
theorem witness_FirstOccurrenceSendsALiteral :
    (255 : Opnd).toNat ≤ 255 ∧ encodingStart.session = .encoding ∧
    (countAt encodingStart.freq ((255 : Opnd).setWidth 8)).toNat ≠ 2 ^ encodingStart.cntW.val - 1 ∧
    (∃ t, exec (.encStep 255) encodingStart = .next t ∧ (!t.found) = true) ∧
    ∃ t, exec (.encStep 65) { encodingStart with freq := treeA.freq } = .next t ∧ t.found = true :=
  ⟨by decide, rfl, by decide +kernel, next_of (check := fun t => !t.found) (by decide +kernel),
    next_of (check := fun t => t.found) (by decide +kernel)⟩
theorem witness_DecStepRule_words :
    (0x0D000001 : Word).extractLsb' 24 8 = 0x0D ∧ (0x0D000001 : Word).extractLsb' 0 24 ≠ 0 ∧
    State.reset.session ≠ .decoding ∧ (decodingWith []).session = .decoding := by decide
/-- The build of the empty table is the two-leaf tree, so the walks above are DEC_STEP's from `decodingWith`. -/
theorem witness_DecStepRule_build : ∃ b, exec .build (decodingWith [.one]) = .next b ∧
    (b.arena == twoLeaf.arena && b.root == twoLeaf.root) = true :=
  next_of (check := fun b => b.arena == twoLeaf.arena && b.root == twoLeaf.root) (by decide +kernel)
/-- The build of FREQ 65:1 is tree B2, whose leaf walk is above; with CNT_W = 1 the count is full, with 32 it is not. -/
theorem witness_DecStepRule_leaf :
    (∃ b, exec .build { decodingWith [.one] with freq := treeA.freq } = .next b ∧
      (b.arena == treeA.arena && b.root == treeA.root) = true) ∧
    (countAt treeA.freq ((65 : Sym).setWidth 8)).toNat = 2 ^ oneBit.val - 1 ∧
    (countAt treeA.freq ((65 : Sym).setWidth 8)).toNat ≠ 2 ^ State.reset.cntW.val - 1 :=
  ⟨next_of (check := fun b => b.arena == treeA.arena && b.root == treeA.root) (by decide +kernel),
    by decide +kernel, by decide +kernel⟩
theorem witness_SessionStateMachine :
    encodingStart.session = .encoding ∧ (255 : Opnd) ≠ 257 ∧
    (∃ t, exec (.encStep 255) encodingStart = .next t ∧ (t.session == .encoding) = true) ∧
    (∃ t, exec (.encStep 257) encodingStart = .next t ∧ (t.session == .done) = true) ∧
    { decodingWith [.one] with pending := some 0x0D000000 }.busy = true ∧
    (∃ t, exec .decStep { decodingWith [.one] with pending := some 0x0D000000 } = .next t ∧ (!t.busy) = true) ∧
    State.reset.session ≠ .encoding ∧ State.reset.session ≠ .decoding ∧
    (∃ t, exec .build State.reset = .next t ∧ t.treeValid = true) :=
  ⟨rfl, by decide, next_of (check := fun t => t.session == .encoding) (by decide +kernel),
    next_of (check := fun t => t.session == .done) (by decide +kernel), rfl,
    next_of (check := fun t => !t.busy) (by decide +kernel), by decide, by decide,
    next_of (check := fun t => t.treeValid) (by decide +kernel)⟩
theorem witness_StaleIsNeverRead : ∃ t, exec (.encStep 255) encodingStart = .next t ∧ t.stale = true :=
  next_of (check := fun t => t.stale) (by decide +kernel)
/-- One byte, encoded from reset; the decoder starts with exactly those bits. -/
theorem witness_DecoderReproducesTheEncodersBytes :
    ∃ e', runCommands (encoderSession [0x41]) State.reset = some e' ∧ e'.fault = false ∧
      ({ State.reset with bitSource := tokensOf (e'.bitSink.drop State.reset.bitSink.length) ++ [Token.other] }).bitSource =
        tokensOf (e'.bitSink.drop State.reset.bitSink.length) ++ [Token.other] := by
  have h : ((runCommands (encoderSession [0x41]) State.reset).map fun e => e.fault) = some false := by decide +kernel
  obtain ⟨e', he, hf⟩ := Option.map_eq_some_iff.mp h
  exact ⟨e', he, hf, rfl⟩

/-! ## Runs from reset -/

/-- The host writes `SESS_INIT 0`, `ENC_STEP 257` and HEAP_CLEAR from reset; the block takes its turn after each. -/
def emptyStream : State :=
  { State.reset with schedule := [.memWrite 4 0 0x01000000, .blockTurn, .memWrite 4 0 0x0C000101, .blockTurn,
      .memWrite 4 0 (encode .heapClear)] }

/-- A run is checked by its states' facts. -/
theorem after_of {n : Nat} {s : State} {check : State → Bool} (h : (afterSteps n s).any check = true) :
    ∃ t, afterSteps n s = some t ∧ check t = true := by
  cases hs : afterSteps n s with
  | none => simp [hs] at h
  | some t => exact ⟨t, rfl, by simpa [hs] using h⟩

/-- A check that passes of the state after k steps holds of it. -/
theorem check_after {k : Nat} {s u : State} {check : State → Bool} (h : (afterSteps k s).any check = true)
    (hu : afterSteps k s = some u) : check u = true := by
  simpa [hu] using h

/-- With and without the HEAP_CLEAR after DONE the run is at a good end, with the result `"1"` (R242, vector P1). -/
theorem test_encodeComplete (n : Nat) (hn : n = 4 ∨ n = 6) : ∃ t, RunFromReset emptyStream n t ∧
    t.schedule = emptyStream.schedule.drop n ∧ EndsAs emptyStream n t (.encodeComplete [true]) := by
  obtain ⟨t, ht, hc⟩ := after_of (n := n) (s := emptyStream) (check := fun t => t.busy == false && t.fault == false &&
    t.session == .done && t.bitSink == [true] && t.schedule == emptyStream.schedule.drop n)
    (by rcases hn with rfl | rfl <;> decide +kernel)
  simp only [Bool.and_eq_true, beq_iff_eq] at hc
  obtain ⟨⟨⟨⟨hb, hf⟩, hs⟩, hk⟩, hq⟩ := hc
  obtain ⟨u, hu, hd⟩ := after_of (n := 3) (s := emptyStream) (check := fun u => u.session == .encoding &&
    u.schedule.head? == some .blockTurn && u.pending == some 0x0C000101) (by decide +kernel)
  simp only [Bool.and_eq_true, beq_iff_eq] at hd
  obtain ⟨⟨he, hh⟩, hp⟩ := hd
  refine ⟨t, ⟨rfl, ht, fun k v hk hv => ?_⟩, hq, ⟨⟨hb, hf, hs⟩, ⟨3, u, by omega, hu, ⟨.inr hh, _, hp, by decide⟩,
    by rw [he]; decide, fun j v h3 h6 hv => ?_⟩, hk⟩⟩
  · have hall : ∀ k, k < 6 → (afterSteps k emptyStream).any (fun v => v.schedule.head? != some .reset) = true := by
      decide +kernel
    simpa using check_after (hall k (by omega)) hv
  · have hall : ∀ j, j < 7 → 3 < j → (afterSteps j emptyStream).any (fun v => v.session == .done) = true := by
      decide +kernel
    simpa using check_after (hall j (by omega) h3) hv

/-- A run that has run out with no session, and one that has run out with an encode session ended. -/
theorem witness_RunsEndInOneWay : RunFromReset State.reset 0 State.reset ∧ State.reset.schedule = [] ∧
    (∃ t, step State.reset = .next t ∧ (t == State.reset) = true) ∧
    ∃ t, RunFromReset emptyStream 6 t ∧ EndsAs emptyStream 6 t (.encodeComplete [true]) ∧ t.schedule = [] ∧
      step t = .next t := by
  refine ⟨⟨rfl, rfl, fun k u h => by omega⟩, rfl, next_of (check := fun t => t == State.reset) (by decide +kernel), ?_⟩
  obtain ⟨t, hr, hq, he⟩ := test_encodeComplete 6 (.inr rfl)
  have hq' : t.schedule = [] := by rw [hq]; rfl
  have hp : t.pending = none := by simpa [State.busy] using he.1.1
  exact ⟨t, hr, he, hq', (step_idle t hq').trans (blockStep_idle t hp)⟩
theorem witness_RunsEndInOneWay_afterDone : ∃ u t, RunFromReset emptyStream 4 u ∧
    u.schedule = [.memWrite 4 0 (encode .heapClear)] ∧ EndsAs emptyStream 4 u (.encodeComplete [true]) ∧
    (∀ o, Instr.heapClear ≠ .sessInit o) ∧ Instr.heapClear ≠ .decode ∧ afterSteps 2 u = some t ∧ t.fault = false := by
  obtain ⟨u, hr, hq, he⟩ := test_encodeComplete 4 (.inl rfl)
  obtain ⟨t, ht, hf⟩ := after_of (n := 6) (s := emptyStream) (check := fun t => t.fault == false) (by decide +kernel)
  rw [afterSteps_add 4 2, hr.2.1] at ht
  exact ⟨u, t, hr, hq, he, fun o h => by simp at h, by decide, ht, by simpa using hf⟩

/-! ## Invariants -/

theorem witness_StepKeepsSizesAndWidths : SizesOk State.reset ∧ WidthsOk State.reset ∧
    ∃ t, step { State.reset with schedule := [.memWrite 4 0 0x09000000] } = .next t ∧ t.busy = true :=
  ⟨⟨by decide, by decide⟩, reset_widthsOk, next_of (check := fun t => t.busy) (by decide +kernel)⟩
theorem witness_StepKeepsTreeShape : TreeOk twoLeaf ∧
    ∃ t, step { twoLeaf with schedule := [.memRead 4 0x0020] } = .next t ∧ (t.hostReads == [258]) = true :=
  ⟨twoLeaf_treeOk, next_of (check := fun t => t.hostReads == [258]) (by decide +kernel)⟩
theorem witness_StepKeepsCodewordRegister : SizesOk State.reset ∧ CodewordOk State.reset ∧
    ∃ t, step State.reset = .next t ∧ (!t.busy) = true :=
  ⟨⟨by decide, by decide⟩, witness_CodewordPacking.2.2.1, next_of (check := fun t => !t.busy) (by decide +kernel)⟩
theorem witness_StepKeepsFaultCode : FaultOk faulted ∧ ∃ t, step faulted = .next t ∧ t.fault = true :=
  ⟨by simp [FaultOk, faulted], next_of (check := fun t => t.fault) (by decide +kernel)⟩
theorem witness_NoModelFaultFromAGoodTree : TreeOk twoLeaf := twoLeaf_treeOk

end Sys2Proof.Tests
end

section
/-! PROOFS. The reset values, the ports a reset and SESS_INIT keep, and the STATUS register (spec/10_state.md R39, R42;
spec/70_reset_and_hazards.md R232). -/

namespace Sys2Proof.Machine

/-! ## The hardware reset and SESS_INIT -/

theorem perform_reset (s : State) : perform .reset s = .next (hardReset s) := rfl

@[simp] theorem hardReset_hsize (s : State) : (hardReset s).hsize = 0 := rfl
@[simp] theorem hardReset_nint (s : State) : (hardReset s).nint = 0 := rfl
@[simp] theorem hardReset_reset : hardReset State.reset = State.reset := rfl

@[simp] theorem countAt_reset (b : Byte) : countAt State.reset.freq b = 0 := countAt_zeroTable b

/-- Everything SESS_INIT can do (R192): the fault OPERAND_RANGE, or a new session in the mode of its operand. -/
theorem exec_sessInit_cases {o : Opnd} {s t : State} (h : exec (.sessInit o) s = .next t) :
    (modeLegal o = false ∧ t = raise .operandRange s) ∨
    (modeLegal o = true ∧ t = complete { s with
      freq := zeroTable, heap := [], arena := [], root := 0, treeValid := false, stale := false, dstat := .none,
      session := if o = 0 then .encoding else .decoding }) := by
  cases hm : modeLegal o with
  | false => exact .inl ⟨rfl, by simpa [exec, execSessInit, hm] using h.symm⟩
  | true => exact .inr ⟨rfl, by simpa [exec, execSessInit, hm] using h.symm⟩

theorem exec_sessInit_ports {o : Opnd} {s t : State} (h : exec (.sessInit o) s = .next t) :
    t.bitSource = s.bitSource ∧ t.bitSink = s.bitSink ∧ t.byteSink = s.byteSink := by
  obtain ⟨-, rfl⟩ | ⟨-, rfl⟩ := exec_sessInit_cases h
  · simp
  · simp

/-- Settles O11: the reset copies every register from `State.reset`, and both ways SESS_INIT can end keep the ports. -/
theorem resetValues : Obligations.ResetValues := by
  refine ⟨fun s => ⟨hardReset s, perform_reset s, countAt_reset, ?_⟩, ?_, fun _ _ _ h => exec_sessInit_ports h⟩
  · simp [State.reset]
  · rw [perform_reset, hardReset_reset]

/-! ## What a read returns -/

/-- A read the bus accepts, of a location that draws no value, returns the location's word (R40, R69). -/
theorem memReads_locationWord {s : State} {a : Nat} {loc : Location}
    (hr : resolve false 4 (BitVec.ofNat 16 a) = .ok loc) (hd : drawsValue s loc = false) :
    MemReads s a (locationWord s loc) := by
  simp [MemReads, perform, busRead, readValue, hr, hd]

/-- STATUS draws no value while BUSY = 1 either (R70). -/
@[simp] theorem drawsValue_status (s : State) : drawsValue s .status = false := by simp [drawsValue]

theorem memReads_status (s : State) : MemReads s 0x0004 (statusWord s) :=
  memReads_locationWord (loc := .status) (by decide) (drawsValue_status s)

/-! ## The fields of STATUS -/

/-- STATUS bit by bit, in the order of R39's table. -/
theorem getLsbD_statusWord (s : State) (i : Nat) : (statusWord s).getLsbD i =
    if i = 0 then s.busy
    else if i = 1 then s.fault
    else if i < 4 then false
    else if i < 8 then s.fcode.code.getLsbD (i - 4)
    else if i < 10 then s.session.code.getLsbD (i - 8)
    else if i = 10 then s.treeValid
    else if i = 11 then s.stale
    else if i = 12 then s.found
    else if i = 13 then s.hit
    else if i < 16 then false
    else if i < 19 then s.dstat.code.getLsbD (i - 16)
    else false := by
  refine BitVec.getLsbD_append.trans ?_
  simp only [BitVec.getLsbD_append, bit, BitVec.getLsbD_ofBool, BitVec.getLsbD_zero, Nat.sub_eq_zero_iff_le]
  rcases Nat.lt_or_ge i 10 with low | high
  · grind
  · grind

/-- A field of a word is the value whose bits it holds. -/
theorem extractLsb'_eq_of_getLsbD {n len : Nat} {w : BitVec n} {v : BitVec len} (start : Nat)
    (h : ∀ j < len, w.getLsbD (start + j) = v.getLsbD j) : w.extractLsb' start len = v :=
  BitVec.eq_of_getLsbD_eq fun j hj => by simp [hj, h j hj]

theorem statusWord_fcode (s : State) : (statusWord s).extractLsb' 4 4 = s.fcode.code :=
  extractLsb'_eq_of_getLsbD 4 fun j hj => by grind [getLsbD_statusWord]

theorem statusWord_session (s : State) : (statusWord s).extractLsb' 8 2 = s.session.code :=
  extractLsb'_eq_of_getLsbD 8 fun j hj => by grind [getLsbD_statusWord]

theorem statusWord_dstat (s : State) : (statusWord s).extractLsb' 16 3 = s.dstat.code :=
  extractLsb'_eq_of_getLsbD 16 fun j hj => by grind [getLsbD_statusWord]

/-- "Every bit not listed reads 0" (R39). -/
theorem statusWord_unlisted (s : State) : (statusWord s).extractLsb' 2 2 = 0 ∧
    (statusWord s).extractLsb' 14 2 = 0 ∧ (statusWord s).extractLsb' 19 13 = 0 := by
  refine ⟨extractLsb'_eq_of_getLsbD 2 ?_, extractLsb'_eq_of_getLsbD 14 ?_, extractLsb'_eq_of_getLsbD 19 ?_⟩
  all_goals
    intro j hj
    grind [getLsbD_statusWord]

theorem statusWord_reset : statusWord State.reset = 0 := by decide

/-- A field that holds the code of a value agrees with every table of the codes. -/
theorem field_eq_of_code_table {α : Type} {n : Nat} {code : α → BitVec n} {table : List (α × BitVec n)} {a : α}
    {field : BitVec n} (hf : field = code a) (ht : ∀ x ∈ table, code x.1 = x.2) :
    ∀ x ∈ table, a = x.1 → field = x.2 :=
  fun x hx ha => by rw [hf, ha, ht x hx]

/-- Settles O12: a read of STATUS returns `statusWord` in every state, and `statusWord` has R39's fields. -/
theorem statusLayout : Obligations.StatusLayout := by
  refine ⟨fun s => ⟨statusWord s, memReads_status s, ?_⟩, statusWord_reset ▸ memReads_status State.reset⟩
  obtain ⟨bits2to3, bits14to15, bits19to31⟩ := statusWord_unlisted s
  have bits := getLsbD_statusWord s
  exact ⟨bits 0, bits 1, bits2to3, field_eq_of_code_table (statusWord_fcode s) (by decide),
    field_eq_of_code_table (statusWord_session s) (by decide), bits 10, bits 11, bits 12, bits 13, bits14to15,
    field_eq_of_code_table (statusWord_dstat s) (by decide), bits19to31⟩

end Sys2Proof.Machine
end

section
/-! PROOFS. The host register space: the register map and the accesses the bus rejects, then the words of the codeword
register and of the FREQ, NODE and HEAP windows (spec/20_memory.md R61 to R68). -/

namespace Sys2Proof.Machine

/-! ## The register map, region by region -/

theorem locate_codeword {a : Addr} (lo : 0x0040 ≤ a.toNat) (hi : a.toNat ≤ 0x0060) :
    locate a = some (.cw ((a.toNat - 0x0040) / 4)) := by
  simp only [locate]
  rw [if_neg (by omega), if_pos hi]

theorem locate_freqWindow {a : Addr} (lo : 0x1000 ≤ a.toNat) (hi : a.toNat ≤ 0x17FF) :
    locate a = some (.freq (BitVec.ofNat 8 ((a.toNat - 0x1000) / 8)) (decide (a.toNat / 4 % 2 = 1))) := by
  simp only [locate]
  rw [if_neg (by omega), if_neg (by omega), if_pos ⟨lo, hi⟩]

theorem locate_nodeWindow {a : Addr} (lo : 0x4000 ≤ a.toNat) (hi : a.toNat ≤ 0x602F) :
    locate a = some (.node (BitVec.ofNat 10 ((a.toNat - 0x4000) / 16)) (a.toNat / 4 % 4)) := by
  simp only [locate]
  rw [if_neg (by omega), if_neg (by omega), if_neg (by omega), if_pos ⟨lo, hi⟩]

theorem locate_heapWindow {a : Addr} (lo : 0x8000 ≤ a.toNat) (hi : a.toNat ≤ 0x901F) :
    locate a = some (.heap ((a.toNat - 0x8000) / 16) (a.toNat / 4 % 4)) := by
  simp only [locate]
  rw [if_neg (by omega), if_neg (by omega), if_neg (by omega), if_neg (by omega), if_pos ⟨lo, hi⟩]

/-- From 0x0040 up, what is in no region of R40 is not mapped. -/
theorem locate_gap {a : Addr} (lo : 0x0040 ≤ a.toNat) (hm : ¬ MappedOffset a.toNat) (ha : a.toNat % 4 = 0) :
    locate a = none := by
  simp only [MappedOffset] at hm
  simp only [locate]
  rw [if_neg (by omega), if_neg (by omega), if_neg (by omega), if_neg (by omega), if_neg (by omega)]

/-- The registers below 0x0040: 0x0034 is the last one. -/
theorem locate_register_isSome_iff : ∀ n < 0x0040, n % 4 = 0 →
    ((locate (BitVec.ofNat 16 n)).isSome = true ↔ n ≤ 0x0034) := by decide

theorem locate_register_eq_cmd_iff : ∀ n < 0x0040, (locate (BitVec.ofNat 16 n) = some .cmd ↔ n = 0) := by decide

/-- The offset lies among the registers below 0x0040, in one of the four regions above them, or in none. -/
theorem locate_cases (a : Addr) (ha : a.toNat % 4 = 0) :
    a.toNat < 0x0040 ∨
    (0x0040 ≤ a.toNat ∧ MappedOffset a.toNat ∧ ∃ loc, locate a = some loc ∧ loc ≠ .cmd) ∨
    (0x0040 ≤ a.toNat ∧ ¬ MappedOffset a.toNat ∧ locate a = none) := by
  rcases Nat.lt_or_ge a.toNat 0x0040 with low | lo
  · exact .inl low
  by_cases hm : MappedOffset a.toNat
  · refine .inr (.inl ⟨lo, hm, ?_⟩)
    obtain ⟨-, reg | ⟨l, h⟩ | ⟨l, h⟩ | ⟨l, h⟩ | ⟨l, h⟩⟩ := hm
    · omega
    · exact ⟨_, locate_codeword l h, by simp⟩
    · exact ⟨_, locate_freqWindow l h, by simp⟩
    · exact ⟨_, locate_nodeWindow l h, by simp⟩
    · exact ⟨_, locate_heapWindow l h, by simp⟩
  · exact .inr (.inr ⟨lo, hm, locate_gap lo hm ha⟩)

/-- R40 lists exactly the offsets that reach a location (R62). -/
theorem locate_isSome_iff {a : Addr} (ha : a.toNat % 4 = 0) : (locate a).isSome = true ↔ MappedOffset a.toNat := by
  obtain low | ⟨-, hm, loc, hl, -⟩ | ⟨-, hm, hl⟩ := locate_cases a ha
  · have hreg := locate_register_isSome_iff a.toNat low ha
    rw [BitVec.ofNat_toNat, BitVec.setWidth_eq] at hreg
    rw [hreg]
    simp only [MappedOffset]
    omega
  · simp [hl, hm]
  · simp [hl, hm]

/-- CMD is at offset 0 and nowhere else (R40). -/
theorem locate_eq_cmd_iff {a : Addr} (ha : a.toNat % 4 = 0) : locate a = some .cmd ↔ a = 0 := by
  have hz : a = 0 ↔ a.toNat = 0 := BitVec.toNat_inj.symm
  obtain low | ⟨lo, -, loc, hl, hc⟩ | ⟨lo, -, hl⟩ := locate_cases a ha
  · have hreg := locate_register_eq_cmd_iff a.toNat low
    rw [BitVec.ofNat_toNat, BitVec.setWidth_eq] at hreg
    rw [hreg, hz]
  · simp only [hl, hz, Option.some.injEq, hc, false_iff]
    omega
  · simp only [hl, hz, reduceCtorEq, false_iff]
    omega

/-! ## The accesses the bus rejects -/

/-- Width, alignment and mapping are checked alike for reads and writes (R61, R62). -/
theorem resolve_error {bytes : Nat} {a : Addr} (h : bytes ≠ 4 ∨ a.toNat % 4 ≠ 0 ∨ ¬ MappedOffset a.toNat)
    (write : Bool) : ∃ e, resolve write bytes a = .error e := by
  by_cases hw : bytes = 4
  · by_cases ha : a.toNat % 4 = 0
    · have hm : ¬ MappedOffset a.toNat := by tauto
      have hl : locate a = none := by simpa using (locate_isSome_iff ha).not.mpr hm
      exact ⟨.unmapped, by simp [resolve, hw, ha, hl]⟩
    · exact ⟨.misaligned, by simp [resolve, hw, ha]⟩
  · exact ⟨.width, by simp [resolve, hw]⟩

/-- At a mapped offset only the direction is left to check: CMD is written, every other location is read (R63). -/
theorem resolve_mapped {a : Addr} (hm : MappedOffset a.toNat) (write : Bool) :
    ∃ loc, resolve write 4 a = if write = decide (a = 0) then .ok loc else .error .direction := by
  obtain ⟨loc, hl⟩ := Option.isSome_iff_exists.mp ((locate_isSome_iff hm.1).mpr hm)
  have hc : loc = .cmd ↔ a = 0 := by rw [← locate_eq_cmd_iff hm.1, hl, Option.some.injEq]
  exact ⟨loc, by simp [resolve, hm.1, hl, hc]⟩

theorem mappedOffset_zero : MappedOffset (0 : Addr).toNat := ⟨by decide, by decide⟩

theorem perform_memRead_error {s : State} {bytes : Nat} {a : Addr} {e : BusError}
    (h : resolve false bytes a = .error e) : perform (.memRead bytes a) s = .refused (.busError e) := by
  simp [perform, busRead, h]

theorem perform_memWrite_error {s : State} {bytes : Nat} {a : Addr} {v : Word} {e : BusError}
    (h : resolve true bytes a = .error e) : perform (.memWrite bytes a v) s = .refused (.busError e) := by
  simp [perform, busWrite, h]

theorem perform_memRead_ok {s : State} {bytes : Nat} {a : Addr} {loc : Location}
    (h : resolve false bytes a = .ok loc) : ∃ t, perform (.memRead bytes a) s = .next t :=
  ⟨_, by rw [perform, busRead, h]⟩

theorem perform_memWrite_ok {s : State} {bytes : Nat} {a : Addr} {v : Word} {loc : Location}
    (h : resolve true bytes a = .ok loc) : perform (.memWrite bytes a v) s = .next (acceptCommand v s) := by
  simp [perform, busWrite, h]

/-- Settles O19: the bus resolves an access to a location exactly where R61 to R63 allow it, and reads and writes
end as it resolves. -/
theorem busErrorsAreRefused : Obligations.BusErrorsAreRefused := by
  refine ⟨fun s bytes a v h => ?_, fun s a v hm h0 => ?_, fun s => ?_, fun s a hm h0 => ?_, fun s v => ?_⟩
  · obtain ⟨e, hr⟩ := resolve_error h false
    obtain ⟨e', hw⟩ := resolve_error h true
    exact ⟨⟨e, perform_memRead_error hr⟩, e', perform_memWrite_error hw⟩
  · obtain ⟨loc, hr⟩ := resolve_mapped hm true
    exact perform_memWrite_error (by rw [hr, decide_eq_false h0, if_neg (by decide)])
  · obtain ⟨loc, hr⟩ := resolve_mapped mappedOffset_zero false
    exact perform_memRead_error (by simpa using hr)
  · obtain ⟨loc, hr⟩ := resolve_mapped hm false
    exact perform_memRead_ok (loc := loc) (by rw [hr, decide_eq_false h0, if_pos rfl])
  · obtain ⟨loc, hr⟩ := resolve_mapped mappedOffset_zero true
    exact ⟨_, perform_memWrite_ok (loc := loc) (by simpa using hr)⟩

/-! ## What a read of a window returns -/

/-- A read of a mapped location other than CMD, while no command runs, returns the location's word. -/
theorem memReads_of_locate {s : State} {a : Nat} {loc : Location} (hs : s.busy = false)
    (ha : (BitVec.ofNat 16 a).toNat % 4 = 0) (hl : locate (BitVec.ofNat 16 a) = some loc) (hc : loc ≠ .cmd) :
    MemReads s a (locationWord s loc) :=
  have hr : resolve false 4 (BitVec.ofNat 16 a) = .ok loc := by
    rw [resolve, if_neg (by decide), if_neg (not_not.mpr ha)]
    simp [hl, hc]
  memReads_locationWord hr (by simp [drawsValue, hs])

theorem toNat_addr {a : Nat} (h : a ≤ 0x901F) : (BitVec.ofNat 16 a).toNat = a := by
  rw [BitVec.toNat_ofNat]
  omega

theorem memReads_codeword {s : State} {j : Nat} (hs : s.busy = false) (hj : j ≤ 8) :
    MemReads s (0x0040 + 4 * j) (s.cw.extractLsb' (32 * j) 32) := by
  have ha : (BitVec.ofNat 16 (0x0040 + 4 * j)).toNat = 0x0040 + 4 * j := toNat_addr (by omega)
  have hl := locate_codeword (a := BitVec.ofNat 16 (0x0040 + 4 * j)) (by omega) (by omega)
  rw [ha, show (0x0040 + 4 * j - 0x0040) / 4 = j by omega] at hl
  exact memReads_of_locate hs (by omega) hl (by simp)

/-- Word `k` of `FREQ[b]`, the low one and then the high one (R66). -/
theorem memReads_freq {s : State} (b : Byte) {k : Nat} (hs : s.busy = false) (hk : k < 2) :
    MemReads s (0x1000 + 8 * b.toNat + 4 * k) (locationWord s (.freq b (decide (k = 1)))) := by
  have hb := b.isLt
  have ha : (BitVec.ofNat 16 (0x1000 + 8 * b.toNat + 4 * k)).toNat = 0x1000 + 8 * b.toNat + 4 * k :=
    toNat_addr (by omega)
  have hl := locate_freqWindow (a := BitVec.ofNat 16 (0x1000 + 8 * b.toNat + 4 * k)) (by omega) (by omega)
  rw [ha, show (0x1000 + 8 * b.toNat + 4 * k - 0x1000) / 8 = b.toNat by omega,
    show (0x1000 + 8 * b.toNat + 4 * k) / 4 % 2 = k by omega, BitVec.ofNat_toNat, BitVec.setWidth_eq] at hl
  exact memReads_of_locate hs (by omega) hl (by simp)

/-- Word `k` of node n's record (R67). -/
theorem memReads_node {s : State} {n k : Nat} {w : Word} (hs : s.busy = false) (hn : n ≤ 514) (hk : k < 4)
    (hw : nodeWord s (BitVec.ofNat 10 n) k = w) : MemReads s (0x4000 + 16 * n + 4 * k) w := by
  have ha : (BitVec.ofNat 16 (0x4000 + 16 * n + 4 * k)).toNat = 0x4000 + 16 * n + 4 * k := toNat_addr (by omega)
  have hl := locate_nodeWindow (a := BitVec.ofNat 16 (0x4000 + 16 * n + 4 * k)) (by omega) (by omega)
  rw [ha, show (0x4000 + 16 * n + 4 * k - 0x4000) / 16 = n by omega,
    show (0x4000 + 16 * n + 4 * k) / 4 % 4 = k by omega] at hl
  exact hw ▸ memReads_of_locate hs (by omega) hl (by simp)

/-- Word `k` of heap entry i's record (R68). -/
theorem memReads_heap {s : State} {i k : Nat} {w : Word} (hs : s.busy = false) (hi : i ≤ 257) (hk : k < 4)
    (hw : heapWord s i k = w) : MemReads s (0x8000 + 16 * i + 4 * k) w := by
  have ha : (BitVec.ofNat 16 (0x8000 + 16 * i + 4 * k)).toNat = 0x8000 + 16 * i + 4 * k := toNat_addr (by omega)
  have hl := locate_heapWindow (a := BitVec.ofNat 16 (0x8000 + 16 * i + 4 * k)) (by omega) (by omega)
  rw [ha, show (0x8000 + 16 * i + 4 * k - 0x8000) / 16 = i by omega,
    show (0x8000 + 16 * i + 4 * k) / 4 % 4 = k by omega] at hl
  exact hw ▸ memReads_of_locate hs (by omega) hl (by simp)

/-! ## The codeword register and the FREQ window -/

/-- Settles O14: CWj is 32 bits of CW from bit 32j; CW ends at bit 257, which is bit 1 of CW8. -/
theorem codewordPacking : Obligations.CodewordPacking := by
  intro s j hs hj
  have bits (i : Nat) (hi : i < 32) : (s.cw.extractLsb' (32 * j) 32).getLsbD i = s.cw.getLsbD (32 * j + i) := by
    simp [hi]
  refine ⟨_, memReads_codeword hs hj, bits, fun hj8 i hi => ?_, fun ⟨_, beyond⟩ i hi hlen => ?_⟩
  · rw [BitVec.getLsbD_extractLsb', BitVec.getLsbD_of_ge _ (32 * j + i) (by omega), Bool.and_false]
  · rw [bits i hi, beyond _ hlen]

/-- A count is below 2^CNT_W, so it fits one word when CNT_W is at most 32. -/
theorem count_highWord_eq_zero {s : State} (b : Byte) (hw : WidthsOk s) (h32 : s.cntW.val ≤ 32) :
    highWord (countAt s.freq b).toNat = 0 := by
  obtain ⟨counts, -⟩ := hw
  have hb : (countAt s.freq b).toNat < 2 ^ 32 :=
    (counts b).trans_le (Nat.pow_le_pow_right (by decide) h32)
  rw [highWord, Nat.div_eq_of_lt hb]
  rfl

/-- Settles O15: the two words of a count, the high one 0 for a count below 2^32. -/
theorem freqWindow : Obligations.FreqWindow := by
  intro s b hs
  have high := memReads_freq b hs (k := 1) (by decide)
  exact ⟨memReads_freq b hs (k := 0) (by decide), high, fun hw h32 => count_highWord_eq_zero b hw h32 ▸ high⟩

/-! ## The NODE window -/

/-- A leaf's record: its weight, then ISINT, LEFT and RIGHT all 0. -/
theorem nodeWord_leaf {s : State} {n : NodeIx} (hn : n.toNat < 258) :
    nodeWord s n 0 = lowWord (weightOf s.freq s.arena n).toNat ∧
    nodeWord s n 1 = highWord (weightOf s.freq s.arena n).toNat ∧ nodeWord s n 2 = 0 ∧ nodeWord s n 3 = 0 := by
  have hl : isLeaf n = true := (isLeaf_iff n).mpr hn
  exact ⟨rfl, rfl, by simp [nodeWord, hl], by simp [nodeWord, hl]⟩

theorem weightOf_byteLeaf (freq : Vector Count 256) (arena : List ArenaSlot) (b : Byte) :
    (weightOf freq arena (BitVec.ofNat 10 b.toNat)).toNat = (countAt freq b).toNat := by
  have hb := b.isLt
  have hn : (BitVec.ofNat 10 b.toNat).toNat = b.toNat := by rw [BitVec.toNat_ofNat]; omega
  have hbyte : byteOf (BitVec.ofNat 10 b.toNat) = b := by
    apply BitVec.eq_of_toNat_eq
    rw [byteOf, BitVec.toNat_setWidth, hn, Nat.mod_eq_of_lt hb]
  rw [weightOf, if_pos (by omega), hbyte, BitVec.toNat_setWidth_of_le (by decide)]

theorem weightOf_sentinel (freq : Vector Count 256) (arena : List ArenaSlot) {n : NodeIx} (lo : 255 < n.toNat)
    (hi : n.toNat ≤ 257) : weightOf freq arena n = 0 := by
  rw [weightOf, if_neg (by omega), if_pos hi]

theorem toNat_internalNode {k : Nat} (hk : k ≤ 256) : (internalNode k).toNat = 258 + k :=
  Nat.mod_eq_of_lt (by omega)

theorem slotOf_internalNode {k : Nat} (hk : k ≤ 256) : slotOf (internalNode k) = k :=
  Nat.sub_eq_of_eq_add' (toNat_internalNode hk)

theorem isLeaf_internalNode {k : Nat} (hk : k ≤ 256) : isLeaf (internalNode k) = false :=
  isLeaf_eq_false _ (by rw [toNat_internalNode hk]; omega)

/-- The weight of an internal node is that of its slot, and 0 where the slot is free (R25, R67). -/
theorem weightOf_internalNode (freq : Vector Count 256) (arena : List ArenaSlot) {k : Nat} (hk : k ≤ 256) :
    weightOf freq arena (internalNode k) = (arena[k]?.map (·.wint)).getD 0 := by
  have hn := toNat_internalNode hk
  rw [weightOf, if_neg (by omega), if_neg (by omega), slotOf_internalNode hk]
  cases arena[k]? <;> rfl

/-- ISINT in bit 31, LEFT below it. -/
theorem isint_or_left (left : NodeIx) :
    0x80000000#32 ||| left.setWidth 32 = BitVec.ofNat 32 (2 ^ 31 + left.toNat) := by
  have hleft := left.isLt
  have hor : 2 ^ 31 ||| left.toNat = 2 ^ 31 + left.toNat := by
    simpa using (Nat.two_pow_add_eq_or_of_lt (i := 31) (by omega : left.toNat < 2 ^ 31) 1).symm
  rw [← hor, BitVec.ofNat_or]
  simp

/-- A live internal node's record: WINT, ISINT = 1 with LEFT, RIGHT. -/
theorem nodeWord_live {s : State} {k : Nat} {slot : ArenaSlot} (hk : k ≤ 256) (hslot : s.arena[k]? = some slot) :
    nodeWord s (internalNode k) 0 = lowWord slot.wint.toNat ∧
    nodeWord s (internalNode k) 1 = highWord slot.wint.toNat ∧
    nodeWord s (internalNode k) 2 = BitVec.ofNat 32 (2 ^ 31 + slot.left.toNat) ∧
    nodeWord s (internalNode k) 3 = BitVec.ofNat 32 slot.right.toNat := by
  have hl := isLeaf_internalNode hk
  have hk' := slotOf_internalNode hk
  have hw : weightOf s.freq s.arena (internalNode k) = slot.wint := by simp [weightOf_internalNode _ _ hk, hslot]
  refine ⟨by rw [nodeWord, hw], by rw [nodeWord, hw], ?_, ?_⟩
  · simpa [nodeWord, hl, hk', hslot] using isint_or_left slot.left
  · simp [nodeWord, hl, hk', hslot]

/-- A free internal node's record is all 0. -/
theorem nodeWord_free {s : State} {k : Nat} (hk : k ≤ 256) (hfree : s.nint ≤ k) (j : Nat) :
    nodeWord s (internalNode k) j = 0 := by
  have hslot : s.arena[k]? = none := List.getElem?_eq_none hfree
  have hw : weightOf s.freq s.arena (internalNode k) = 0 := by simp [weightOf_internalNode _ _ hk, hslot]
  match j with
  | 0 => rw [nodeWord, hw]; rfl
  | 1 => rw [nodeWord, hw]; rfl
  | j + 2 => simp [nodeWord, isLeaf_internalNode hk, slotOf_internalNode hk, hslot]

/-- A sentinel leaf's record is all 0. -/
theorem nodeWord_sentinel {s : State} {n : NodeIx} (lo : 255 < n.toNat) (hi : n.toNat ≤ 257) {k : Nat} (hk : k < 4) :
    nodeWord s n k = 0 := by
  obtain ⟨word0, word1, word2, word3⟩ := nodeWord_leaf (s := s) (n := n) (by omega)
  rw [weightOf_sentinel _ _ lo hi] at word0 word1
  match k, hk with
  | 0, _ => exact word0
  | 1, _ => exact word1
  | 2, _ => exact word2
  | 3, _ => exact word3

/-- Settles O16: each word of a record is `nodeWord`, taken at a byte leaf, a sentinel, a live and a free slot. -/
theorem nodeWindow : Obligations.NodeWindow := by
  intro s hs
  refine ⟨fun b => ?_, fun n k hn hk => ?_, fun k slot hk hslot => ?_, fun k j hfree hk hj => ?_⟩
  · have hb := b.isLt
    have reads {k : Nat} (hk : k < 4) {w : Word} := memReads_node (n := b.toNat) (w := w) hs (by omega) hk
    obtain ⟨word0, word1, word2, word3⟩ := nodeWord_leaf (s := s) (n := BitVec.ofNat 10 b.toNat)
      (by rw [BitVec.toNat_ofNat]; omega)
    rw [weightOf_byteLeaf] at word0 word1
    exact ⟨reads (by decide) word0, reads (by decide) word1, reads (by decide) word2, reads (by decide) word3⟩
  · have ht : (BitVec.ofNat 10 n).toNat = n := by rw [BitVec.toNat_ofNat]; omega
    exact memReads_node hs (by omega) hk (nodeWord_sentinel (by omega) (by omega) hk)
  · have reads {j : Nat} (hj : j < 4) {w : Word} := memReads_node (n := 258 + k) (w := w) hs (by omega) hj
    obtain ⟨word0, word1, word2, word3⟩ := nodeWord_live hk hslot
    exact ⟨reads (by decide) word0, reads (by decide) word1, reads (by decide) word2, reads (by decide) word3⟩
  · exact memReads_node hs (by omega) hj (nodeWord_free hk hfree j)

/-! ## The HEAP window -/

/-- A live entry's record: the node, the two words of its weight, and 0. -/
theorem heapWord_live {s : State} {i : Nat} {e : HeapEntry} (he : s.heap[i]? = some e) :
    heapWord s i 0 = BitVec.ofNat 32 e.node.toNat ∧ heapWord s i 1 = lowWord e.wgt.toNat ∧
    heapWord s i 2 = highWord e.wgt.toNat ∧ heapWord s i 3 = 0 := by
  simp [heapWord, he]

theorem heapWord_free {s : State} {i : Nat} (hfree : s.hsize ≤ i) (k : Nat) : heapWord s i k = 0 := by
  rw [heapWord, List.getElem?_eq_none hfree]

/-- Settles O17: each word of a record is `heapWord`, taken at a live entry and from HSIZE up. -/
theorem heapWindow : Obligations.HeapWindow := by
  intro s i hs hi
  have reads {k : Nat} (hk : k < 4) {w : Word} := memReads_heap (w := w) hs hi hk
  refine ⟨fun e he => ?_, fun hfree k hk => reads hk (heapWord_free hfree k)⟩
  obtain ⟨word0, word1, word2, word3⟩ := heapWord_live he
  exact ⟨reads (by decide) word0, reads (by decide) word1, reads (by decide) word2, reads (by decide) word3⟩

end Sys2Proof.Machine
end

section
/-! PROOFS. The decoder: the opcode map, the words it answers with a command and the Illegal ones (spec/30_encoding.md
R81 to R86). -/

namespace Sys2Proof

/-! ## The opcode map -/

/-- The assigned opcodes are 0x00 to 0x0D (R85). -/
theorem commandOf_eq_none_iff (op : Nat) (o : Opnd) : commandOf op o = none ↔ 0x0D < op := by
  rcases Nat.lt_or_ge 0x0D op with unassigned | assigned
  · obtain ⟨k, rfl⟩ := Nat.exists_eq_add_of_le' unassigned
    exact iff_of_true rfl unassigned
  · interval_cases op <;> simp [commandOf]

/-- The opcodes of form NONE (R81, R82). -/
theorem formOfOp_eq_some_none_iff (op : Nat) :
    formOfOp op = some .none ↔ op ∈ [0x00, 0x02, 0x06, 0x08, 0x09, 0x0B, 0x0D] := by
  rcases Nat.lt_or_ge 0x0D op with unassigned | assigned
  · obtain ⟨k, rfl⟩ := Nat.exists_eq_add_of_le' unassigned
    simp [formOfOp]
  · interval_cases op <;> decide

/-- The command of an assigned opcode has that opcode, and the operand field unless its form is NONE. -/
theorem opcodeOf_operandOf_of_commandOf {op : Nat} {o : Opnd} {i : Instr} (h : commandOf op o = some i) :
    (opcodeOf i).toNat = op ∧ operandOf i = if formOfOp op = some .none then 0 else o := by
  unfold commandOf at h
  split at h
  case h_15 => cases h
  all_goals
    cases h
    exact ⟨rfl, rfl⟩

/-! ## The decoder's answers -/

/-- The words that decode to a command: OP is assigned, RSV is 0, and OPND is 0 where the form is NONE (R86). -/
theorem decode_eq_command_iff (w : Word) (i : Instr) : decode w = .command i ↔
    commandOf (opField w).toNat (opndField w) = some i ∧ rsvField w = 0 ∧
      (formOfOp (opField w).toNat = some .none → opndField w = 0) := by
  unfold decode
  cases commandOf (opField w).toNat (opndField w) with
  | none => simp
  | some j =>
    dsimp only
    by_cases reserved : rsvField w ≠ 0
    · rw [if_pos reserved]
      exact iff_of_false nofun fun ⟨_, hr, _⟩ => reserved hr
    by_cases stray : formOfOp (opField w).toNat = some .none ∧ opndField w ≠ 0
    · rw [if_neg reserved, if_pos stray]
      exact iff_of_false nofun fun ⟨_, _, hz⟩ => stray.2 (hz stray.1)
    · rw [if_neg reserved, if_neg stray]
      simpa [not_not.mp reserved] using fun _ => not_and_not_right.mp stray

/-- A word that decodes to no command is Illegal: the decoder is total (R86). -/
theorem decode_illegal_iff (w : Word) : (∃ why, decode w = .illegal why) ↔ ∀ i, decode w ≠ .command i := by
  cases decode w <;> simp

/-- The Illegal words (R83, R84, R85). -/
theorem decode_illegal_iff_fields (w : Word) : (∃ why, decode w = .illegal why) ↔
    (0x0D < (opField w).toNat ∨ rsvField w ≠ 0 ∨
      ((opField w).toNat ∈ [0x00, 0x02, 0x06, 0x08, 0x09, 0x0B, 0x0D] ∧ opndField w ≠ 0)) := by
  rw [decode_illegal_iff, ← commandOf_eq_none_iff (opField w).toNat (opndField w), ← formOfOp_eq_some_none_iff]
  simp only [ne_eq, decode_eq_command_iff]
  cases commandOf (opField w).toNat (opndField w) with
  | none => simp
  | some j => grind

/-- A decoded command is made of the word's own fields (R86). -/
theorem fields_of_decode_command {w : Word} {i : Instr} (h : decode w = .command i) :
    opcodeOf i = opField w ∧ operandOf i = opndField w := by
  obtain ⟨hc, -, hz⟩ := (decode_eq_command_iff w i).mp h
  obtain ⟨hop, hopnd⟩ := opcodeOf_operandOf_of_commandOf hc
  refine ⟨BitVec.eq_of_toNat_eq hop, hopnd.trans ?_⟩
  split
  · exact (hz ‹_›).symm
  · rfl

end Sys2Proof

namespace Sys2Proof.Machine

/-- Executing an Illegal word raises ILLEGAL_CMD (R86), whatever its reason. -/
theorem step_illegal {s : State} {w : Word} {why : IllegalReason} (hd : decode w = .illegal why)
    (hp : s.pending = some w) (hs : s.schedule = []) : step s = .next (raise .illegalCmd s) := by
  rw [step_idle s hs, blockStep_pending s w hp, executeWord_illegal s w why hd]

/-- Settles O2: the Illegal words by their fields, the fields of a decoded command, and the fault an Illegal word
raises. -/
theorem illegalWordsExactly : Obligations.IllegalWordsExactly :=
  ⟨decode_illegal_iff_fields, fun _ _ h => fields_of_decode_command h, fun _ _ _ hd hp hs => step_illegal hd hp hs⟩

end Sys2Proof.Machine
end

section
/-! PROOFS. The frequency table commands (spec/40_frequency_table.md R100 to R104): their words, their cases and their
frame. -/

namespace Sys2Proof

/-! ## Command words -/

/-- The word of a command is its opcode in the top byte and its operand at the bottom (R80). -/
theorem encode_eq_or {i : Instr} (op : BitVec 8) {base : Word} (hop : opcodeOf i = op) (hbase : op ++ 0#24 = base) :
    encode i = base ||| (operandOf i).setWidth 32 := by
  subst hop hbase
  apply BitVec.eq_of_getLsbD_eq
  intro k hk
  simp only [encode, BitVec.getLsbD_or, BitVec.getLsbD_append, BitVec.getLsbD_setWidth, BitVec.getLsbD_zero]
  by_cases low : k < 10
  · simp [low, hk, show k < 24 by omega]
  · have high : (operandOf i).getLsbD k = false := BitVec.getLsbD_of_ge _ _ (by omega)
    by_cases mid : k < 24 <;> simp [low, mid, high]

/-- The low 24 bits of a word are RSV and OPND (R80). -/
theorem extractLsb'_low24 (w : Word) : w.extractLsb' 0 24 = rsvField w ++ opndField w := by
  conv_lhs => rw [word_eq_fields w]
  exact BitVec.extractLsb'_append_eq_right

theorem rsvField_or_opndField_ne_zero {w : Word} (h : w.extractLsb' 0 24 ≠ 0) : rsvField w ≠ 0 ∨ opndField w ≠ 0 := by
  by_contra hz
  obtain ⟨hr, ho⟩ := not_or.mp hz
  exact h (by rw [extractLsb'_low24, not_not.mp hr, not_not.mp ho]; rfl)

/-! ## Operand checks (R82) -/

@[simp] theorem byteLegal_iff (o : Opnd) : byteLegal o = true ↔ o.toNat ≤ 255 := decide_eq_true_iff

@[simp] theorem startLegal_iff (o : Opnd) : startLegal o = true ↔ o.toNat ≤ 256 := decide_eq_true_iff

end Sys2Proof

namespace Sys2Proof.Machine

/-- Executing a word with reserved bits set raises ILLEGAL_CMD (R83). -/
theorem executeWord_reserved {w : Word} (s : State) (h : w.extractLsb' 10 14 ≠ 0) :
    executeWord w s = .next (raise .illegalCmd s) := by
  obtain ⟨why, hd⟩ := (decode_illegal_iff_fields w).mpr (.inr (.inl h))
  exact executeWord_illegal s w why hd

/-- Executing a word of form NONE with a bit set below its opcode raises ILLEGAL_CMD (R83, R84). -/
theorem executeWord_noneForm {w : Word} (s : State)
    (form : (opField w).toNat ∈ [0x00, 0x02, 0x06, 0x08, 0x09, 0x0B, 0x0D]) (h : w.extractLsb' 0 24 ≠ 0) :
    executeWord w s = .next (raise .illegalCmd s) := by
  obtain hr | ho := rsvField_or_opndField_ne_zero h
  · exact executeWord_reserved s hr
  · obtain ⟨why, hd⟩ := (decode_illegal_iff_fields w).mpr (.inr (.inr ⟨form, ho⟩))
    exact executeWord_illegal s w why hd

/-! ## FT_RESET -/

theorem exec_ftReset (s : State) :
    exec .ftReset s = .next (complete { s with freq := zeroTable, stale := true }) := rfl

/-- Settles O21: `exec_ftReset` is the effect, and every count of the zero table is 0. -/
theorem ftResetRule : Obligations.FtResetRule := by
  refine ⟨rfl, fun w s hop hlow => ?_, fun s => ⟨_, exec_ftReset s, countAt_zeroTable, rfl⟩⟩
  have form : (opField w).toNat ∈ [0x00, 0x02, 0x06, 0x08, 0x09, 0x0B, 0x0D] := by
    rw [opField, hop]
    decide
  exact executeWord_noneForm s form hlow

/-! ## FT_RECORD -/

@[simp] theorem countFull_iff (s : State) (b : Byte) :
    countFull s b = true ↔ (countAt s.freq b).toNat = 2 ^ s.cntW.val - 1 := decide_eq_true_iff

theorem exec_ftRecord_range {o : Opnd} (s : State) (h : 255 < o.toNat) :
    exec (.ftRecord o) s = .next (raise .operandRange s) := by
  simp [exec, execFtRecord, h]

theorem exec_ftRecord_full {o : Opnd} {s : State} (h : o.toNat ≤ 255)
    (full : (countAt s.freq (byteOf o)).toNat = 2 ^ s.cntW.val - 1) :
    exec (.ftRecord o) s = .next (raise .cntOverflow s) := by
  simp [exec, execFtRecord, h, full]

theorem exec_ftRecord_room {o : Opnd} {s : State} (h : o.toNat ≤ 255)
    (room : (countAt s.freq (byteOf o)).toNat ≠ 2 ^ s.cntW.val - 1) :
    exec (.ftRecord o) s = .next (complete (recordByte (byteOf o) s)) := by
  simp [exec, execFtRecord, h, room]

/-- Settles O22: the two faults, and one occurrence added by `recordByte`. -/
theorem ftRecordRule : Obligations.FtRecordRule := by
  refine ⟨fun _ => encode_eq_or 0x03 rfl rfl, fun w s _ hr => executeWord_reserved s hr, fun o s =>
    ⟨exec_ftRecord_range s, exec_ftRecord_full, fun h room => ⟨_, exec_ftRecord_room h room, ?_, fun b hb => ?_, rfl⟩⟩⟩
  · exact countAt_putCount_same _ _ _
  · exact countAt_putCount_ne _ _ _ _ hb

/-! ## FT_QUERY -/

theorem exec_ftQuery_range {o : Opnd} (s : State) (h : 255 < o.toNat) :
    exec (.ftQuery o) s = .next (raise .operandRange s) := by
  simp [exec, execFtQuery, h]

theorem exec_ftQuery_legal {o : Opnd} (s : State) (h : o.toNat ≤ 255) :
    exec (.ftQuery o) s = .next (complete { s with
      rCount := countAt s.freq (byteOf o), hit := hitFlag (countAt s.freq (byteOf o)) }) := by
  simp [exec, execFtQuery, h]

/-- Settles O23: the fault, and the count with `hitFlag`. -/
theorem ftQueryRule : Obligations.FtQueryRule :=
  ⟨fun _ => encode_eq_or 0x04 rfl rfl, fun _ s _ hr => executeWord_reserved s hr, fun _ s =>
    ⟨exec_ftQuery_range s, exec_ftQuery_legal s⟩⟩

/-! ## FT_NEXT -/

/-- An entry of the enumeration is an observed byte and its count. -/
theorem exists_byte_of_mem_observed {f : Vector Count 256} {e : Count × Nat} (h : e ∈ observed f) :
    ∃ b : Byte, e = (countAt f b, b.toNat) ∧ countAt f b ≠ 0 := by
  obtain ⟨hb, hc, hne⟩ := (mem_observed f e.1 e.2).mp h
  have hn : (BitVec.ofNat 8 e.2).toNat = e.2 := Nat.mod_eq_of_lt hb
  have hcount : countAt f (BitVec.ofNat 8 e.2) = e.1 := by simp [countAt, hn, hc]
  exact ⟨BitVec.ofNat 8 e.2, by rw [hcount, hn], hcount ▸ hne⟩

theorem mem_observed_of_count {f : Vector Count 256} {b : Byte} (h : countAt f b ≠ 0) :
    (countAt f b, b.toNat) ∈ observed f :=
  (mem_observed f _ _).mpr ⟨b.isLt, rfl, h⟩

/-- The enumeration ascends, so its first entry from n on is the least observed byte from n on (R104). -/
theorem find?_observed_least {f : Vector Count 256} {n : Nat} {b : Byte} (hn : n ≤ b.toNat) (hb : countAt f b ≠ 0)
    (least : ∀ c : Byte, n ≤ c.toNat → c.toNat < b.toNat → countAt f c = 0) :
    (observed f).find? (fun e => decide (n ≤ e.2)) = some (countAt f b, b.toNat) := by
  obtain ⟨before, after, hsplit⟩ := List.append_of_mem (mem_observed_of_count hb)
  refine List.find?_eq_some_iff_append.mpr ⟨decide_eq_true hn, before, after, hsplit, fun e he => ?_⟩
  obtain ⟨c, rfl, hc⟩ := exists_byte_of_mem_observed (hsplit ▸ List.mem_append_left _ he)
  obtain ⟨-, -, ascending⟩ := List.pairwise_append.mp (hsplit ▸ observed_ascending f)
  have below : c.toNat < b.toNat := ascending _ he _ List.mem_cons_self
  have start : ¬ n ≤ c.toNat := fun h => hc (least c h below)
  simpa using start

theorem find?_observed_none {f : Vector Count 256} {n : Nat} (h : ∀ c : Byte, n ≤ c.toNat → countAt f c = 0) :
    (observed f).find? (fun e => decide (n ≤ e.2)) = none := by
  refine List.find?_eq_none.mpr fun e he hn => ?_
  obtain ⟨c, rfl, hc⟩ := exists_byte_of_mem_observed he
  exact hc (h c (of_decide_eq_true hn))

theorem exec_ftNext_range {o : Opnd} (s : State) (h : 256 < o.toNat) :
    exec (.ftNext o) s = .next (raise .operandRange s) := by
  simp [exec, execFtNext, h]

theorem exec_ftNext_some {o : Opnd} {s : State} {c : Count} {b : Nat} (h : o.toNat ≤ 256)
    (hf : (observed s.freq).find? (fun e => decide (o.toNat ≤ e.2)) = some (c, b)) :
    exec (.ftNext o) s = .next (complete { s with rSym := BitVec.ofNat 9 b, rCount := c, hit := true }) := by
  simp [exec, execFtNext, h, hf]

theorem exec_ftNext_none {o : Opnd} {s : State} (h : o.toNat ≤ 256)
    (hf : (observed s.freq).find? (fun e => decide (o.toNat ≤ e.2)) = none) :
    exec (.ftNext o) s = .next (complete { s with rSym := 256, rCount := 0, hit := false }) := by
  simp [exec, execFtNext, h, hf]

/-- Settles O24: the search of the enumeration answers the least observed byte, or none. -/
theorem ftNextRule : Obligations.FtNextRule := by
  refine ⟨fun _ => encode_eq_or 0x05 rfl rfl, fun _ s _ hr => executeWord_reserved s hr, fun o s =>
    ⟨exec_ftNext_range s, fun b hb hc least => ?_, fun h zero => exec_ftNext_none h (find?_observed_none zero)⟩⟩
  have legal : o.toNat ≤ 256 := by
    have := b.isLt
    omega
  rw [← BitVec.ofNat_toNat]
  exact exec_ftNext_some legal (find?_observed_least hb hc least)

/-! ## The family's frame -/

/-- Settles O25, case by case: which case a command takes and what it writes are given by FREQ, CNT_W and the operand. -/
theorem frequencyFamilyFrame : Obligations.FrequencyFamilyFrame := by
  intro i s family
  obtain rfl | ⟨o, rfl⟩ | ⟨o, rfl⟩ | ⟨o, rfl⟩ := family
  · exact ⟨_, exec_ftReset s, rfl, fun s' _ _ _ sym count hit => ⟨_, exec_ftReset s', rfl, rfl, sym, count, hit⟩⟩
  · rcases Nat.lt_or_ge 255 o.toNat with range | legal
    · exact ⟨_, exec_ftRecord_range s range, rfl, fun s' freq _ stale sym count hit =>
        ⟨_, exec_ftRecord_range s' range, freq, stale, sym, count, hit⟩⟩
    by_cases full : (countAt s.freq (byteOf o)).toNat = 2 ^ s.cntW.val - 1
    · exact ⟨_, exec_ftRecord_full legal full, rfl, fun s' freq cntW stale sym count hit =>
        ⟨_, exec_ftRecord_full legal (by rw [freq, cntW, full]), freq, stale, sym, count, hit⟩⟩
    · exact ⟨_, exec_ftRecord_room legal full, rfl, fun s' freq cntW stale sym count hit =>
        ⟨_, exec_ftRecord_room legal (by rwa [freq, cntW]), by simp [freq], rfl, sym, count, hit⟩⟩
  · rcases Nat.lt_or_ge 255 o.toNat with range | legal
    · exact ⟨_, exec_ftQuery_range s range, rfl, fun s' freq _ stale sym count hit =>
        ⟨_, exec_ftQuery_range s' range, freq, stale, sym, count, hit⟩⟩
    · exact ⟨_, exec_ftQuery_legal s legal, rfl, fun s' freq _ stale sym _ _ =>
        ⟨_, exec_ftQuery_legal s' legal, freq, stale, sym, by simp [freq], by simp [freq]⟩⟩
  · rcases Nat.lt_or_ge 256 o.toNat with range | legal
    · exact ⟨_, exec_ftNext_range s range, rfl, fun s' freq _ stale sym count hit =>
        ⟨_, exec_ftNext_range s' range, freq, stale, sym, count, hit⟩⟩
    cases found : (observed s.freq).find? fun e => decide (o.toNat ≤ e.2) with
    | some e =>
      exact ⟨_, exec_ftNext_some legal found, rfl, fun s' freq _ stale _ _ _ =>
        ⟨_, exec_ftNext_some legal (freq ▸ found), freq, stale, rfl, rfl, rfl⟩⟩
    | none =>
      exact ⟨_, exec_ftNext_none legal found, rfl, fun s' freq _ stale _ _ _ =>
        ⟨_, exec_ftNext_none legal (freq ▸ found), freq, stale, rfl, rfl, rfl⟩⟩

end Sys2Proof.Machine
end

section
/-! PROOFS. The heap (spec/41_heap.md R121 to R128): the functions HeapInsert and HeapExtract follow the spec's loops to
their end, and the heap commands: their words, their cases and their frame. -/

namespace Sys2Proof.Machine

/-! ## Comparing and swapping live entries -/

theorem lighter_iff {h : List HeapEntry} {i j : Nat} {x y : HeapEntry} (hx : h[i]? = some x) (hy : h[j]? = some y) :
    lighter h i j = true ↔ x.wgt.toNat < y.wgt.toNat := by
  simp [lighter, hx, hy]

theorem lighter_of_not_live {h : List HeapEntry} {i : Nat} (j : Nat) (hi : h.length ≤ i) : lighter h i j = false := by
  simp [lighter, List.getElem?_eq_none hi]

theorem swapAt_live {h : List HeapEntry} {i j : Nat} {x y : HeapEntry} (hx : h[i]? = some x) (hy : h[j]? = some y) :
    swapAt h i j = (h.set i y).set j x := by
  simp [swapAt, hx, hy]

/-! ## HeapInsert follows the loop of R121 -/

/-- A bound of i rounds never cuts the loop short: each round moves to the parent, whose index is smaller. -/
theorem siftUp_siftsUp (fuel : Nat) (h : List HeapEntry) (i : Nat) (live : i < h.length) (bound : i ≤ fuel) :
    SiftsUp h i (siftUp fuel h i) := by
  induction fuel generalizing h i with
  | zero =>
    obtain rfl : i = 0 := Nat.le_zero.mp bound
    exact .atRoot
  | succ fuel ih =>
    rcases Nat.eq_zero_or_pos i with rfl | pos
    · exact .atRoot
    have parentLt : parentIx i < i := by
      rw [parentIx]
      omega
    have he := List.getElem?_eq_getElem live
    have hp := List.getElem?_eq_getElem (parentLt.trans live)
    rw [siftUp]
    split
    case isTrue moves =>
      have next := ih (swapAt h i (parentIx i)) (parentIx i) (by simpa using parentLt.trans live) (by omega)
      exact .moves pos he hp ((lighter_iff he hp).mp moves.2) (swapAt_live he hp ▸ next)
    case isFalse stays =>
      exact .stays pos he hp (Nat.le_of_not_lt fun lt => stays ⟨pos, (lighter_iff he hp).mpr lt⟩)

theorem heapInsert_siftsUp (h : List HeapEntry) (e : HeapEntry) : SiftsUp (h ++ [e]) h.length (heapInsert h e) :=
  siftUp_siftsUp _ _ _ (by simp) le_rfl

/-! ## HeapExtract follows the loop of R122 -/

theorem ChosenChild.getElem?_eq {h : List HeapEntry} {i c : Nat} {child : HeapEntry} (hc : ChosenChild h i c child) :
    h[c]? = some child := by
  obtain ⟨rfl, live, -⟩ | ⟨rfl, live, -⟩ := hc <;> exact live

theorem ChosenChild.lt {h : List HeapEntry} {i c : Nat} {child : HeapEntry} (hc : ChosenChild h i c child) : i < c := by
  obtain ⟨rfl, -⟩ | ⟨rfl, -⟩ := hc <;> omega

/-- Where i has a live child, `lighterChild` is the one R122 chooses. -/
theorem exists_chosenChild {h : List HeapEntry} {i : Nat} (left : leftIx i < h.length) :
    ∃ child, ChosenChild h i (lighterChild h i) child := by
  have hl := List.getElem?_eq_getElem left
  rcases Nat.lt_or_ge (rightIx i) h.length with right | noRight
  · have hr := List.getElem?_eq_getElem right
    rw [lighterChild]
    split
    case isTrue lt => exact ⟨_, .inl ⟨rfl, hr, _, hl, (lighter_iff hr hl).mp lt⟩⟩
    case isFalse ge =>
      refine ⟨_, .inr ⟨rfl, hl, fun r hr' => ?_⟩⟩
      exact Nat.le_of_not_lt fun lt => ge ((lighter_iff hr' hl).mpr lt)
  · rw [lighterChild, lighter_of_not_live _ noRight]
    exact ⟨_, .inr ⟨rfl, hl, fun r hr => nomatch (List.getElem?_eq_none noRight).symm.trans hr⟩⟩

theorem lighterChild_not_live {h : List HeapEntry} {i : Nat} (noLeft : h.length ≤ leftIx i) :
    h.length ≤ lighterChild h i := by
  have noRight : h.length ≤ rightIx i := noLeft.trans (Nat.le_succ _)
  rw [lighterChild]
  split
  · exact noRight
  · exact noLeft

/-- A bound of HSIZE rounds never cuts the loop short: each round moves to a child, whose index is larger. -/
theorem siftDown_siftsDown (fuel : Nat) (h : List HeapEntry) (i : Nat) (bound : h.length ≤ i + fuel) :
    SiftsDown h i (siftDown fuel h i) := by
  induction fuel generalizing h i with
  | zero => exact .noChild (by omega)
  | succ fuel ih =>
    rw [siftDown]
    rcases Nat.lt_or_ge (leftIx i) h.length with left | noLeft
    · obtain ⟨child, chosen⟩ := exists_chosenChild left
      have live : i < h.length := by
        rw [leftIx] at left
        omega
      have he := List.getElem?_eq_getElem live
      have hc := chosen.getElem?_eq
      split
      case isTrue moves =>
        have down := chosen.lt
        have next := ih (swapAt h i (lighterChild h i)) (lighterChild h i) (by rw [swapAt_length]; omega)
        exact .moves he chosen ((lighter_iff hc he).mp moves) (swapAt_live he hc ▸ next)
      case isFalse stays =>
        exact .stays he chosen (Nat.le_of_not_lt fun lt => stays ((lighter_iff hc he).mpr lt))
    · rw [lighter_of_not_live i (lighterChild_not_live noLeft)]
      exact .noChild noLeft

/-- The heap R122's loop starts from: the last entry in the root's place, and one entry less. -/
theorem take_swapAt_root (top last : HeapEntry) (mid : List HeapEntry) :
    (swapAt (top :: (mid ++ [last])) 0 (mid.length + 1)).take (mid.length + 1) = last :: mid := by
  have hlast : (top :: (mid ++ [last]))[mid.length + 1]? = some last := by simp
  rw [swapAt_live rfl hlast]
  simp

theorem heapExtract_siftsDown (top last : HeapEntry) (mid : List HeapEntry) :
    ∃ h, heapExtract (top :: (mid ++ [last])) = some (top, h) ∧ SiftsDown (last :: mid) 0 h := by
  have start : heapExtract (top :: (mid ++ [last])) = some (top, siftDown (mid.length + 1) (last :: mid) 0) := by
    simp [heapExtract, take_swapAt_root]
  exact ⟨_, start, siftDown_siftsDown _ _ _ (by simp)⟩

/-- Settles O30: neither loop is cut short by its bound, and HeapExtract starts its loop from the last entry at the root. -/
theorem heapFunctionsFollowTheLoops : Obligations.HeapFunctionsFollowTheLoops :=
  ⟨heapInsert_siftsUp, fun _ => rfl, heapExtract_siftsDown⟩

/-! ## The heap commands -/

theorem nodeLegal_iff (nint : Nat) (o : Opnd) : nodeLegal nint o = true ↔ o.toNat < 258 + nint := by
  rw [nodeLegal, decide_eq_true_iff]
  omega

theorem exec_heapClear (s : State) : exec .heapClear s = .next (complete { s with heap := [] }) := rfl

/-- Settles O27: `exec_heapClear` is the effect, and the word has no operand. -/
theorem heapClearRule : Obligations.HeapClearRule :=
  ⟨rfl, fun _ s hop hlow => executeWord_noneForm s (by rw [opField, hop]; decide) hlow, exec_heapClear⟩

theorem exec_heapInsert_range {o : Opnd} {s : State} (h : 258 + s.nint ≤ o.toNat) :
    exec (.heapInsert o) s = .next (raise .operandRange s) := by
  have illegal : nodeLegal s.nint o = false := Bool.eq_false_iff.mpr fun legal => by
    have := (nodeLegal_iff _ _).mp legal
    omega
  simp [exec, execHeapInsert, illegal]

theorem exec_heapInsert_full {o : Opnd} {s : State} (h : o.toNat < 258 + s.nint) (full : s.hsize = Config.heapCap) :
    exec (.heapInsert o) s = .next (raise .heapFull s) := by
  simp [exec, execHeapInsert, (nodeLegal_iff _ _).mpr h, full]

theorem exec_heapInsert_room {o : Opnd} {s : State} (h : o.toNat < 258 + s.nint) (room : s.hsize ≠ Config.heapCap) :
    exec (.heapInsert o) s =
      .next (complete { s with heap := heapInsert s.heap ⟨o, weightOf s.freq s.arena o⟩ }) := by
  simp [exec, execHeapInsert, (nodeLegal_iff _ _).mpr h, room]

theorem exec_heapExtract_empty {s : State} (h : s.heap = []) :
    exec .heapExtract s = .next (raise .heapEmpty s) := by
  simp [exec, execHeapExtract, h]

theorem exec_heapExtract_some {s : State} {top : HeapEntry} {h : List HeapEntry}
    (he : heapExtract s.heap = some (top, h)) :
    exec .heapExtract s = .next (complete { s with heap := h, rNode := top.node, rWeight := top.wgt }) := by
  simp [exec, execHeapExtract, he]

/-! ## The family's frame -/

/-- Settles O31, case by case: which case a command takes and what it writes are given by HEAP, NINT, the operand and its
weight. -/
theorem heapFamilyFrame : Obligations.HeapFamilyFrame := by
  intro i s family
  obtain rfl | ⟨o, rfl⟩ | rfl := family
  · exact ⟨_, exec_heapClear s, rfl, fun s' _ _ node weight _ => ⟨_, exec_heapClear s', rfl, node, weight⟩⟩
  · rcases Nat.lt_or_ge o.toNat (258 + s.nint) with legal | range
    · by_cases full : s.hsize = Config.heapCap
      · exact ⟨_, exec_heapInsert_full legal full, rfl, fun s' heap nint node weight _ =>
          ⟨_, exec_heapInsert_full (nint ▸ legal) (by rwa [State.hsize, heap]), heap, node, weight⟩⟩
      · exact ⟨_, exec_heapInsert_room legal full, rfl, fun s' heap nint node weight weights =>
          ⟨_, exec_heapInsert_room (nint ▸ legal) (by rwa [State.hsize, heap]), by simp [heap, weights], node, weight⟩⟩
    · exact ⟨_, exec_heapInsert_range range, rfl, fun s' heap nint node weight _ =>
        ⟨_, exec_heapInsert_range (nint ▸ range), heap, node, weight⟩⟩
  · by_cases empty : s.heap = []
    · exact ⟨_, exec_heapExtract_empty empty, rfl, fun s' heap _ node weight _ =>
        ⟨_, exec_heapExtract_empty (heap ▸ empty), heap, node, weight⟩⟩
    · obtain ⟨top, h, he⟩ := heapExtract_isSome empty
      exact ⟨_, exec_heapExtract_some he, rfl, fun s' heap _ _ _ _ =>
        ⟨_, exec_heapExtract_some (heap ▸ he), rfl, rfl, rfl⟩⟩

end Sys2Proof.Machine
end

section
/-! PROOFS. The codeword translator (spec/43_translator.md R160 to R169): the nodes of the tree and the paths to them, the
codeword search, what ENCODE and DECODE can do, and their frame. -/

namespace Sys2Proof

theorem symLegal_iff (o : Opnd) : symLegal o = true ↔ o.toNat ≤ 255 ∨ o.toNat = 257 := by
  rw [symLegal, decide_eq_true_iff]

theorem isLeaf_of_symLegal {o : Opnd} (h : symLegal o = true) : isLeaf o = true := by
  have := (symLegal_iff o).mp h
  exact (Machine.isLeaf_iff o).mpr (by omega)

theorem add_slotOf {n : NodeIx} (h : 258 ≤ n.toNat) : 258 + slotOf n = n.toNat := Nat.add_sub_cancel' h

theorem internalNode_slotOf {n : NodeIx} (h : 258 ≤ n.toNat) : internalNode (slotOf n) = n := by
  rw [internalNode, add_slotOf h, BitVec.ofNat_toNat, BitVec.setWidth_eq]

end Sys2Proof

namespace Sys2Proof.Machine

/-! ## Reach and Follow (R27, R160) -/

/-- The children of every slot are numbered below it, as R43 (c) has them. -/
def ChildrenBelow (arena : List ArenaSlot) : Prop :=
  ∀ k slot, arena[k]? = some slot → slot.left.toNat < 258 + k ∧ slot.right.toNat < 258 + k

theorem ChildrenBelow.child_lt {arena : List ArenaSlot} (below : ChildrenBelow arena) {n : NodeIx} {slot : ArenaSlot}
    (hn : 258 ≤ n.toNat) (hs : arena[slotOf n]? = some slot) (b : Bool) :
    (if b then slot.right else slot.left).toNat < n.toNat := by
  obtain ⟨left, right⟩ := below _ _ hs
  rw [add_slotOf hn] at left right
  cases b
  · exact left
  · exact right

/-- A path descends at every bit, so it has at most as many bits as there are slots up to its first node (R161). -/
theorem follow_length_le {arena : List ArenaSlot} (below : ChildrenBelow arena) {n m : NodeIx} {p : BitString}
    (h : follow arena n p = some m) : p.length ≤ n.toNat - 257 := by
  induction p generalizing n with
  | nil => exact Nat.zero_le _
  | cons b p ih =>
    obtain ⟨hn, slot, hs, hf⟩ := follow_cons h
    have tail := ih hf
    have child := below.child_lt hn hs b
    rw [List.length_cons]
    omega

theorem Reach.child {arena : List ArenaSlot} {root n : NodeIx} {slot : ArenaSlot} (hr : Reach arena root n)
    (hn : 258 ≤ n.toNat) (hs : arena[slotOf n]? = some slot) (b : Bool) :
    Reach arena root (if b then slot.right else slot.left) := by
  rw [← internalNode_slotOf hn] at hr
  cases b
  · exact .left hs hr
  · exact .right hs hr

theorem Reach.trans_follow {arena : List ArenaSlot} {root n m : NodeIx} {p : BitString} (hr : Reach arena root n)
    (h : follow arena n p = some m) : Reach arena root m := by
  induction p generalizing n with
  | nil => exact Option.some.inj h ▸ hr
  | cons b p ih =>
    obtain ⟨hn, slot, hs, hf⟩ := follow_cons h
    exact ih (hr.child hn hs b) hf

/-- A path to a live internal node goes on to either child. -/
theorem exists_follow_child {arena : List ArenaSlot} {root : NodeIx} {k : Nat} {slot : ArenaSlot}
    (size : arena.length ≤ 257) (hs : arena[k]? = some slot)
    (h : ∃ p, follow arena root p = some (internalNode k)) (b : Bool) :
    ∃ p, follow arena root p = some (if b then slot.right else slot.left) := by
  obtain ⟨p, hp⟩ := h
  have live : k ≤ 256 := by
    have := (List.getElem?_eq_some_iff.mp hs).1
    omega
  have node : 258 ≤ (internalNode k).toNat := by
    rw [toNat_internalNode live]
    omega
  refine ⟨p ++ [b], ?_⟩
  rw [follow_append, hp, Option.bind_some, follow_internal _ _ b [] slot node (by rwa [slotOf_internalNode live]), follow]

/-- The nodes R27 reaches are those a path of R160 ends at. -/
theorem reach_iff_follow {arena : List ArenaSlot} (size : arena.length ≤ 257) (root n : NodeIx) :
    Reach arena root n ↔ ∃ p, follow arena root p = some n := by
  constructor
  · intro hr
    induction hr with
    | root => exact ⟨[], rfl⟩
    | left hs _ ih => exact exists_follow_child size hs ih false
    | right hs _ ih => exact exists_follow_child size hs ih true
  · rintro ⟨p, hp⟩
    exact Reach.root.trans_follow hp

/-! ## The codeword search (R160) -/

/-- The search finds a path to a leaf wherever there is one that fits the bound. -/
theorem findPath_isSome {arena : List ArenaSlot} {target n : NodeIx} {p : BitString} {fuel : Nat}
    (leaf : isLeaf target = true) (h : follow arena n p = some target) (bound : p.length ≤ fuel) :
    ∃ q, findPath arena target fuel n = some q := by
  induction p generalizing n fuel with
  | nil =>
    obtain rfl := Option.some.inj h
    cases fuel <;> exact ⟨[], by simp [findPath, leaf]⟩
  | cons b p ih =>
    cases fuel with
    | zero => exact absurd bound (Nat.not_succ_le_zero _)
    | succ fuel =>
      obtain ⟨hn, slot, hs, hf⟩ := follow_cons h
      obtain ⟨q, hq⟩ := ih hf (Nat.le_of_succ_le_succ bound)
      have inner := isLeaf_eq_false n hn
      cases hl : findPath arena target fuel slot.left with
      | some q' => exact ⟨false :: q', by simp [findPath, inner, hs, hl]⟩
      | none =>
        cases b with
        | false => exact absurd (hl.symm.trans hq) nofun
        | true => exact ⟨true :: q, by simpa [findPath, inner, hs, hl] using hq⟩

/-- What TreeOk says of a tree: its size, its shape, its root and its sentinel leaves. -/
theorem TreeOk.of_treeValid {s : State} (ok : TreeOk s) (valid : s.treeValid = true) :
    1 ≤ s.nint ∧ s.nint ≤ 257 ∧ ChildrenBelow s.arena ∧ s.root.toNat = 257 + s.nint ∧ InTree s 256 ∧ InTree s 257 := by
  rw [TreeOk, if_pos valid] at ok
  obtain ⟨lo, hi, root, below, notSeen, endOfStream⟩ := ok
  refine ⟨lo, hi, below, ?_, notSeen, endOfStream⟩
  rw [root, BitVec.toNat_ofNat]
  omega

/-- A codeword is a path from ROOT of at most NINT bits (R161). -/
theorem codeword_spec {s : State} {sym : NodeIx} {p : BitString} (h : codeword s sym = some p) :
    follow s.arena s.root p = some sym ∧ p.length ≤ s.nint := by
  obtain ⟨path, -, len⟩ := findPath_sound h
  exact ⟨path, len⟩

/-- In a tree the builder left, the leaves with a codeword are exactly those in the tree (R160). -/
theorem exists_codeword_iff_inTree {s : State} {sym : NodeIx} (ok : TreeOk s) (valid : s.treeValid = true)
    (leaf : isLeaf sym = true) : (∃ p, codeword s sym = some p) ↔ InTree s sym := by
  obtain ⟨-, size, below, root, -, -⟩ := ok.of_treeValid valid
  constructor
  · rintro ⟨p, hp⟩
    exact ⟨valid, Reach.root.trans_follow (codeword_spec hp).1⟩
  · rintro ⟨-, hr⟩
    obtain ⟨p, hp⟩ := (reach_iff_follow size _ _).mp hr
    have len := follow_length_le below hp
    exact findPath_isSome leaf hp (by omega)

/-- The lookup of ENCODE in a tree the builder left: it answers, FOUND says whether the symbol is in the tree, and the string
is the path to its leaf or to NOT_SEEN's, of at most NINT bits (R162). -/
theorem lookup_spec {s : State} {sym : NodeIx} (ok : TreeOk s) (valid : s.treeValid = true) (leaf : isLeaf sym = true) :
    ∃ p found, lookup s sym = some (p, found) ∧ (found = true ↔ InTree s sym) ∧
      follow s.arena s.root p = some (if found then sym else 256) ∧ p.length ≤ s.nint := by
  obtain ⟨-, -, -, -, notSeenIn, -⟩ := ok.of_treeValid valid
  have inTree := exists_codeword_iff_inTree ok valid leaf
  cases hc : codeword s sym with
  | some p => exact ⟨p, true, by simp [lookup, hc], by simp [← inTree, hc], codeword_spec hc⟩
  | none =>
    obtain ⟨p, hp⟩ : ∃ p, codeword s notSeen = some p :=
      (exists_codeword_iff_inTree ok valid (by decide)).mpr notSeenIn
    exact ⟨p, false, by simp [lookup, hc, hp], by simp [← inTree, hc], codeword_spec hp⟩

/-! ## ENCODE (R162) -/

theorem exec_encode_range {o : Opnd} (s : State) (range : symLegal o = false) :
    exec (.encode o) s = .next (raise .operandRange s) := by
  simp [exec, execEncode, range]

theorem exec_encode_noTree {o : Opnd} {s : State} (legal : symLegal o = true) (noTree : s.treeValid = false) :
    exec (.encode o) s = .next (raise .noTree s) := by
  simp [exec, execEncode, legal, noTree]

theorem exec_encode_found {o : Opnd} {s : State} {p : BitString} {found : Bool} (legal : symLegal o = true)
    (valid : s.treeValid = true) (hl : lookup s o = some (p, found)) :
    exec (.encode o) s = .next (complete (putCodeword p found s)) := by
  simp [exec, execEncode, legal, valid, hl]

theorem exec_encode_broken {o : Opnd} {s : State} (legal : symLegal o = true) (valid : s.treeValid = true)
    (hl : lookup s o = none) : exec (.encode o) s = .fault .brokenTree := by
  simp [exec, execEncode, legal, valid, hl]

/-- Everything ENCODE can do that leaves a next state. -/
theorem exec_encode_cases {o : Opnd} {s t : State} (h : exec (.encode o) s = .next t) :
    (symLegal o = false ∧ t = raise .operandRange s) ∨
    (symLegal o = true ∧ s.treeValid = false ∧ t = raise .noTree s) ∨
    ∃ p found, symLegal o = true ∧ s.treeValid = true ∧ lookup s o = some (p, found) ∧
      t = complete (putCodeword p found s) := by
  cases legal : symLegal o with
  | false =>
    rw [exec_encode_range s legal] at h
    exact .inl ⟨rfl, (Host.Outcome.next.inj h).symm⟩
  | true =>
    cases valid : s.treeValid with
    | false =>
      rw [exec_encode_noTree legal valid] at h
      exact .inr (.inl ⟨rfl, rfl, (Host.Outcome.next.inj h).symm⟩)
    | true =>
      cases hl : lookup s o with
      | none => exact absurd ((exec_encode_broken legal valid hl).symm.trans h) nofun
      | some found =>
        rw [exec_encode_found legal valid hl] at h
        exact .inr (.inr ⟨_, _, rfl, rfl, rfl, (Host.Outcome.next.inj h).symm⟩)

/-- Settles O38: the two faults, and the codeword `lookup_spec` describes put into the register, which holds it whole because
a path has at most 257 bits. -/
theorem encodeRule : Obligations.EncodeRule := by
  refine ⟨fun _ => encode_eq_or 0x0A rfl rfl, fun w s _ hr => executeWord_reserved s hr, fun o s => ⟨?_, ?_, ?_⟩⟩
  · exact fun range => exec_encode_range s (decide_eq_false range)
  · exact fun legal => exec_encode_noTree ((symLegal_iff o).mpr legal)
  · intro legal valid ok
    have legal := (symLegal_iff o).mpr legal
    obtain ⟨p, found, hl, inTree, path, len⟩ := lookup_spec ok valid (isLeaf_of_symLegal legal)
    obtain ⟨-, size, -⟩ := ok.of_treeValid valid
    refine ⟨_, p, exec_encode_found legal valid hl, rfl, inTree, path, ?_, putCodeword_bit p found s⟩
    exact Nat.mod_eq_of_lt (by omega)

/-! ## DECODE (R166) -/

theorem exec_decode_noTree {s : State} (noTree : s.treeValid = false) :
    exec .decode s = .next (raise .noTree s) := by
  simp [exec, execDecode, noTree]

theorem exec_decode_done {s : State} {st : DStat} {v : Sym} {rest : List Token} (valid : s.treeValid = true)
    (hw : decodeWalk s.arena s.root s.bitSource = .done st v rest) :
    exec .decode s = .next (complete { s with dstat := st, rSym := v, bitSource := rest }) := by
  simp [exec, execDecode, valid, hw]

theorem exec_decode_starved {s : State} (valid : s.treeValid = true)
    (hw : decodeWalk s.arena s.root s.bitSource = .starved) : exec .decode s = .next s := by
  simp [exec, execDecode, valid, hw]

theorem exec_decode_broken {s : State} (valid : s.treeValid = true)
    (hw : decodeWalk s.arena s.root s.bitSource = .broken) : exec .decode s = .fault .brokenTree := by
  simp [exec, execDecode, valid, hw]

/-- Everything DECODE can do that leaves a next state. -/
theorem exec_decode_cases {s t : State} (h : exec .decode s = .next t) :
    (s.treeValid = false ∧ t = raise .noTree s) ∨
    (s.treeValid = true ∧ decodeWalk s.arena s.root s.bitSource = .starved ∧ t = s) ∨
    ∃ st v rest, s.treeValid = true ∧ decodeWalk s.arena s.root s.bitSource = .done st v rest ∧
      t = complete { s with dstat := st, rSym := v, bitSource := rest } := by
  obtain valid | noTree := Bool.eq_false_or_eq_true s.treeValid
  · cases hw : decodeWalk s.arena s.root s.bitSource with
    | broken => exact absurd ((exec_decode_broken valid hw).symm.trans h) nofun
    | starved =>
      rw [exec_decode_starved valid hw] at h
      exact .inr (.inl ⟨valid, rfl, (Host.Outcome.next.inj h).symm⟩)
    | done st v rest =>
      rw [exec_decode_done valid hw] at h
      exact .inr (.inr ⟨_, _, _, valid, rfl, (Host.Outcome.next.inj h).symm⟩)
  · rw [exec_decode_noTree noTree] at h
    exact .inl ⟨noTree, (Host.Outcome.next.inj h).symm⟩

/-! ## The family's frame (R169) -/

/-- What R169 says of one command: the state it keeps, and the same effect in every session state. -/
def KeepsTreeAndSession (i : Instr) (s t : State) : Prop :=
  t.freq = s.freq ∧ t.heap = s.heap ∧ t.arena = s.arena ∧ t.root = s.root ∧ t.treeValid = s.treeValid ∧
  t.stale = s.stale ∧ t.session = s.session ∧
  ∀ x : Session, exec i { s with session := x } = .next { t with session := x }

theorem exec_encode_frame {o : Opnd} {s t : State} (h : exec (.encode o) s = .next t) :
    KeepsTreeAndSession (.encode o) s t := by
  obtain ⟨range, rfl⟩ | ⟨legal, noTree, rfl⟩ | ⟨p, found, legal, valid, hl, rfl⟩ := exec_encode_cases h
  · exact ⟨rfl, rfl, rfl, rfl, rfl, rfl, rfl, fun _ => exec_encode_range _ range⟩
  · exact ⟨rfl, rfl, rfl, rfl, rfl, rfl, rfl, fun _ => exec_encode_noTree legal noTree⟩
  · exact ⟨rfl, rfl, rfl, rfl, rfl, rfl, rfl, fun _ => exec_encode_found legal valid hl⟩

theorem exec_decode_frame {s t : State} (h : exec .decode s = .next t) : KeepsTreeAndSession .decode s t := by
  obtain ⟨noTree, rfl⟩ | ⟨valid, hw, rfl⟩ | ⟨st, v, rest, valid, hw, rfl⟩ := exec_decode_cases h
  · exact ⟨rfl, rfl, rfl, rfl, rfl, rfl, rfl, fun _ => exec_decode_noTree noTree⟩
  · exact ⟨rfl, rfl, rfl, rfl, rfl, rfl, rfl, fun _ => exec_decode_starved valid hw⟩
  · exact ⟨rfl, rfl, rfl, rfl, rfl, rfl, rfl, fun _ => exec_decode_done valid hw⟩

/-- Settles O44: each way ENCODE or DECODE can end leaves the kept registers as they are, and neither its condition nor its
effect reads SESSION. -/
theorem translatorFamilyFrame : Obligations.TranslatorFamilyFrame := by
  intro i s t family h
  obtain ⟨o, rfl⟩ | rfl := family
  · exact exec_encode_frame h
  · exact exec_decode_frame h

end Sys2Proof.Machine
end

section
/-! PROOFS. The tree a build leaves has the shape of R43 (c) and (d), with every inserted leaf in it
(spec/42_tree_builder.md R140 to R142). -/

namespace Sys2Proof.Machine

/-! ## Reach in a growing arena (R27) -/

theorem Reach.append {arena : List ArenaSlot} {root n : NodeIx} (hr : Reach arena root n) (more : List ArenaSlot) :
    Reach (arena ++ more) root n := by
  have live {k : Nat} {slot : ArenaSlot} (hs : arena[k]? = some slot) : (arena ++ more)[k]? = some slot :=
    (List.getElem?_append_left (List.getElem?_eq_some_iff.mp hs).1).trans hs
  induction hr with
  | root => exact .root
  | left hs _ ih => exact .left (live hs) ih
  | right hs _ ih => exact .right (live hs) ih

theorem Reach.trans {arena : List ArenaSlot} {root m n : NodeIx} (hm : Reach arena root m) (hn : Reach arena m n) :
    Reach arena root n := by
  induction hn with
  | root => exact hm
  | left hs _ ih => exact .left hs ih
  | right hs _ ih => exact .right hs ih

/-- What a node reaches, the parent the next slot gives it reaches too. -/
theorem Reach.merge {arena : List ArenaSlot} {slot : ArenaSlot} {child n : NodeIx} (hr : Reach arena child n)
    (hc : child = slot.left ∨ child = slot.right) : Reach (arena ++ [slot]) (internalNode arena.length) n := by
  have last : (arena ++ [slot])[arena.length]? = some slot := List.getElem?_concat_length
  have parent : Reach (arena ++ [slot]) (internalNode arena.length) child := by
    obtain rfl | rfl := hc
    · exact .left last .root
    · exact .right last .root
  exact parent.trans (hr.append [slot])

/-! ## What every merge keeps -/

/-- Between two merges of a build: entries and slots are together at most 258, children and entries are numbered below the
slots to come, and every inserted leaf is in the tree of some entry. -/
structure Merging (leaves heap : List HeapEntry) (arena : List ArenaSlot) : Prop where
  size : arena.length + heap.length ≤ 258
  below : ChildrenBelow arena
  entries : ∀ e ∈ heap, e.node.toNat < 258 + arena.length
  reach : ∀ l ∈ leaves, ∃ e ∈ heap, Reach arena e.node l.node

theorem ChildrenBelow.append {arena : List ArenaSlot} (below : ChildrenBelow arena) {slot : ArenaSlot}
    (left : slot.left.toNat < 258 + arena.length) (right : slot.right.toNat < 258 + arena.length) :
    ChildrenBelow (arena ++ [slot]) := by
  intro k sl hk
  rcases Nat.lt_trichotomy k arena.length with old | rfl | free
  · exact below k sl (List.getElem?_append_left old ▸ hk)
  · obtain rfl : slot = sl := by simpa using hk
    exact ⟨left, right⟩
  · rw [List.getElem?_eq_none (by simpa using free)] at hk
    cases hk

theorem heapExtract_heapExtract_perm {h h₁ h₂ : List HeapEntry} {x y : HeapEntry} (hx : heapExtract h = some (x, h₁))
    (hy : heapExtract h₁ = some (y, h₂)) : h.Perm (x :: y :: h₂) := by
  obtain ⟨rest, rfl, hp⟩ := heapExtract_some hx
  obtain ⟨rest₁, rfl, hp₁⟩ := heapExtract_some hy
  exact (hp.symm.trans (hp₁.symm.cons y)).cons x

theorem Merging.merge {leaves h h₁ h₂ : List HeapEntry} {a : List ArenaSlot} {x y : HeapEntry}
    (inv : Merging leaves h a) (hx : heapExtract h = some (x, h₁)) (hy : heapExtract h₁ = some (y, h₂)) :
    Merging leaves (heapInsert h₂ ⟨internalNode a.length, x.wgt + y.wgt⟩)
      (a ++ [⟨x.node, y.node, x.wgt + y.wgt⟩]) := by
  have perm := heapExtract_heapExtract_perm hx hy
  have inserted := heapInsert_perm h₂ ⟨internalNode a.length, x.wgt + y.wgt⟩
  have size := inv.size
  simp only [perm.length_eq, List.length_cons] at size
  have entries : ∀ e ∈ x :: y :: h₂, e.node.toNat < 258 + a.length := fun e he =>
    inv.entries e (perm.mem_iff.mpr he)
  refine ⟨?_, inv.below.append (entries x (by simp)) (entries y (by simp)), fun e he => ?_, fun l hl => ?_⟩
  · simp only [List.length_append, List.length_singleton, heapInsert_length]
    omega
  · rw [List.length_append, List.length_singleton]
    obtain rfl | he := List.mem_cons.mp (inserted.mem_iff.mp he)
    · rw [toNat_internalNode (by omega)]
      omega
    · have := entries e (by simp [he])
      omega
  · obtain ⟨e, he, hr⟩ := inv.reach l hl
    have merged (hc : e.node = x.node ∨ e.node = y.node) := hr.merge (slot := ⟨x.node, y.node, x.wgt + y.wgt⟩) hc
    obtain rfl | rfl | he : e = x ∨ e = y ∨ e ∈ h₂ := by simpa using perm.mem_iff.mp he
    · exact ⟨_, inserted.mem_iff.mpr List.mem_cons_self, merged (.inl rfl)⟩
    · exact ⟨_, inserted.mem_iff.mpr List.mem_cons_self, merged (.inr rfl)⟩
    · exact ⟨e, inserted.mem_iff.mpr (List.mem_cons_of_mem _ he), hr.append _⟩

/-! ## The tree of a build -/

theorem observed_length_le (freq : Vector Count 256) : (observed freq).length ≤ 256 := by
  have := List.length_filter_le (fun e => hitFlag e.1) freq.toList.zipIdx
  simpa [observed] using this

theorem isLeaf_of_mem_leavesOf {freq : Vector Count 256} {l : HeapEntry} (h : l ∈ leavesOf freq) : l.node.toNat < 258 := by
  obtain rfl | rfl | h : l = ⟨notSeen, 0⟩ ∨ l = ⟨endOfStream, 0⟩ ∨ _ := by simpa [leavesOf] using h
  · decide
  · decide
  · obtain ⟨c, b, hb, rfl⟩ := h
    obtain ⟨b, he, -⟩ := exists_byte_of_mem_observed hb
    obtain ⟨-, rfl⟩ := Prod.mk.inj he
    have := b.isLt
    rw [BitVec.toNat_ofNat]
    omega

theorem merging_leafHeap (freq : Vector Count 256) : Merging (leavesOf freq) (leafHeap freq) [] := by
  have perm := leafHeap_perm freq
  refine ⟨?_, fun k slot hk => ?_, fun e he => ?_, fun l hl => ⟨l, perm.mem_iff.mpr hl, .root⟩⟩
  · have := observed_length_le freq
    rw [leafHeap_length, List.length_nil]
    omega
  · simp at hk
  · exact isLeaf_of_mem_leavesOf (perm.mem_iff.mp he)

theorem merging_buildTree (freq : Vector Count 256) :
    Merging (leavesOf freq) (buildTree freq).heap (buildTree freq).arena :=
  mergeLoop_induction (Merging (leavesOf freq)) (fun _ _ _ _ _ _ inv hx hy => inv.merge hx hy) _ _ _
    (merging_leafHeap freq)

/-- Every leaf a build inserts is in the tree it leaves (R141). -/
theorem inTree_rebuild_of_mem_leavesOf (s : State) {l : HeapEntry} (hl : l ∈ leavesOf s.freq) :
    InTree (rebuild s) l.node := by
  obtain ⟨⟨w, heap⟩, -, -⟩ := buildTree_spec s.freq
  obtain ⟨e, he, hr⟩ := (merging_buildTree s.freq).reach l hl
  rw [heap, List.mem_singleton] at he
  subst he
  exact ⟨rfl, hr⟩

/-- A build leaves a tree as R43 (c) and (d) have it. -/
theorem treeOk_rebuild (s : State) : TreeOk (rebuild s) := by
  obtain ⟨⟨w, heap⟩, root, slots⟩ := buildTree_spec s.freq
  have inv := merging_buildTree s.freq
  have size := inv.size
  rw [heap, List.length_singleton] at size
  rw [TreeOk, if_pos (rebuild_treeValid s)]
  refine ⟨?_, ?_, ?_, inv.below, inTree_rebuild_of_mem_leavesOf s (l := ⟨notSeen, 0⟩) (by simp [leavesOf]),
    inTree_rebuild_of_mem_leavesOf s (l := ⟨endOfStream, 0⟩) (by simp [leavesOf])⟩
  · rw [State.nint, rebuild_arena]
    omega
  · rw [State.nint, rebuild_arena]
    omega
  · rw [State.nint, rebuild_root, rebuild_arena, root, internalNode]
    congr 1
    omega

end Sys2Proof.Machine
end

section
/-! PROOFS. The session sequencer (spec/44_session.md R190 to R194): NOP and SESS_INIT, what ENC_STEP and DEC_STEP can do,
and the state machine of SESSION. -/

namespace Sys2Proof

@[simp] theorem modeLegal_iff (o : Opnd) : modeLegal o = true ↔ o.toNat ≤ 1 := decide_eq_true_iff

end Sys2Proof

namespace Sys2Proof.Machine

/-! ## NOP (R191) -/

theorem exec_nop (s : State) : exec .nop s = .next (complete s) := rfl

/-- While FAULT = 1 a command write is dropped (R204). -/
theorem acceptCommand_dropped {s : State} (w : Word) (faulted : s.fault = true) : acceptCommand w s = s := by
  rw [acceptCommand, if_pos faulted]

/-- Settles O45: `exec_nop` is the effect, the word has no operand, and a write while FAULT = 1 is dropped. -/
theorem nopRule : Obligations.NopRule :=
  ⟨rfl, fun _ s hop hlow => executeWord_noneForm s (by rw [opField, hop]; decide) hlow, exec_nop,
    fun s faulted => by rw [perform_memWrite_ok (loc := .cmd) rfl, acceptCommand_dropped _ faulted]⟩

/-! ## SESS_INIT (R192) -/

theorem exec_sessInit_range {o : Opnd} (s : State) (h : 1 < o.toNat) :
    exec (.sessInit o) s = .next (raise .operandRange s) := by
  simp [exec, execSessInit, h]

theorem exec_sessInit_legal {o : Opnd} (s : State) (h : o.toNat ≤ 1) :
    exec (.sessInit o) s = .next (complete { s with
      freq := zeroTable, heap := [], arena := [], root := 0, treeValid := false, stale := false, dstat := .none,
      session := if o = 0 then .encoding else .decoding }) := by
  simp [exec, execSessInit, h]

/-- Settles O46: the range fault, and the new session, whose every count is that of the zero table. -/
theorem sessInitRule : Obligations.SessInitRule :=
  ⟨fun _ => encode_eq_or 0x01 rfl rfl, fun _ s _ hr => executeWord_reserved s hr, fun _ s =>
    ⟨exec_sessInit_range s, fun h => ⟨_, exec_sessInit_legal s h, countAt_zeroTable, rfl⟩⟩⟩

/-! ## ENC_STEP (R193) -/

theorem exec_build (s : State) : exec .build s = .next (complete (rebuild s)) := rfl

theorem exec_encStep_range {o : Opnd} (s : State) (range : symLegal o = false) :
    exec (.encStep o) s = .next (raise .operandRange s) := by
  simp [exec, execEncStep, range]

theorem exec_encStep_sessionMode {o : Opnd} {s : State} (legal : symLegal o = true) (mode : s.session ≠ .encoding) :
    exec (.encStep o) s = .next (raise .sessionMode s) := by
  simp [exec, execEncStep, legal, mode]

theorem exec_encStep_full {o : Opnd} {s : State} (legal : symLegal o = true) (mode : s.session = .encoding)
    (full : o ≠ endOfStream ∧ countFull s (byteOf o) = true) :
    exec (.encStep o) s = .next (raise .cntOverflow s) := by
  rw [exec, execEncStep, legal, if_neg (by simp), if_neg (not_not.mpr mode), if_pos full]

theorem exec_encStep_broken {o : Opnd} {s : State} (legal : symLegal o = true) (mode : s.session = .encoding)
    (room : ¬ (o ≠ endOfStream ∧ countFull s (byteOf o) = true)) (hl : lookup (rebuild s) o = none) :
    exec (.encStep o) s = .fault .brokenTree := by
  rw [exec, execEncStep, legal, if_neg (by simp), if_neg (not_not.mpr mode), if_neg room, hl]

theorem exec_encStep_found {o : Opnd} {s : State} {p : BitString} {found : Bool} (legal : symLegal o = true)
    (mode : s.session = .encoding) (room : ¬ (o ≠ endOfStream ∧ countFull s (byteOf o) = true))
    (hl : lookup (rebuild s) o = some (p, found)) :
    exec (.encStep o) s =
      .next (complete (afterEncode o (emitBits (emission o p found) (putCodeword p found (rebuild s))))) := by
  rw [exec, execEncStep, legal, if_neg (by simp), if_neg (not_not.mpr mode), if_neg room, hl]

/-- Everything ENC_STEP can do that leaves a next state. -/
theorem exec_encStep_cases {o : Opnd} {s t : State} (h : exec (.encStep o) s = .next t) :
    (symLegal o = false ∧ t = raise .operandRange s) ∨
    (symLegal o = true ∧ s.session ≠ .encoding ∧ t = raise .sessionMode s) ∨
    (symLegal o = true ∧ s.session = .encoding ∧ o ≠ endOfStream ∧ countFull s (byteOf o) = true ∧
      t = raise .cntOverflow s) ∨
    ∃ p found, symLegal o = true ∧ s.session = .encoding ∧ ¬ (o ≠ endOfStream ∧ countFull s (byteOf o) = true) ∧
      lookup (rebuild s) o = some (p, found) ∧
      t = complete (afterEncode o (emitBits (emission o p found) (putCodeword p found (rebuild s)))) := by
  cases legal : symLegal o with
  | false =>
    rw [exec_encStep_range s legal] at h
    exact .inl ⟨rfl, (Host.Outcome.next.inj h).symm⟩
  | true =>
    by_cases mode : s.session = .encoding
    case neg =>
      rw [exec_encStep_sessionMode legal mode] at h
      exact .inr (.inl ⟨rfl, mode, (Host.Outcome.next.inj h).symm⟩)
    by_cases full : o ≠ endOfStream ∧ countFull s (byteOf o) = true
    · rw [exec_encStep_full legal mode full] at h
      exact .inr (.inr (.inl ⟨rfl, mode, full.1, full.2, (Host.Outcome.next.inj h).symm⟩))
    · cases hl : lookup (rebuild s) o with
      | none => exact absurd ((exec_encStep_broken legal mode full hl).symm.trans h) nofun
      | some found =>
        rw [exec_encStep_found legal mode full hl] at h
        exact .inr (.inr (.inr ⟨_, _, rfl, mode, full, rfl, (Host.Outcome.next.inj h).symm⟩))

theorem afterEncode_endOfStream (s : State) : afterEncode endOfStream s = { s with session := .done } := rfl

theorem afterEncode_byte {o : Opnd} (s : State) (h : o ≠ endOfStream) : afterEncode o s = recordByte (byteOf o) s := by
  rw [afterEncode, if_neg h]

theorem afterEncode_session (o : Opnd) (s : State) :
    (afterEncode o s).session = if o = endOfStream then .done else s.session := by
  rw [afterEncode]
  split <;> rfl

/-- What ENC_STEP sends: the codeword, then the literal of a byte that is not in the tree (R193). -/
theorem emitBits_emission_bitSink (o : Opnd) (p : BitString) (found : Bool) (s : State) :
    (emitBits (emission o p found) s).bitSink = s.bitSink ++ p ++ if found then [] else bin8 (byteOf o) := by
  cases found <;> simp [emission]

theorem ne_endOfStream_of_byte {o : Opnd} (h : o.toNat ≤ 255) : o ≠ endOfStream := by
  rintro rfl
  exact absurd h (by decide)

/-- Settles O47: the three faults, and on the tree BUILD leaves, which meets TreeOk, the codeword `lookup_spec` describes put
into the register and sent, then END_OF_STREAM's end of the session or the record of the byte. -/
theorem encStepRule : Obligations.EncStepRule := by
  refine ⟨fun _ => encode_eq_or 0x0C rfl rfl, fun w s _ hr => executeWord_reserved s hr, fun o s => ⟨?_, ?_, ?_, ?_⟩⟩
  · exact fun range => exec_encStep_range s (decide_eq_false range)
  · exact fun legal => exec_encStep_sessionMode ((symLegal_iff o).mpr legal)
  · exact fun byte mode full => exec_encStep_full ((symLegal_iff o).mpr (.inl byte)) mode
      ⟨ne_endOfStream_of_byte byte, (countFull_iff s _).mpr full⟩
  · intro mode room
    have legal : symLegal o = true := (symLegal_iff o).mpr (room.imp_left And.left)
    obtain ⟨p, found, hl, inTree, path, len⟩ := lookup_spec (treeOk_rebuild s) rfl (isLeaf_of_symLegal legal)
    obtain ⟨-, size, -⟩ := (treeOk_rebuild s).of_treeValid rfl
    have cwLen : (BitVec.ofNat 9 p.length).toNat = p.length := Nat.mod_eq_of_lt (by omega)
    have cw := putCodeword_bit p found (rebuild s)
    have sink := emitBits_emission_bitSink o p found (putCodeword p found (rebuild s))
    obtain ⟨byte, notFull⟩ | eos := room
    · have ne := ne_endOfStream_of_byte byte
      have hx := exec_encStep_found legal mode (fun full => notFull ((countFull_iff s _).mp full.2)) hl
      rw [afterEncode_byte _ ne] at hx
      exact ⟨_, _, p, exec_build s, hx, inTree, path, cwLen, cw, sink, fun eos => absurd byte (by omega),
        fun _ => ⟨countAt_putCount_same _ _ _, fun c hc => countAt_putCount_ne _ _ _ _ hc, rfl⟩⟩
    · obtain rfl : o = endOfStream := BitVec.eq_of_toNat_eq eos
      have hx := exec_encStep_found legal mode (fun full => full.1 rfl) hl
      rw [afterEncode_endOfStream] at hx
      exact ⟨_, _, p, exec_build s, hx, inTree, path, cwLen, cw, sink, fun _ => rfl, fun byte => absurd eos (by omega)⟩

/-! ## DEC_STEP (R194) -/

theorem exec_decStep_sessionMode {s : State} (mode : s.session ≠ .decoding) :
    exec .decStep s = .next (raise .sessionMode s) := by
  simp [exec, execDecStep, mode]

theorem exec_decStep_broken {s : State} (mode : s.session = .decoding)
    (hw : decodeWalk (rebuild s).arena (rebuild s).root s.bitSource = .broken) :
    exec .decStep s = .fault .brokenTree := by
  rw [exec, execDecStep, if_neg (not_not.mpr mode), hw]

theorem exec_decStep_starved {s : State} (mode : s.session = .decoding)
    (hw : decodeWalk (rebuild s).arena (rebuild s).root s.bitSource = .starved) : exec .decStep s = .next s := by
  rw [exec, execDecStep, if_neg (not_not.mpr mode), hw]

theorem exec_decStep_done {s : State} {st : DStat} {v : Sym} {rest : List Token} (mode : s.session = .decoding)
    (hw : decodeWalk (rebuild s).arena (rebuild s).root s.bitSource = .done st v rest) :
    exec .decStep s = .next (afterDecode st v { rebuild s with dstat := st, rSym := v, bitSource := rest }) := by
  rw [exec, execDecStep, if_neg (not_not.mpr mode), hw]

/-- Everything DEC_STEP can do that leaves a next state. -/
theorem exec_decStep_cases {s t : State} (h : exec .decStep s = .next t) :
    (s.session ≠ .decoding ∧ t = raise .sessionMode s) ∨
    (s.session = .decoding ∧ decodeWalk (rebuild s).arena (rebuild s).root s.bitSource = .starved ∧ t = s) ∨
    ∃ st v rest, s.session = .decoding ∧
      decodeWalk (rebuild s).arena (rebuild s).root s.bitSource = .done st v rest ∧
      t = afterDecode st v { rebuild s with dstat := st, rSym := v, bitSource := rest } := by
  by_cases mode : s.session = .decoding
  case neg =>
    rw [exec_decStep_sessionMode mode] at h
    exact .inl ⟨mode, (Host.Outcome.next.inj h).symm⟩
  cases hw : decodeWalk (rebuild s).arena (rebuild s).root s.bitSource with
  | broken => exact absurd ((exec_decStep_broken mode hw).symm.trans h) nofun
  | starved =>
    rw [exec_decStep_starved mode hw] at h
    exact .inr (.inl ⟨mode, rfl, (Host.Outcome.next.inj h).symm⟩)
  | done st v rest =>
    rw [exec_decStep_done mode hw] at h
    exact .inr (.inr ⟨_, _, _, mode, rfl, (Host.Outcome.next.inj h).symm⟩)

/-- A byte is output and recorded, or its count is full (R194, R207). -/
theorem afterDecode_byte {st : DStat} (v : Sym) (s : State) (byte : st = .leaf ∨ st = .literal) :
    afterDecode st v s =
      if countFull s (v.setWidth 8) then raise .cntOverflow s
      else complete (recordByte (v.setWidth 8) (emitByte (v.setWidth 8) s)) :=
  if_pos byte

theorem afterDecode_end {st : DStat} (v : Sym) (s : State) (ending : ¬ (st = .leaf ∨ st = .literal)) :
    afterDecode st v s = complete { s with session := .done } :=
  if_neg ending

theorem readLiteral_ne_none {count v : Nat} {tokens rest : List Token} {st : DStat} {sym : Sym}
    (h : readLiteral count v tokens = .done st sym rest) : st ≠ .none := by
  fun_induction readLiteral count v tokens with
  | case1 => cases h; nofun
  | case2 => cases h
  | case3 _ _ _ ih => exact ih h
  | case4 _ _ _ ih => exact ih h
  | case5 => cases h; nofun

/-- DecodeWalk never answers the status NONE (R164). -/
theorem decodeWalk_ne_none {arena : List ArenaSlot} {root : NodeIx} {tokens rest : List Token} {st : DStat} {sym : Sym}
    (h : decodeWalk arena root tokens = .done st sym rest) : st ≠ .none := by
  rw [decodeWalk] at h
  split at h
  · cases h
  · cases h
  · cases h; nofun
  · split at h
    · exact readLiteral_ne_none h
    · split at h <;> (cases h; nofun)

/-! ## The state machine of SESSION (R190) -/

/-- What R190 says of the commands outside the sequencer: SESSION is not written, and the effect is the same in every
session state. -/
def IgnoresSession (i : Instr) (s t : State) : Prop :=
  t.session = s.session ∧ ∀ x : Session, exec i { s with session := x } = .next { t with session := x }

theorem IgnoresSession.of_exec {i : Instr} {s t u : State} (hu : exec i s = .next u) (frame : IgnoresSession i s u)
    (h : exec i s = .next t) : IgnoresSession i s t :=
  Host.Outcome.next.inj (hu.symm.trans h) ▸ frame

theorem exec_ftRecord_ignoresSession {o : Opnd} {s t : State} (h : exec (.ftRecord o) s = .next t) :
    IgnoresSession (.ftRecord o) s t := by
  rcases Nat.lt_or_ge 255 o.toNat with range | legal
  · exact .of_exec (exec_ftRecord_range s range) ⟨rfl, fun _ => exec_ftRecord_range _ range⟩ h
  by_cases full : (countAt s.freq (byteOf o)).toNat = 2 ^ s.cntW.val - 1
  · exact .of_exec (exec_ftRecord_full legal full) ⟨rfl, fun _ => exec_ftRecord_full legal full⟩ h
  · exact .of_exec (exec_ftRecord_room legal full) ⟨rfl, fun _ => exec_ftRecord_room legal full⟩ h

theorem exec_ftQuery_ignoresSession {o : Opnd} {s t : State} (h : exec (.ftQuery o) s = .next t) :
    IgnoresSession (.ftQuery o) s t := by
  rcases Nat.lt_or_ge 255 o.toNat with range | legal
  · exact .of_exec (exec_ftQuery_range s range) ⟨rfl, fun _ => exec_ftQuery_range _ range⟩ h
  · exact .of_exec (exec_ftQuery_legal s legal) ⟨rfl, fun _ => exec_ftQuery_legal _ legal⟩ h

theorem exec_ftNext_ignoresSession {o : Opnd} {s t : State} (h : exec (.ftNext o) s = .next t) :
    IgnoresSession (.ftNext o) s t := by
  rcases Nat.lt_or_ge 256 o.toNat with range | legal
  · exact .of_exec (exec_ftNext_range s range) ⟨rfl, fun _ => exec_ftNext_range _ range⟩ h
  cases found : (observed s.freq).find? fun e => decide (o.toNat ≤ e.2) with
  | some e => exact .of_exec (exec_ftNext_some legal found) ⟨rfl, fun _ => exec_ftNext_some legal found⟩ h
  | none => exact .of_exec (exec_ftNext_none legal found) ⟨rfl, fun _ => exec_ftNext_none legal found⟩ h

theorem exec_heapInsert_ignoresSession {o : Opnd} {s t : State} (h : exec (.heapInsert o) s = .next t) :
    IgnoresSession (.heapInsert o) s t := by
  rcases Nat.lt_or_ge o.toNat (258 + s.nint) with legal | range
  · by_cases full : s.hsize = Config.heapCap
    · exact .of_exec (exec_heapInsert_full legal full) ⟨rfl, fun _ => exec_heapInsert_full legal full⟩ h
    · exact .of_exec (exec_heapInsert_room legal full) ⟨rfl, fun _ => exec_heapInsert_room legal full⟩ h
  · exact .of_exec (exec_heapInsert_range range) ⟨rfl, fun _ => exec_heapInsert_range range⟩ h

theorem exec_heapExtract_ignoresSession {s t : State} (h : exec .heapExtract s = .next t) :
    IgnoresSession .heapExtract s t := by
  by_cases empty : s.heap = []
  · exact .of_exec (exec_heapExtract_empty empty) ⟨rfl, fun _ => exec_heapExtract_empty empty⟩ h
  · obtain ⟨top, rest, he⟩ := heapExtract_isSome empty
    exact .of_exec (exec_heapExtract_some he) ⟨rfl, fun _ => exec_heapExtract_some he⟩ h

theorem KeepsTreeAndSession.ignoresSession {i : Instr} {s t : State} (h : KeepsTreeAndSession i s t) :
    IgnoresSession i s t := by
  obtain ⟨-, -, -, -, -, -, session, same⟩ := h
  exact ⟨session, same⟩

theorem exec_ignoresSession {i : Instr} {s t : State} (notInit : ∀ o, i ≠ .sessInit o) (notEnc : ∀ o, i ≠ .encStep o)
    (notDec : i ≠ .decStep) (h : exec i s = .next t) : IgnoresSession i s t := by
  cases i with
  | nop => exact .of_exec (exec_nop s) ⟨rfl, fun _ => exec_nop _⟩ h
  | sessInit o => exact absurd rfl (notInit o)
  | ftReset => exact .of_exec (exec_ftReset s) ⟨rfl, fun _ => exec_ftReset _⟩ h
  | ftRecord o => exact exec_ftRecord_ignoresSession h
  | ftQuery o => exact exec_ftQuery_ignoresSession h
  | ftNext o => exact exec_ftNext_ignoresSession h
  | heapClear => exact .of_exec (exec_heapClear s) ⟨rfl, fun _ => exec_heapClear _⟩ h
  | heapInsert o => exact exec_heapInsert_ignoresSession h
  | heapExtract => exact exec_heapExtract_ignoresSession h
  | build => exact .of_exec (exec_build s) ⟨rfl, fun _ => exec_build _⟩ h
  | encode o => exact (exec_encode_frame h).ignoresSession
  | decode => exact (exec_decode_frame h).ignoresSession
  | encStep o => exact absurd rfl (notEnc o)
  | decStep => exact absurd rfl notDec

/-- In an encoder's session ENC_STEP keeps SESSION, faults included, but for END_OF_STREAM, which ends it and cannot
fault. -/
theorem exec_encStep_session {o : Opnd} {s t : State} (mode : s.session = .encoding)
    (h : exec (.encStep o) s = .next t) : t.session = if o = endOfStream then .done else .encoding := by
  obtain ⟨range, rfl⟩ | ⟨-, other, -⟩ | ⟨-, -, byte, -, rfl⟩ | ⟨p, found, -, -, -, -, rfl⟩ := exec_encStep_cases h
  · have ne : o ≠ endOfStream := by
      rintro rfl
      exact absurd range (by decide)
    rw [if_neg ne, raise_session, mode]
  · exact absurd mode other
  · rw [if_neg byte, raise_session, mode]
  · rw [complete_session, afterEncode_session, emitBits_session, putCodeword_session, rebuild_session, mode]

/-- In a decoder's session a DEC_STEP that completes ends the session exactly when DSTAT says the stream ended. -/
theorem exec_decStep_session {s t : State} (mode : s.session = .decoding) (busy : s.busy = true)
    (h : exec .decStep s = .next t) (idle : t.busy = false) :
    t.session = if t.dstat = .eos ∨ t.dstat = .trunc then .done else .decoding := by
  obtain ⟨other, -⟩ | ⟨-, -, rfl⟩ | ⟨st, v, rest, -, hw, rfl⟩ := exec_decStep_cases h
  · exact absurd mode other
  · exact absurd (busy.symm.trans idle) nofun
  · by_cases byte : st = .leaf ∨ st = .literal
    · have goesOn : ¬ (st = .eos ∨ st = .trunc) := by rcases byte with rfl | rfl <;> decide
      rw [afterDecode_byte _ _ byte]
      split <;> simp [mode, goesOn]
    · have ends : st = .eos ∨ st = .trunc := by
        cases st with
        | none => exact absurd rfl (decodeWalk_ne_none hw)
        | leaf => exact absurd (.inl rfl) byte
        | literal => exact absurd (.inr rfl) byte
        | eos => exact .inl rfl
        | trunc => exact .inr rfl
      rw [afterDecode_end _ _ byte]
      exact (if_pos ends).symm

/-- Settles O50: SESS_INIT sets SESSION, ENC_STEP and DEC_STEP end it or keep it, and no other command's case or effect
reads it. -/
theorem sessionStateMachine : Obligations.SessionStateMachine := by
  refine ⟨fun s t h => ?_, fun s => ⟨_, exec_sessInit_legal s (by decide), rfl⟩,
    fun s => ⟨_, exec_sessInit_legal s (by decide), rfl⟩, fun o s t mode h ne => ?_, fun s t mode h => ?_,
    fun s t => exec_decStep_session, fun o s legal => exec_encStep_sessionMode ((symLegal_iff o).mpr legal),
    fun s => exec_decStep_sessionMode, fun i s t x notInit notEnc notDec h => ?_⟩
  · obtain rfl := Host.Outcome.next.inj ((perform_reset s).symm.trans h)
    rfl
  · exact (exec_encStep_session mode h).trans (if_neg ne)
  · exact exec_encStep_session mode h
  · obtain ⟨session, same⟩ := exec_ignoresSession notInit notEnc notDec h
    exact ⟨session, same x⟩

end Sys2Proof.Machine
end

section
/-! PROOFS. Faults (spec/60_exceptions.md R203 to R206): what each operand-checking command can do, that the fault
registers are read by no command, what keeps them, and the order of a command's checks. -/

namespace Sys2Proof.Machine

/-! ## Everything a command can do -/

theorem eq_of_next {r : Result} {t u : State} (hu : r = .next u) (h : r = .next t) : t = u :=
  Host.Outcome.next.inj (h.symm.trans hu)

/-- Everything FT_RECORD can do (R102). -/
theorem exec_ftRecord_cases {o : Opnd} {s t : State} (h : exec (.ftRecord o) s = .next t) :
    (255 < o.toNat ∧ t = raise .operandRange s) ∨
    (o.toNat ≤ 255 ∧ (countAt s.freq (byteOf o)).toNat = 2 ^ s.cntW.val - 1 ∧ t = raise .cntOverflow s) ∨
    (o.toNat ≤ 255 ∧ (countAt s.freq (byteOf o)).toNat ≠ 2 ^ s.cntW.val - 1 ∧
      t = complete (recordByte (byteOf o) s)) := by
  rcases Nat.lt_or_ge 255 o.toNat with range | legal
  · exact .inl ⟨range, eq_of_next (exec_ftRecord_range s range) h⟩
  by_cases full : (countAt s.freq (byteOf o)).toNat = 2 ^ s.cntW.val - 1
  · exact .inr (.inl ⟨legal, full, eq_of_next (exec_ftRecord_full legal full) h⟩)
  · exact .inr (.inr ⟨legal, full, eq_of_next (exec_ftRecord_room legal full) h⟩)

/-- Everything FT_QUERY can do (R103). -/
theorem exec_ftQuery_cases {o : Opnd} {s t : State} (h : exec (.ftQuery o) s = .next t) :
    (255 < o.toNat ∧ t = raise .operandRange s) ∨
    (o.toNat ≤ 255 ∧ t = complete { s with
      rCount := countAt s.freq (byteOf o), hit := hitFlag (countAt s.freq (byteOf o)) }) := by
  rcases Nat.lt_or_ge 255 o.toNat with range | legal
  · exact .inl ⟨range, eq_of_next (exec_ftQuery_range s range) h⟩
  · exact .inr ⟨legal, eq_of_next (exec_ftQuery_legal s legal) h⟩

/-- Everything FT_NEXT can do (R104). -/
theorem exec_ftNext_cases {o : Opnd} {s t : State} (h : exec (.ftNext o) s = .next t) :
    (256 < o.toNat ∧ t = raise .operandRange s) ∨
    (∃ c b, o.toNat ≤ 256 ∧ (observed s.freq).find? (fun e => decide (o.toNat ≤ e.2)) = some (c, b) ∧
      t = complete { s with rSym := BitVec.ofNat 9 b, rCount := c, hit := true }) ∨
    (o.toNat ≤ 256 ∧ (observed s.freq).find? (fun e => decide (o.toNat ≤ e.2)) = none ∧
      t = complete { s with rSym := 256, rCount := 0, hit := false }) := by
  rcases Nat.lt_or_ge 256 o.toNat with range | legal
  · exact .inl ⟨range, eq_of_next (exec_ftNext_range s range) h⟩
  cases found : (observed s.freq).find? fun e => decide (o.toNat ≤ e.2) with
  | some e => exact .inr (.inl ⟨_, _, legal, rfl, eq_of_next (exec_ftNext_some legal found) h⟩)
  | none => exact .inr (.inr ⟨legal, rfl, eq_of_next (exec_ftNext_none legal found) h⟩)

/-- Everything HEAP_INSERT can do (R125). -/
theorem exec_heapInsert_cases {o : Opnd} {s t : State} (h : exec (.heapInsert o) s = .next t) :
    (258 + s.nint ≤ o.toNat ∧ t = raise .operandRange s) ∨
    (o.toNat < 258 + s.nint ∧ s.hsize = Config.heapCap ∧ t = raise .heapFull s) ∨
    (o.toNat < 258 + s.nint ∧ s.hsize ≠ Config.heapCap ∧
      t = complete { s with heap := heapInsert s.heap ⟨o, weightOf s.freq s.arena o⟩ }) := by
  rcases Nat.lt_or_ge o.toNat (258 + s.nint) with legal | range
  · by_cases full : s.hsize = Config.heapCap
    · exact .inr (.inl ⟨legal, full, eq_of_next (exec_heapInsert_full legal full) h⟩)
    · exact .inr (.inr ⟨legal, full, eq_of_next (exec_heapInsert_room legal full) h⟩)
  · exact .inl ⟨range, eq_of_next (exec_heapInsert_range range) h⟩

/-- Everything HEAP_EXTRACT can do (R126). -/
theorem exec_heapExtract_cases {s t : State} (h : exec .heapExtract s = .next t) :
    (s.heap = [] ∧ t = raise .heapEmpty s) ∨
    ∃ top rest, heapExtract s.heap = some (top, rest) ∧
      t = complete { s with heap := rest, rNode := top.node, rWeight := top.wgt } := by
  by_cases empty : s.heap = []
  · exact .inl ⟨empty, eq_of_next (exec_heapExtract_empty empty) h⟩
  · obtain ⟨top, rest, he⟩ := heapExtract_isSome empty
    exact .inr ⟨top, rest, he, eq_of_next (exec_heapExtract_some he) h⟩

/-! ## No command reads the fault registers -/

/-- The state with FAULT = 1 and FCODE = c, as a fault recorded beside the command in flight leaves it (R206). -/
def State.withFault (c : FaultCode) (s : State) : State := { s with fault := true, fcode := c }

theorem withFault_fcode_self {s : State} (faulted : s.fault = true) : s.withFault s.fcode = s := by
  rw [State.withFault, ← faulted]

theorem complete_withFault (c : FaultCode) (s : State) : complete (s.withFault c) = (complete s).withFault c := rfl

theorem recordFault_withFault {s : State} (c : FaultCode) (clear : s.fault = false) :
    recordFault c s = s.withFault c := by
  simp [recordFault, State.withFault, clear]

theorem afterEncode_withFault (o : Opnd) (c : FaultCode) (s : State) :
    afterEncode o (s.withFault c) = (afterEncode o s).withFault c := by
  by_cases eos : o = endOfStream
  · subst eos
    rfl
  · rw [afterEncode_byte _ eos, afterEncode_byte _ eos]
    rfl

theorem afterDecode_withFault (st : DStat) (v : Sym) (c : FaultCode) (s : State) :
    afterDecode st v (s.withFault c) = (afterDecode st v s).withFault c := by
  by_cases byte : st = .leaf ∨ st = .literal
  · rw [afterDecode_byte _ _ byte, afterDecode_byte _ _ byte, apply_ite (State.withFault c)]
    rfl
  · rw [afterDecode_end _ _ byte, afterDecode_end _ _ byte]
    rfl

/-- A command takes the same case with a fault recorded as without one, and has the same effect but for FAULT and FCODE,
which stay as recorded, also where the command faults itself (R202, R206). -/
theorem exec_withFault {i : Instr} {s t : State} (c : FaultCode) (h : exec i s = .next t) :
    exec i (s.withFault c) = .next (t.withFault c) := by
  cases i with
  | nop => obtain rfl := eq_of_next (exec_nop s) h; exact exec_nop _
  | sessInit o =>
    obtain ⟨range, rfl⟩ | ⟨legal, rfl⟩ := exec_sessInit_cases h
    · exact exec_sessInit_range _ (by simpa [modeLegal] using range)
    · exact exec_sessInit_legal _ ((modeLegal_iff o).mp legal)
  | ftReset => obtain rfl := eq_of_next (exec_ftReset s) h; exact exec_ftReset _
  | ftRecord o =>
    obtain ⟨range, rfl⟩ | ⟨legal, full, rfl⟩ | ⟨legal, room, rfl⟩ := exec_ftRecord_cases h
    · exact exec_ftRecord_range _ range
    · exact exec_ftRecord_full legal full
    · exact exec_ftRecord_room legal room
  | ftQuery o =>
    obtain ⟨range, rfl⟩ | ⟨legal, rfl⟩ := exec_ftQuery_cases h
    · exact exec_ftQuery_range _ range
    · exact exec_ftQuery_legal _ legal
  | ftNext o =>
    obtain ⟨range, rfl⟩ | ⟨n, b, legal, found, rfl⟩ | ⟨legal, found, rfl⟩ := exec_ftNext_cases h
    · exact exec_ftNext_range _ range
    · exact exec_ftNext_some legal found
    · exact exec_ftNext_none legal found
  | heapClear => obtain rfl := eq_of_next (exec_heapClear s) h; exact exec_heapClear _
  | heapInsert o =>
    obtain ⟨range, rfl⟩ | ⟨legal, full, rfl⟩ | ⟨legal, room, rfl⟩ := exec_heapInsert_cases h
    · exact exec_heapInsert_range range
    · exact exec_heapInsert_full legal full
    · exact exec_heapInsert_room legal room
  | heapExtract =>
    obtain ⟨empty, rfl⟩ | ⟨top, rest, he, rfl⟩ := exec_heapExtract_cases h
    · exact exec_heapExtract_empty empty
    · exact exec_heapExtract_some he
  | build => obtain rfl := eq_of_next (exec_build s) h; exact exec_build _
  | encode o =>
    obtain ⟨range, rfl⟩ | ⟨legal, noTree, rfl⟩ | ⟨p, found, legal, valid, hl, rfl⟩ := exec_encode_cases h
    · exact exec_encode_range _ range
    · exact exec_encode_noTree legal noTree
    · exact exec_encode_found legal valid hl
  | decode =>
    obtain ⟨noTree, rfl⟩ | ⟨valid, hw, rfl⟩ | ⟨st, v, rest, valid, hw, rfl⟩ := exec_decode_cases h
    · exact exec_decode_noTree noTree
    · exact exec_decode_starved valid hw
    · exact exec_decode_done valid hw
  | encStep o =>
    obtain ⟨range, rfl⟩ | ⟨legal, mode, rfl⟩ | ⟨legal, mode, byte, full, rfl⟩ | ⟨p, found, legal, mode, room, hl, rfl⟩ :=
      exec_encStep_cases h
    · exact exec_encStep_range _ range
    · exact exec_encStep_sessionMode legal mode
    · exact exec_encStep_full legal mode ⟨byte, full⟩
    · rw [← complete_withFault, ← afterEncode_withFault]
      exact exec_encStep_found legal mode room hl
  | decStep =>
    obtain ⟨mode, rfl⟩ | ⟨mode, hw, rfl⟩ | ⟨st, v, rest, mode, hw, rfl⟩ := exec_decStep_cases h
    · exact exec_decStep_sessionMode mode
    · exact exec_decStep_starved mode hw
    · rw [← afterDecode_withFault]
      exact exec_decStep_done mode hw

/-! ## What a bus access can do -/

theorem perform_memRead_cases {s t : State} {bytes : Nat} {a : Addr} (h : perform (.memRead bytes a) s = .next t) :
    ∃ reads draws, t = { s with hostReads := reads, draws := draws } := by
  cases hr : resolve false bytes a with
  | error e => exact absurd ((perform_memRead_error hr).symm.trans h) nofun
  | ok loc => exact ⟨_, _, eq_of_next (by rw [perform, busRead, hr]) h⟩

theorem perform_memWrite_cases {s t : State} {bytes : Nat} {a : Addr} {v : Word}
    (h : perform (.memWrite bytes a v) s = .next t) : t = acceptCommand v s := by
  cases hr : resolve true bytes a with
  | error e => exact absurd ((perform_memWrite_error hr).symm.trans h) nofun
  | ok loc => exact eq_of_next (perform_memWrite_ok hr) h

/-- A write of CMD reaches the acceptance of R204. -/
theorem perform_cmdWrite (s : State) (w : Word) : perform (.memWrite 4 0 w) s = .next (acceptCommand w s) :=
  perform_memWrite_ok (loc := .cmd) rfl

theorem perform_cmdWrite_dropped {s : State} (w : Word) (faulted : s.fault = true) :
    perform (.memWrite 4 0 w) s = .next s := by
  rw [perform_cmdWrite, acceptCommand_dropped w faulted]

/-- A command write while a command is in flight is discarded and raises OVERRUN (R206). -/
theorem acceptCommand_overrun {s : State} (w : Word) (busy : s.busy = true) (clear : s.fault = false) :
    acceptCommand w s = s.withFault .overrun := by
  rw [acceptCommand, if_neg (by simp [clear]), if_pos busy, recordFault_withFault _ clear]

/-- Settles O9: `exec_withFault` at OVERRUN, between the write that raises it and the writes dropped after it. -/
theorem overrunRule : Obligations.OverrunRule :=
  ⟨fun s w busy clear => by rw [perform_cmdWrite, acceptCommand_overrun w busy clear, State.withFault],
    fun _ _ _ => exec_withFault .overrun, fun _ w => perform_cmdWrite_dropped w⟩

/-! ## What keeps the fault registers -/

/-- With FAULT = 1 a command keeps FAULT and FCODE: `exec_withFault` at the state's own code. -/
theorem exec_keeps_fault {i : Instr} {s t : State} (faulted : s.fault = true) (h : exec i s = .next t) :
    t.fault = true ∧ t.fcode = s.fcode := by
  have same := exec_withFault s.fcode h
  rw [withFault_fcode_self faulted] at same
  rw [eq_of_next same h]
  exact ⟨rfl, rfl⟩

theorem blockStep_keeps_fault {s t : State} (faulted : s.fault = true) (h : blockStep s = .next t) :
    t.fault = true ∧ t.fcode = s.fcode := by
  obtain ⟨-, rfl⟩ | ⟨w, why, -, -, rfl⟩ | ⟨w, i, -, -, hx⟩ := blockStep_cases h
  · exact ⟨faulted, rfl⟩
  · exact ⟨rfl, if_pos faulted⟩
  · exact exec_keeps_fault faulted hx

/-- Only the reset leaves a fault (R205). -/
theorem perform_keeps_fault {e : Event} {s t : State} (faulted : s.fault = true) (noReset : e ≠ .reset)
    (h : perform e s = .next t) : t.fault = true ∧ t.fcode = s.fcode := by
  cases e with
  | memRead bytes a =>
    obtain ⟨reads, draws, rfl⟩ := perform_memRead_cases h
    exact ⟨faulted, rfl⟩
  | memWrite bytes a v =>
    obtain rfl := (perform_memWrite_cases h).trans (acceptCommand_dropped v faulted)
    exact ⟨faulted, rfl⟩
  | deliver token =>
    obtain rfl := Host.Outcome.next.inj h
    exact ⟨faulted, rfl⟩
  | blockTurn => exact blockStep_keeps_fault faulted h
  | reset => exact absurd rfl noReset

theorem step_keeps_fault {s t : State} (faulted : s.fault = true) (noReset : ∀ rest, s.schedule ≠ .reset :: rest)
    (h : step s = .next t) : t.fault = true ∧ t.fcode = s.fcode := by
  obtain ⟨-, hb⟩ | ⟨e, rest, hs, hp⟩ := step_cases h
  · exact blockStep_keeps_fault faulted hb
  · refine perform_keeps_fault (s := { s with schedule := rest }) faulted ?_ hp
    rintro rfl
    exact noReset rest hs

/-- Settles O8: every step but the reset keeps the fault registers, and the reset takes both from `State.reset`. -/
theorem faultIsStickyUntilReset : Obligations.FaultIsStickyUntilReset := by
  refine ⟨fun _ _ => step_keeps_fault, fun _ w => perform_cmdWrite_dropped w, fun s _ => blockStep_idle s,
    fun s t h => ?_⟩
  obtain rfl := eq_of_next (perform_reset s) h
  exact ⟨rfl, rfl⟩

/-! ## The order of a command's checks (R203) -/

/-- Settles O7: each command's fault cases, whose premises say which checks come before. -/
theorem faultCheckOrder : Obligations.FaultCheckOrder :=
  ⟨fun w why s => executeWord_illegal s w why,
    fun _ s range => ⟨exec_encStep_range s (decide_eq_false range), exec_encode_range s (decide_eq_false range)⟩,
    fun _ s range => ⟨exec_ftRecord_range s range, exec_ftQuery_range s range⟩,
    fun _ s => exec_ftNext_range s,
    fun _ s => exec_sessInit_range s,
    fun _ _ => exec_heapInsert_range,
    fun o _ legal => exec_encStep_sessionMode ((symLegal_iff o).mpr legal),
    fun _ => exec_decStep_sessionMode,
    fun o _ legal => exec_encode_noTree ((symLegal_iff o).mpr legal),
    fun _ => exec_decode_noTree,
    fun _ _ => exec_heapInsert_full,
    fun _ empty => exec_heapExtract_empty (List.eq_nil_of_length_eq_zero empty),
    fun o s byte full => ⟨exec_ftRecord_full byte full, fun mode =>
      exec_encStep_full ((symLegal_iff o).mpr (.inl byte)) mode
        ⟨ne_endOfStream_of_byte byte, (countFull_iff s _).mpr full⟩⟩⟩

end Sys2Proof.Machine
end

section
/-! PROOFS. DecodeWalk (spec/43_translator.md R164): the function answers as the relation says, over the path it goes down
and the literal bits it takes. -/

namespace Sys2Proof.Machine

/-! ## The tree walk and the literal read -/

/-- At an internal node the walk needs a token. -/
theorem descend_internal_nil (arena : List ArenaSlot) {n : NodeIx} (hn : 258 ≤ n.toNat) :
    descend arena n [] = .starved := by
  simp [descend, isLeaf_eq_false n hn]

/-- At an internal node OTHER ends the walk, and it is taken. -/
theorem descend_internal_other (arena : List ArenaSlot) {n : NodeIx} (hn : 258 ≤ n.toNat) (rest : List Token) :
    descend arena n (.other :: rest) = .trunc rest := by
  simp [descend, isLeaf_eq_false n hn]

/-- The walk goes down a path to a leaf and takes its tokens alone. -/
theorem descend_follow_leaf {arena : List ArenaSlot} {n m : NodeIx} {p : BitString} (h : follow arena n p = some m)
    (leaf : m.toNat < 258) (rest : List Token) : descend arena n (tokensOf p ++ rest) = .leaf m rest := by
  rw [descend_follow h, descend_leaf _ _ _ ((isLeaf_iff m).mpr leaf)]

/-- The first bits of a literal go into its value, and the read goes on for the others. -/
theorem readLiteral_append (q : BitString) (count v : Nat) (rest : List Token) :
    readLiteral (q.length + count) v (tokensOf q ++ rest) = readLiteral count (literalValue v q) rest := by
  induction q generalizing v with
  | nil =>
    rw [List.length_nil, Nat.zero_add]
    rfl
  | cons b q ih =>
    rw [List.length_cons, Nat.succ_add]
    cases b
    · exact ih (2 * v)
    · exact ih (2 * v + 1)

/-- A literal read that has taken fewer bits than it wants goes on with at least one to take. -/
theorem exists_readLiteral_append {q : BitString} {count : Nat} (short : q.length < count) (v : Nat) :
    ∃ left v', ∀ rest, readLiteral count v (tokensOf q ++ rest) = readLiteral (left + 1) v' rest := by
  obtain ⟨left, rfl⟩ := Nat.exists_eq_add_of_lt short
  exact ⟨left, literalValue v q, readLiteral_append q (left + 1) v⟩

/-! ## DecodeWalk, by the node its path ends at -/

theorem decodeWalk_byte {arena : List ArenaSlot} {root n : NodeIx} {p : BitString}
    (path : follow arena root p = some n) (byte : n.toNat ≤ 255) (rest : List Token) :
    decodeWalk arena root (tokensOf p ++ rest) = .done .leaf (n.setWidth 9) rest := by
  have neNotSeen : n ≠ notSeen := by rintro rfl; exact absurd byte (by decide)
  have neEnd : n ≠ endOfStream := by rintro rfl; exact absurd byte (by decide)
  simp only [decodeWalk, descend_follow_leaf path (by omega), if_neg neNotSeen, if_neg neEnd]

theorem decodeWalk_notSeen {arena : List ArenaSlot} {root : NodeIx} {p : BitString}
    (path : follow arena root p = some notSeen) (rest : List Token) :
    decodeWalk arena root (tokensOf p ++ rest) = readLiteral 8 0 rest := by
  simp only [decodeWalk, descend_follow_leaf path (by decide), if_true]

theorem decodeWalk_endOfStream {arena : List ArenaSlot} {root : NodeIx} {p : BitString}
    (path : follow arena root p = some endOfStream) (rest : List Token) :
    decodeWalk arena root (tokensOf p ++ rest) = .done .eos 257 rest := by
  simp only [decodeWalk, descend_follow_leaf path (by decide), if_neg (show endOfStream ≠ notSeen by decide), if_true]

theorem decodeWalk_internal_nil {arena : List ArenaSlot} {root n : NodeIx} {p : BitString}
    (path : follow arena root p = some n) (internal : 258 ≤ n.toNat) :
    decodeWalk arena root (tokensOf p) = .starved := by
  have walk := descend_follow path []
  rw [List.append_nil, descend_internal_nil arena internal] at walk
  simp only [decodeWalk, walk]

theorem decodeWalk_internal_other {arena : List ArenaSlot} {root n : NodeIx} {p : BitString}
    (path : follow arena root p = some n) (internal : 258 ≤ n.toNat) (rest : List Token) :
    decodeWalk arena root (tokensOf p ++ .other :: rest) = .done .trunc 0x1FF rest := by
  simp only [decodeWalk, descend_follow path, descend_internal_other arena internal]

/-! ## The function answers as the relation says -/

theorem WalkEnds.decodeWalk_eq {arena : List ArenaSlot} {root : NodeIx} {tokens rest : List Token} {st : DStat} {v : Sym}
    (h : WalkEnds arena root tokens st v rest) : decodeWalk arena root tokens = .done st v rest := by
  cases h with
  | leaf path byte => exact decodeWalk_byte path byte rest
  | literal path => rw [decodeWalk_notSeen path, readLiteral_bin8]
  | eos path => exact decodeWalk_endOfStream path rest
  | truncCodeword path internal => exact decodeWalk_internal_other path internal rest
  | truncLiteral path short =>
    obtain ⟨left, v, goesOn⟩ := exists_readLiteral_append short 0
    rw [decodeWalk_notSeen path, goesOn, readLiteral]

theorem WalkStarves.decodeWalk_eq {arena : List ArenaSlot} {root : NodeIx} {tokens : List Token}
    (h : WalkStarves arena root tokens) : decodeWalk arena root tokens = .starved := by
  cases h with
  | inCodeword path internal => exact decodeWalk_internal_nil path internal
  | @inLiteral p q path short =>
    obtain ⟨left, v, goesOn⟩ := exists_readLiteral_append short 0
    rw [decodeWalk_notSeen path, ← List.append_nil (tokensOf q), goesOn, readLiteral]

/-- Settles O40: the word has no operand, and DECODE does what DecodeWalk answers, which is what the relations say of its
tokens. -/
theorem decodeRule : Obligations.DecodeRule :=
  ⟨rfl, fun _ s hop hlow => executeWord_noneForm s (by rw [opField, hop]; decide) hlow, fun _ =>
    ⟨exec_decode_noTree, fun _ _ _ valid ends => exec_decode_done valid ends.decodeWalk_eq,
      fun valid starves => exec_decode_starved valid starves.decodeWalk_eq⟩⟩

end Sys2Proof.Machine
end

section
/-! PROOFS. The decoder and the encoder are inverse to each other (spec/30_encoding.md sections 1 and 2). -/

namespace Sys2Proof

/-- The opcode map sends a command's own opcode and operand to the command (R81). -/
theorem commandOf_opcodeOf_operandOf (i : Instr) : commandOf (opcodeOf i).toNat (operandOf i) = some i := by
  cases i <;> rfl

theorem decode_encode (i : Instr) : decode (encode i) = .command i := by
  rw [decode_eq_command_iff, opField_encode, rsvField_encode, opndField_encode]
  exact ⟨commandOf_opcodeOf_operandOf i, rfl, operandOf_none_form i⟩

/-- A word that decodes to a command is made of the command's fields and zero reserved bits, so it is its encoding. -/
theorem encode_of_decode {w : Word} {i : Instr} (h : decode w = .command i) : encode i = w := by
  obtain ⟨op, opnd⟩ := fields_of_decode_command h
  obtain ⟨-, rsv, -⟩ := (decode_eq_command_iff w i).mp h
  calc encode i = opField w ++ (rsvField w ++ opndField w) := by rw [encode, op, opnd, rsv]; rfl
    _ = w := (word_eq_fields w).symm

end Sys2Proof

namespace Sys2Proof.Machine

/-- Settles O1: `decode_encode` one way, `encode_of_decode` the other. -/
theorem decodeEncodeRoundTrip : Obligations.DecodeEncodeRoundTrip :=
  ⟨decode_encode, fun _ _ => encode_of_decode⟩

/-- Settles O3: each word is decoded by evaluation. -/
theorem workedWordsDecode : Obligations.WorkedWordsDecode := by
  unfold Obligations.WorkedWordsDecode
  decide

end Sys2Proof.Machine
end

section
/-! PROOFS. What a command can do, said once: it raises a precise fault, it waits for tokens, or it has its effect and
completes. What a step can do, on top of that, and how a step keeps an invariant. -/

namespace Sys2Proof.Machine

/-! ## Everything a command can do -/

/-- The conditions under which a command raises a fault and has no other effect, with the fault's code (R202, R203). -/
inductive Raises : Instr → State → FaultCode → Prop where
  | sessInitRange {o : Opnd} {s : State} : 1 < o.toNat → Raises (.sessInit o) s .operandRange
  | ftRecordRange {o : Opnd} {s : State} : 255 < o.toNat → Raises (.ftRecord o) s .operandRange
  | ftRecordFull {o : Opnd} {s : State} : o.toNat ≤ 255 → (countAt s.freq (byteOf o)).toNat = 2 ^ s.cntW.val - 1 →
      Raises (.ftRecord o) s .cntOverflow
  | ftQueryRange {o : Opnd} {s : State} : 255 < o.toNat → Raises (.ftQuery o) s .operandRange
  | ftNextRange {o : Opnd} {s : State} : 256 < o.toNat → Raises (.ftNext o) s .operandRange
  | heapInsertRange {o : Opnd} {s : State} : 258 + s.nint ≤ o.toNat → Raises (.heapInsert o) s .operandRange
  | heapInsertFull {o : Opnd} {s : State} : o.toNat < 258 + s.nint → s.hsize = Config.heapCap →
      Raises (.heapInsert o) s .heapFull
  | heapExtractEmpty {s : State} : s.heap = [] → Raises .heapExtract s .heapEmpty
  | encodeRange {o : Opnd} {s : State} : symLegal o = false → Raises (.encode o) s .operandRange
  | encodeNoTree {o : Opnd} {s : State} : symLegal o = true → s.treeValid = false → Raises (.encode o) s .noTree
  | decodeNoTree {s : State} : s.treeValid = false → Raises .decode s .noTree
  | encStepRange {o : Opnd} {s : State} : symLegal o = false → Raises (.encStep o) s .operandRange
  | encStepMode {o : Opnd} {s : State} : symLegal o = true → s.session ≠ .encoding → Raises (.encStep o) s .sessionMode
  | encStepFull {o : Opnd} {s : State} : symLegal o = true → s.session = .encoding →
      o ≠ endOfStream ∧ countFull s (byteOf o) = true → Raises (.encStep o) s .cntOverflow
  | decStepMode {s : State} : s.session ≠ .decoding → Raises .decStep s .sessionMode

/-- The conditions under which a command waits for tokens (R239). -/
inductive Waits : Instr → State → Prop where
  | decode {s : State} : s.treeValid = true → decodeWalk s.arena s.root s.bitSource = .starved → Waits .decode s
  | decStep {s : State} : s.session = .decoding →
      decodeWalk (rebuild s).arena (rebuild s).root s.bitSource = .starved → Waits .decStep s

/-- A command's effect, before it completes: one constructor for each way it can end. The last but one is the imprecise
fault of R207. -/
inductive Effect : Instr → State → State → Prop where
  | nop {s : State} : Effect .nop s s
  | sessInit {o : Opnd} {s : State} : o.toNat ≤ 1 → Effect (.sessInit o) s { s with
      freq := zeroTable, heap := [], arena := [], root := 0, treeValid := false, stale := false, dstat := .none,
      session := if o = 0 then .encoding else .decoding }
  | ftReset {s : State} : Effect .ftReset s { s with freq := zeroTable, stale := true }
  | ftRecord {o : Opnd} {s : State} : o.toNat ≤ 255 → (countAt s.freq (byteOf o)).toNat ≠ 2 ^ s.cntW.val - 1 →
      Effect (.ftRecord o) s (recordByte (byteOf o) s)
  | ftQuery {o : Opnd} {s : State} : o.toNat ≤ 255 → Effect (.ftQuery o) s { s with
      rCount := countAt s.freq (byteOf o), hit := hitFlag (countAt s.freq (byteOf o)) }
  | ftNextFound {o : Opnd} {s : State} {c : Count} {b : Nat} : o.toNat ≤ 256 →
      (observed s.freq).find? (fun e => decide (o.toNat ≤ e.2)) = some (c, b) →
      Effect (.ftNext o) s { s with rSym := BitVec.ofNat 9 b, rCount := c, hit := true }
  | ftNextNone {o : Opnd} {s : State} : o.toNat ≤ 256 →
      (observed s.freq).find? (fun e => decide (o.toNat ≤ e.2)) = none →
      Effect (.ftNext o) s { s with rSym := 256, rCount := 0, hit := false }
  | heapClear {s : State} : Effect .heapClear s { s with heap := [] }
  | heapInsert {o : Opnd} {s : State} : o.toNat < 258 + s.nint → s.hsize ≠ Config.heapCap →
      Effect (.heapInsert o) s { s with heap := Machine.heapInsert s.heap ⟨o, weightOf s.freq s.arena o⟩ }
  | heapExtract {s : State} {top : HeapEntry} {rest : List HeapEntry} :
      Machine.heapExtract s.heap = some (top, rest) →
      Effect .heapExtract s { s with heap := rest, rNode := top.node, rWeight := top.wgt }
  | build {s : State} : Effect .build s (rebuild s)
  | encode {o : Opnd} {s : State} {p : BitString} {found : Bool} : symLegal o = true → s.treeValid = true →
      lookup s o = some (p, found) → Effect (.encode o) s (putCodeword p found s)
  | decode {s : State} {st : DStat} {v : Sym} {rest : List Token} : s.treeValid = true →
      decodeWalk s.arena s.root s.bitSource = .done st v rest →
      Effect .decode s { s with dstat := st, rSym := v, bitSource := rest }
  | encStepEnd {s : State} {p : BitString} {found : Bool} : s.session = .encoding →
      lookup (rebuild s) endOfStream = some (p, found) →
      Effect (.encStep endOfStream) s
        { emitBits (emission endOfStream p found) (putCodeword p found (rebuild s)) with session := .done }
  | encStepByte {o : Opnd} {s : State} {p : BitString} {found : Bool} : o.toNat ≤ 255 → s.session = .encoding →
      (countAt s.freq (byteOf o)).toNat ≠ 2 ^ s.cntW.val - 1 → lookup (rebuild s) o = some (p, found) →
      Effect (.encStep o) s (recordByte (byteOf o) (emitBits (emission o p found) (putCodeword p found (rebuild s))))
  | decStepByte {s : State} {st : DStat} {v : Sym} {rest : List Token} : s.session = .decoding →
      decodeWalk (rebuild s).arena (rebuild s).root s.bitSource = .done st v rest → st = .leaf ∨ st = .literal →
      (countAt s.freq (v.setWidth 8)).toNat ≠ 2 ^ s.cntW.val - 1 →
      Effect .decStep s (recordByte (v.setWidth 8) (emitByte (v.setWidth 8)
        { rebuild s with dstat := st, rSym := v, bitSource := rest }))
  | decStepOverflow {s : State} {st : DStat} {v : Sym} {rest : List Token} : s.session = .decoding →
      decodeWalk (rebuild s).arena (rebuild s).root s.bitSource = .done st v rest → st = .leaf ∨ st = .literal →
      (countAt s.freq (v.setWidth 8)).toNat = 2 ^ s.cntW.val - 1 →
      Effect .decStep s (recordFault .cntOverflow { rebuild s with dstat := st, rSym := v, bitSource := rest })
  | decStepEnd {s : State} {st : DStat} {v : Sym} {rest : List Token} : s.session = .decoding →
      decodeWalk (rebuild s).arena (rebuild s).root s.bitSource = .done st v rest → ¬ (st = .leaf ∨ st = .literal) →
      Effect .decStep s { rebuild s with dstat := st, rSym := v, bitSource := rest, session := .done }

/-- What a command that answers a next state has done (R202, R204, R239). -/
inductive Ends (i : Instr) (s : State) : State → Prop where
  | raises {c : FaultCode} : Raises i s c → Ends i s (raise c s)
  | waits : Waits i s → Ends i s s
  | completes {u : State} : Effect i s u → Ends i s (complete u)

theorem ends_encStep {o : Opnd} {s t : State} (h : exec (.encStep o) s = .next t) : Ends (.encStep o) s t := by
  obtain ⟨range, rfl⟩ | ⟨legal, mode, rfl⟩ | ⟨legal, mode, byte, full, rfl⟩ | ⟨p, found, legal, mode, room, hl, rfl⟩ :=
    exec_encStep_cases h
  · exact .raises (.encStepRange range)
  · exact .raises (.encStepMode legal mode)
  · exact .raises (.encStepFull legal mode ⟨byte, full⟩)
  · by_cases eos : o = endOfStream
    · subst eos
      exact .completes (.encStepEnd mode hl)
    · have byte : o.toNat ≤ 255 :=
        ((symLegal_iff o).mp legal).resolve_right fun h => eos (BitVec.eq_of_toNat_eq h)
      rw [afterEncode_byte _ eos]
      exact .completes (.encStepByte byte mode (fun full => room ⟨eos, (countFull_iff s _).mpr full⟩) hl)

theorem ends_decStep {s t : State} (h : exec .decStep s = .next t) : Ends .decStep s t := by
  obtain ⟨mode, rfl⟩ | ⟨mode, hw, rfl⟩ | ⟨st, v, rest, mode, hw, rfl⟩ := exec_decStep_cases h
  · exact .raises (.decStepMode mode)
  · exact .waits (.decStep mode hw)
  · by_cases byte : st = .leaf ∨ st = .literal
    · rw [afterDecode_byte _ _ byte]
      split
      case isTrue full => exact .completes (.decStepOverflow mode hw byte ((countFull_iff _ _).mp full))
      case isFalse room => exact .completes (.decStepByte mode hw byte fun full => room ((countFull_iff _ _).mpr full))
    · rw [afterDecode_end _ _ byte]
      exact .completes (.decStepEnd mode hw byte)

/-- Every next state a command answers is one of the ends above. -/
theorem ends_of_exec {i : Instr} {s t : State} (h : exec i s = .next t) : Ends i s t := by
  cases i with
  | nop => exact eq_of_next (exec_nop s) h ▸ .completes .nop
  | sessInit o =>
    obtain ⟨range, rfl⟩ | ⟨legal, rfl⟩ := exec_sessInit_cases h
    · exact .raises (.sessInitRange (by simpa [modeLegal] using range))
    · exact .completes (.sessInit ((modeLegal_iff o).mp legal))
  | ftReset => exact eq_of_next (exec_ftReset s) h ▸ .completes .ftReset
  | ftRecord o =>
    obtain ⟨range, rfl⟩ | ⟨legal, full, rfl⟩ | ⟨legal, room, rfl⟩ := exec_ftRecord_cases h
    · exact .raises (.ftRecordRange range)
    · exact .raises (.ftRecordFull legal full)
    · exact .completes (.ftRecord legal room)
  | ftQuery o =>
    obtain ⟨range, rfl⟩ | ⟨legal, rfl⟩ := exec_ftQuery_cases h
    · exact .raises (.ftQueryRange range)
    · exact .completes (.ftQuery legal)
  | ftNext o =>
    obtain ⟨range, rfl⟩ | ⟨c, b, legal, found, rfl⟩ | ⟨legal, found, rfl⟩ := exec_ftNext_cases h
    · exact .raises (.ftNextRange range)
    · exact .completes (.ftNextFound legal found)
    · exact .completes (.ftNextNone legal found)
  | heapClear => exact eq_of_next (exec_heapClear s) h ▸ .completes .heapClear
  | heapInsert o =>
    obtain ⟨range, rfl⟩ | ⟨legal, full, rfl⟩ | ⟨legal, room, rfl⟩ := exec_heapInsert_cases h
    · exact .raises (.heapInsertRange range)
    · exact .raises (.heapInsertFull legal full)
    · exact .completes (.heapInsert legal room)
  | heapExtract =>
    obtain ⟨empty, rfl⟩ | ⟨top, rest, he, rfl⟩ := exec_heapExtract_cases h
    · exact .raises (.heapExtractEmpty empty)
    · exact .completes (.heapExtract he)
  | build => exact eq_of_next (exec_build s) h ▸ .completes .build
  | encode o =>
    obtain ⟨range, rfl⟩ | ⟨legal, noTree, rfl⟩ | ⟨p, found, legal, valid, hl, rfl⟩ := exec_encode_cases h
    · exact .raises (.encodeRange range)
    · exact .raises (.encodeNoTree legal noTree)
    · exact .completes (.encode legal valid hl)
  | decode =>
    obtain ⟨noTree, rfl⟩ | ⟨valid, hw, rfl⟩ | ⟨st, v, rest, valid, hw, rfl⟩ := exec_decode_cases h
    · exact .raises (.decodeNoTree noTree)
    · exact .waits (.decode valid hw)
    · exact .completes (.decode valid hw)
  | encStep o => exact ends_encStep h
  | decStep => exact ends_decStep h

/-! ## A command does what its end says -/

theorem Raises.exec_eq {i : Instr} {s : State} {c : FaultCode} (h : Raises i s c) : exec i s = .next (raise c s) := by
  cases h with
  | sessInitRange range => exact exec_sessInit_range s range
  | ftRecordRange range => exact exec_ftRecord_range s range
  | ftRecordFull legal full => exact exec_ftRecord_full legal full
  | ftQueryRange range => exact exec_ftQuery_range s range
  | ftNextRange range => exact exec_ftNext_range s range
  | heapInsertRange range => exact exec_heapInsert_range range
  | heapInsertFull legal full => exact exec_heapInsert_full legal full
  | heapExtractEmpty empty => exact exec_heapExtract_empty empty
  | encodeRange range => exact exec_encode_range s range
  | encodeNoTree legal noTree => exact exec_encode_noTree legal noTree
  | decodeNoTree noTree => exact exec_decode_noTree noTree
  | encStepRange range => exact exec_encStep_range s range
  | encStepMode legal mode => exact exec_encStep_sessionMode legal mode
  | encStepFull legal mode full => exact exec_encStep_full legal mode full
  | decStepMode mode => exact exec_decStep_sessionMode mode

theorem Waits.exec_eq {i : Instr} {s : State} (h : Waits i s) : exec i s = .next s := by
  cases h with
  | decode valid hw => exact exec_decode_starved valid hw
  | decStep mode hw => exact exec_decStep_starved mode hw

theorem exec_encStep_end {s : State} {p : BitString} {found : Bool} (mode : s.session = .encoding)
    (hl : lookup (rebuild s) endOfStream = some (p, found)) :
    exec (.encStep endOfStream) s = .next (complete
      { emitBits (emission endOfStream p found) (putCodeword p found (rebuild s)) with session := .done }) :=
  exec_encStep_found (by decide) mode (fun full => full.1 rfl) hl

theorem exec_encStep_byte {o : Opnd} {s : State} {p : BitString} {found : Bool} (byte : o.toNat ≤ 255)
    (mode : s.session = .encoding) (room : (countAt s.freq (byteOf o)).toNat ≠ 2 ^ s.cntW.val - 1)
    (hl : lookup (rebuild s) o = some (p, found)) :
    exec (.encStep o) s = .next (complete
      (recordByte (byteOf o) (emitBits (emission o p found) (putCodeword p found (rebuild s))))) := by
  rw [exec_encStep_found ((symLegal_iff o).mpr (.inl byte)) mode
    (fun full => room ((countFull_iff s _).mp full.2)) hl, afterEncode_byte _ (ne_endOfStream_of_byte byte)]

theorem exec_decStep_byte {s : State} {st : DStat} {v : Sym} {rest : List Token} (mode : s.session = .decoding)
    (hw : decodeWalk (rebuild s).arena (rebuild s).root s.bitSource = .done st v rest)
    (byte : st = .leaf ∨ st = .literal) (room : (countAt s.freq (v.setWidth 8)).toNat ≠ 2 ^ s.cntW.val - 1) :
    exec .decStep s = .next (complete (recordByte (v.setWidth 8) (emitByte (v.setWidth 8)
      { rebuild s with dstat := st, rSym := v, bitSource := rest }))) := by
  rw [exec_decStep_done mode hw, afterDecode_byte _ _ byte]
  exact congrArg _ (if_neg fun full => room ((countFull_iff _ _).mp full))

theorem exec_decStep_overflow {s : State} {st : DStat} {v : Sym} {rest : List Token} (mode : s.session = .decoding)
    (hw : decodeWalk (rebuild s).arena (rebuild s).root s.bitSource = .done st v rest)
    (byte : st = .leaf ∨ st = .literal) (full : (countAt s.freq (v.setWidth 8)).toNat = 2 ^ s.cntW.val - 1) :
    exec .decStep s =
      .next (raise .cntOverflow { rebuild s with dstat := st, rSym := v, bitSource := rest }) := by
  rw [exec_decStep_done mode hw, afterDecode_byte _ _ byte]
  exact congrArg _ (if_pos ((countFull_iff _ _).mpr full))

theorem exec_decStep_end {s : State} {st : DStat} {v : Sym} {rest : List Token} (mode : s.session = .decoding)
    (hw : decodeWalk (rebuild s).arena (rebuild s).root s.bitSource = .done st v rest)
    (ending : ¬ (st = .leaf ∨ st = .literal)) :
    exec .decStep s =
      .next (complete { rebuild s with dstat := st, rSym := v, bitSource := rest, session := .done }) := by
  rw [exec_decStep_done mode hw, afterDecode_end _ _ ending]

theorem Effect.exec_eq {i : Instr} {s u : State} (h : Effect i s u) : exec i s = .next (complete u) := by
  cases h with
  | nop => exact exec_nop s
  | sessInit legal => exact exec_sessInit_legal s legal
  | ftReset => exact exec_ftReset s
  | ftRecord legal room => exact exec_ftRecord_room legal room
  | ftQuery legal => exact exec_ftQuery_legal s legal
  | ftNextFound legal found => exact exec_ftNext_some legal found
  | ftNextNone legal found => exact exec_ftNext_none legal found
  | heapClear => exact exec_heapClear s
  | heapInsert legal room => exact exec_heapInsert_room legal room
  | heapExtract he => exact exec_heapExtract_some he
  | build => exact exec_build s
  | encode legal valid hl => exact exec_encode_found legal valid hl
  | decode valid hw => exact exec_decode_done valid hw
  | encStepEnd mode hl => exact exec_encStep_end mode hl
  | encStepByte byte mode room hl => exact exec_encStep_byte byte mode room hl
  | decStepByte mode hw byte room => exact exec_decStep_byte mode hw byte room
  | decStepOverflow mode hw byte full => exact exec_decStep_overflow mode hw byte full
  | decStepEnd mode hw ending => exact exec_decStep_end mode hw ending

/-- The ends of a command are exactly the next states it answers. -/
theorem exec_eq_next_iff {i : Instr} {s t : State} : exec i s = .next t ↔ Ends i s t := by
  constructor
  · exact ends_of_exec
  · rintro (raised | waited | effect)
    · exact raised.exec_eq
    · exact waited.exec_eq
    · exact effect.exec_eq

/-! ## Faults and completion (R202, R204, R239) -/

theorem Raises.code_mem {i : Instr} {s : State} {c : FaultCode} (h : Raises i s c) :
    c ∈ [FaultCode.operandRange, .cntOverflow, .heapFull, .heapEmpty, .noTree, .sessionMode] := by
  cases h <;> decide

/-- No effect touches the fault registers, DEC_STEP's overflow apart, which records it (R207). -/
theorem Effect.fault_eq {i : Instr} {s u : State} (h : Effect i s u) :
    (u.fault = s.fault ∧ u.fcode = s.fcode) ∨
    (i = .decStep ∧ s.session = .decoding ∧ u.fault = true ∧ u.fcode = if s.fault then s.fcode else .cntOverflow) := by
  cases h with
  | decStepOverflow mode => exact .inr ⟨rfl, mode, rfl, rfl⟩
  | _ => exact .inl ⟨rfl, rfl⟩

/-- Settles O6: of the ends of a command, `raise` is the precise fault, and an effect leaves FAULT = 0 but for the
overflow of DEC_STEP. -/
theorem faultsArePrecise : Obligations.FaultsArePrecise := by
  intro i s t h clear faulted
  obtain raised | waited | effect := ends_of_exec h
  case raises c =>
    refine .inl ⟨rfl, ?_⟩
    rw [raise_fcode, clear]
    exact raised.code_mem
  case waits => exact absurd (clear.symm.trans faulted) nofun
  case completes u =>
    obtain ⟨same, -⟩ | ⟨rfl, mode, -, code⟩ := effect.fault_eq
    · exact absurd ((same.trans clear).symm.trans faulted) nofun
    · exact .inr ⟨rfl, by rw [complete_fcode, code, clear]; rfl, mode⟩

theorem Waits.instr_eq {i : Instr} {s : State} (h : Waits i s) : i = .decode ∨ i = .decStep := by
  cases h with
  | decode => exact .inl rfl
  | decStep => exact .inr rfl

/-- Settles O10: a fault and a completion both clear BUSY, and what is left is the wait. -/
theorem commandCompletesOrWaits : Obligations.CommandCompletesOrWaits := by
  intro i s t h
  obtain - | waited | - := ends_of_exec h
  · exact .inl rfl
  · exact .inr ⟨rfl, waited.instr_eq⟩
  · exact .inl rfl

/-! ## No command reads STALE -/

/-- The state with another STALE. -/
def State.withStale (x : Bool) (s : State) : State := { s with stale := x }

theorem Raises.withStale {i : Instr} {s : State} {c : FaultCode} (x : Bool) (h : Raises i s c) :
    Raises i (s.withStale x) c := by
  cases h <;> constructor <;> assumption

theorem Waits.withStale {i : Instr} {s : State} (x : Bool) (h : Waits i s) : Waits i (s.withStale x) := by
  cases h <;> constructor <;> assumption

theorem Effect.withStale {i : Instr} {s u : State} (x : Bool) (h : Effect i s u) :
    ∃ y, Effect i (s.withStale x) (u.withStale y) := by
  cases h with
  | nop => exact ⟨x, .nop⟩
  | sessInit legal => exact ⟨_, .sessInit legal⟩
  | ftReset => exact ⟨_, .ftReset⟩
  | ftRecord legal room => exact ⟨_, .ftRecord legal room⟩
  | ftQuery legal => exact ⟨x, .ftQuery legal⟩
  | ftNextFound legal found => exact ⟨x, .ftNextFound legal found⟩
  | ftNextNone legal found => exact ⟨x, .ftNextNone legal found⟩
  | heapClear => exact ⟨x, .heapClear⟩
  | heapInsert legal room => exact ⟨x, .heapInsert legal room⟩
  | heapExtract he => exact ⟨x, .heapExtract he⟩
  | build => exact ⟨_, .build⟩
  | encode legal valid hl => exact ⟨x, .encode legal valid hl⟩
  | decode valid hw => exact ⟨x, .decode valid hw⟩
  | encStepEnd mode hl => exact ⟨_, .encStepEnd mode hl⟩
  | encStepByte byte mode room hl => exact ⟨_, .encStepByte byte mode room hl⟩
  | decStepByte mode hw byte room => exact ⟨_, .decStepByte mode hw byte room⟩
  | decStepOverflow mode hw byte full => exact ⟨_, .decStepOverflow mode hw byte full⟩
  | decStepEnd mode hw ending => exact ⟨_, .decStepEnd mode hw ending⟩

/-- Settles O51: with another STALE a command ends the same way, as no condition and no effect of an end reads it. -/
theorem staleIsNeverRead : Obligations.StaleIsNeverRead := by
  intro i s t x h
  obtain raised | waited | effect := ends_of_exec h
  · exact ⟨x, (raised.withStale x).exec_eq⟩
  · exact ⟨x, (waited.withStale x).exec_eq⟩
  · obtain ⟨y, effect'⟩ := effect.withStale x
    exact ⟨y, effect'.exec_eq⟩

/-! ## Counts (R106) -/

/-- A count below 2^CNT_W that is not full takes one more occurrence without wrapping. -/
theorem toNat_count_add_one {c : Count} {w : Config.CntW} (fits : c.toNat < 2 ^ w.val) (room : c.toNat ≠ 2 ^ w.val - 1) :
    (c + 1).toNat = c.toNat + 1 ∧ c.toNat + 1 < 2 ^ w.val := by
  have width : 2 ^ w.val ≤ 2 ^ 56 := Nat.pow_le_pow_right (by decide) w.legal.2
  refine ⟨?_, by omega⟩
  rw [BitVec.toNat_add]
  exact Nat.mod_eq_of_lt (show c.toNat + 1 < 2 ^ 56 by omega)

/-- Recording a byte whose count has room adds one to it and leaves every other count. -/
theorem toNat_countAt_recordByte {s : State} {b : Byte} (fits : (countAt s.freq b).toNat < 2 ^ s.cntW.val)
    (room : (countAt s.freq b).toNat ≠ 2 ^ s.cntW.val - 1) (c : Byte) :
    (countAt (putCount s.freq b (countAt s.freq b + 1)) c).toNat =
      (countAt s.freq c).toNat + if c = b then 1 else 0 := by
  split
  case isTrue same =>
    subst same
    rw [countAt_putCount_same]
    exact (toNat_count_add_one fits room).1
  case isFalse other => rw [countAt_putCount_ne _ _ _ _ other, Nat.add_zero]

/-- The table after a command: as it was, all zero, or one byte recorded whose count had room. -/
theorem Effect.freq_cases {i : Instr} {s u : State} (h : Effect i s u) :
    u.freq = s.freq ∨ ((i = .ftReset ∨ ∃ o, i = .sessInit o) ∧ u.freq = zeroTable) ∨
    ∃ b, (countAt s.freq b).toNat ≠ 2 ^ s.cntW.val - 1 ∧ u.freq = putCount s.freq b (countAt s.freq b + 1) := by
  cases h with
  | sessInit => exact .inr (.inl ⟨.inr ⟨_, rfl⟩, rfl⟩)
  | ftReset => exact .inr (.inl ⟨.inl rfl, rfl⟩)
  | ftRecord _ room => exact .inr (.inr ⟨_, room, rfl⟩)
  | encStepByte _ _ room => exact .inr (.inr ⟨_, room, rfl⟩)
  | decStepByte _ _ _ room => exact .inr (.inr ⟨_, room, rfl⟩)
  | _ => exact .inl rfl

/-- Settles O26: of the commands in question only a recorded byte changes the table, by `toNat_countAt_recordByte`. -/
theorem countsGrowByAtMostOne : Obligations.CountsGrowByAtMostOne := by
  intro i s t b ⟨fits, _⟩ h notReset notInit
  obtain - | - | effect := ends_of_exec h
  · exact .inl rfl
  · exact .inl rfl
  · obtain same | ⟨rfl | ⟨o, rfl⟩, -⟩ | ⟨c, room, recorded⟩ := effect.freq_cases
    · exact .inl (by rw [complete_freq, same])
    · exact absurd rfl notReset
    · exact absurd rfl (notInit o)
    · have count := toNat_countAt_recordByte (fits c) room b
      rw [complete_freq, recorded, count]
      split
      · exact .inr rfl
      · exact .inl rfl

/-! ## Everything a step can do -/

/-- What a step does to the block beside executing a command: a host access, a delivered token, an idle turn, or the fault
of an Illegal word or an OVERRUN. The registers of the command results, the table, the heap and the tree are kept. -/
inductive Aside (s : State) : State → Prop where
  | host (rest : List Event) (source : List Token) (word : Option Word) (reads : List Word) (draws : Nat) :
      Aside s { s with schedule := rest, bitSource := source, pending := word, hostReads := reads, draws := draws }
  | faulted {c : FaultCode} (rest : List Event) (word : Option Word) : c ≠ .none →
      Aside s (recordFault c { s with schedule := rest, pending := word })

theorem aside_acceptCommand (s : State) (rest : List Event) (w : Word) :
    Aside s (acceptCommand w { s with schedule := rest }) := by
  rw [acceptCommand]
  split
  · exact .host rest s.bitSource s.pending s.hostReads s.draws
  · split
    · exact .faulted rest s.pending nofun
    · exact .host rest s.bitSource (some w) s.hostReads s.draws

/-- The block's turn, in a state whose next event has been taken from the schedule. -/
theorem blockStep_aside_or_exec {s t : State} {rest : List Event} (h : blockStep { s with schedule := rest } = .next t) :
    Aside s t ∨ ∃ w i, s.pending = some w ∧ decode w = .command i ∧ exec i { s with schedule := rest } = .next t := by
  obtain ⟨-, rfl⟩ | ⟨w, why, -, -, rfl⟩ | ⟨w, i, hp, hd, hx⟩ := blockStep_cases h
  · exact .inl (.host rest s.bitSource s.pending s.hostReads s.draws)
  · exact .inl (.faulted rest none nofun)
  · exact .inr ⟨w, i, hp, hd, hx⟩

/-- Everything a step that answers a next state can be: something beside the commands, the hardware reset, or a command
executed. -/
theorem step_aside_or_exec {s t : State} (h : step s = .next t) :
    Aside s t ∨ (∃ rest, s.schedule = .reset :: rest ∧ t = hardReset { s with schedule := rest }) ∨
    ∃ i rest, Executes s i ∧ exec i { s with schedule := rest } = .next t := by
  obtain ⟨idle, hb⟩ | ⟨e, rest, hs, hp⟩ := step_cases h
  · obtain aside | ⟨w, i, hw, hd, hx⟩ := blockStep_aside_or_exec (s := s) (rest := s.schedule) hb
    · exact .inl aside
    · exact .inr (.inr ⟨i, s.schedule, ⟨.inl idle, w, hw, hd⟩, hx⟩)
  · cases e with
    | memRead bytes a =>
      obtain ⟨reads, draws, rfl⟩ := perform_memRead_cases hp
      exact .inl (.host rest s.bitSource s.pending reads draws)
    | memWrite bytes a v => exact .inl (perform_memWrite_cases hp ▸ aside_acceptCommand s rest v)
    | deliver token =>
      exact .inl (Host.Outcome.next.inj hp ▸ .host rest (s.bitSource ++ [token]) s.pending s.hostReads s.draws)
    | blockTurn =>
      obtain aside | ⟨w, i, hw, hd, hx⟩ := blockStep_aside_or_exec hp
      · exact .inl aside
      · exact .inr (.inr ⟨i, rest, ⟨.inr (by rw [hs]; rfl), w, hw, hd⟩, hx⟩)
    | reset => exact .inr (.inl ⟨rest, hs, (Host.Outcome.next.inj hp).symm⟩)

/-- What is kept by the accesses beside the commands, by a fault, by the reset and by every command's effect is kept by every
step. -/
theorem step_keeps {P : State → Prop}
    (host : ∀ s rest source word reads draws, P s →
      P { s with schedule := rest, bitSource := source, pending := word, hostReads := reads, draws := draws })
    (fault : ∀ s c, c ≠ .none → P s → P (recordFault c s))
    (reset : ∀ s, P s → P (hardReset s))
    (effect : ∀ i s u, P s → Effect i s u → P u)
    {s t : State} (hs : P s) (h : step s = .next t) : P t := by
  have scheduled (rest : List Event) (word : Option Word) : P { s with schedule := rest, pending := word } :=
    host s rest s.bitSource word s.hostReads s.draws hs
  obtain (⟨rest, source, word, reads, draws⟩ | ⟨rest, word, code⟩) | ⟨rest, -, rfl⟩ | ⟨i, rest, -, hx⟩ :=
    step_aside_or_exec h
  · exact host s rest source word reads draws hs
  · exact fault _ _ code (scheduled rest word)
  · exact reset _ (scheduled rest s.pending)
  · have hr : P { s with schedule := rest } := scheduled rest s.pending
    have completed (u : State) (hu : P u) : P (complete u) :=
      host u u.schedule u.bitSource none u.hostReads u.draws hu
    obtain raised | - | eff := ends_of_exec hx
    · refine completed _ (fault _ _ ?_ hr)
      have mem := raised.code_mem
      rintro rfl
      exact absurd mem (by decide)
    · exact hr
    · exact completed _ (effect _ _ _ hr eff)

end Sys2Proof.Machine
end

section
/-! PROOFS. On a tree the builder left every walk ends or starves, decoding inverts encoding, and no command meets a broken
tree (spec/43_translator.md sections 1 and 3; spec/44_session.md R194). -/

namespace Sys2Proof.Machine

/-! ## Codewords (R161, R162) -/

theorem heldCodeword_putCodeword {p : BitString} (found : Bool) (s : State) (len : p.length ≤ 257) :
    heldCodeword (putCodeword p found s) = p := by
  have cwLen : (putCodeword p found s).cwLen.toNat = p.length := Nat.mod_eq_of_lt (by omega)
  refine List.ext_getElem (by rw [heldCodeword, List.length_map, List.length_range, cwLen]) fun i hi hp => ?_
  simp only [heldCodeword, List.getElem_map, List.getElem_range]
  rw [putCodeword_bit p found s i (by omega), List.getD_eq_getElem _ _ hp]

/-- The codeword of R162 has a bit at least: ROOT is an internal node and the path's end a leaf. -/
theorem lookup_path_ne_nil {s : State} {o : NodeIx} {p : BitString} {found : Bool} (ok : TreeOk s)
    (valid : s.treeValid = true) (leaf : o.toNat < 258)
    (path : follow s.arena s.root p = some (if found then o else 256)) : p ≠ [] := by
  obtain ⟨size, -, -, root, -, -⟩ := ok.of_treeValid valid
  rintro rfl
  have stays : s.root = if found then o else 256 := Option.some.inj path
  rw [stays] at root
  cases found
  · have : (256 : NodeIx).toNat = 256 := rfl
    simp only [Bool.false_eq_true, if_false] at root
    omega
  · simp only [if_true] at root
    omega

/-- What ENCODE leaves on a good tree: the codeword `lookup_spec` describes. -/
theorem exec_encode_goodTree {o : Opnd} {s t : State} (ok : TreeOk s) (valid : s.treeValid = true)
    (legal : symLegal o = true) (h : exec (.encode o) s = .next t) :
    ∃ p found, t = complete (putCodeword p found s) ∧ (found = true ↔ InTree s o) ∧
      follow s.arena s.root p = some (if found then o else 256) ∧ p.length ≤ s.nint := by
  obtain ⟨p, found, hl, inTree, path, len⟩ := lookup_spec ok valid (isLeaf_of_symLegal legal)
  exact ⟨p, found, eq_of_next (exec_encode_found legal valid hl) h, inTree, path, len⟩

/-- Settles O39: the codeword is a path from ROOT, which is internal, of at most NINT bits. -/
theorem codewordLengthBound : Obligations.CodewordLengthBound := by
  intro o s t valid ok legal h
  obtain ⟨-, size, -⟩ := ok.of_treeValid valid
  obtain ⟨p, found, rfl, -, path, len⟩ := exec_encode_goodTree ok valid ((symLegal_iff o).mpr legal) h
  have cwLen : (complete (putCodeword p found s)).cwLen.toNat = p.length := Nat.mod_eq_of_lt (by omega)
  rw [cwLen]
  exact ⟨List.length_pos_iff.mpr (lookup_path_ne_nil ok valid (by omega) path), len, size⟩

/-! ## Every walk on a good tree ends or starves (R164, R239) -/

theorem tokensOf_append (p q : BitString) : tokensOf (p ++ q) = tokensOf p ++ tokensOf q := List.map_append

/-- Delivered tokens are bits up to the first OTHER. -/
theorem exists_tokensOf_initial (tokens : List Token) :
    ∃ q, tokens = tokensOf q ∨ ∃ rest, tokens = tokensOf q ++ .other :: rest := by
  induction tokens with
  | nil => exact ⟨[], .inl rfl⟩
  | cons t tokens ih =>
    obtain ⟨q, rfl | ⟨rest, rfl⟩⟩ := ih
    · cases t with
      | zero => exact ⟨false :: q, .inl rfl⟩
      | one => exact ⟨true :: q, .inl rfl⟩
      | other => exact ⟨[], .inr ⟨_, rfl⟩⟩
    · cases t with
      | zero => exact ⟨false :: q, .inr ⟨rest, rfl⟩⟩
      | one => exact ⟨true :: q, .inr ⟨rest, rfl⟩⟩
      | other => exact ⟨[], .inr ⟨_, rfl⟩⟩

/-- From a node of a well-shaped arena a bit string leads to a leaf, or all of it to an internal node. -/
theorem exists_follow_initial {arena : List ArenaSlot} (below : ChildrenBelow arena) {n : NodeIx}
    (live : n.toNat < 258 + arena.length) (q : BitString) :
    ∃ p r m, q = p ++ r ∧ follow arena n p = some m ∧ (m.toNat < 258 ∨ 258 ≤ m.toNat ∧ r = []) := by
  induction q generalizing n with
  | nil => exact ⟨[], [], n, rfl, rfl, (Nat.lt_or_ge _ _).imp_right (⟨·, rfl⟩)⟩
  | cons b q ih =>
    rcases Nat.lt_or_ge n.toNat 258 with leaf | internal
    · exact ⟨[], b :: q, n, rfl, rfl, .inl leaf⟩
    · have slotLive : slotOf n < arena.length := Nat.sub_lt_left_of_lt_add internal live
      have hs := List.getElem?_eq_getElem slotLive
      have child := below.child_lt internal hs b
      obtain ⟨p, r, m, rfl, path, ends⟩ := ih (child.trans live)
      exact ⟨b :: p, r, m, rfl, (follow_internal _ _ _ _ _ internal hs).trans path, ends⟩

/-- Any eight bits are those of a byte. -/
theorem exists_bin8 {q : BitString} (h : q.length = 8) : ∃ v, bin8 v = q := by
  refine ⟨(BitVec.ofBoolListBE q).cast h, List.ext_getElem (by simp [bin8, h]) fun i hi hq => ?_⟩
  have bit : (BitVec.ofBoolListBE q).getMsbD i = q[i] := by simp [hq]
  have lt : i < 8 := h ▸ hq
  rw [← bit, BitVec.getMsbD]
  simp [bin8, h, lt]

/-- At NOT_SEEN the walk takes eight literal bits, an OTHER before them, or starves. -/
theorem literal_ends_or_starves {arena : List ArenaSlot} {root : NodeIx} {p : BitString}
    (path : follow arena root p = some 256) (r : BitString) {tail : List Token}
    (htail : tail = [] ∨ ∃ rest, tail = .other :: rest) :
    (∃ st v rest, WalkEnds arena root (tokensOf p ++ (tokensOf r ++ tail)) st v rest) ∨
    WalkStarves arena root (tokensOf p ++ (tokensOf r ++ tail)) := by
  rcases Nat.lt_or_ge r.length 8 with short | enough
  · obtain rfl | ⟨rest, rfl⟩ := htail
    · exact .inr (by rw [List.append_nil]; exact .inLiteral path short)
    · exact .inl ⟨_, _, _, .truncLiteral path short⟩
  · obtain ⟨v, hv⟩ := exists_bin8 (q := r.take 8) (by simpa using enough)
    have split : tokensOf r ++ tail = tokensOf (bin8 v) ++ (tokensOf (r.drop 8) ++ tail) := by
      rw [hv, ← List.append_assoc, ← tokensOf_append, List.take_append_drop]
    rw [split]
    exact .inl ⟨_, _, _, .literal path⟩

/-- On a well-shaped tree every walk ends or starves. -/
theorem walkEnds_or_walkStarves {arena : List ArenaSlot} (below : ChildrenBelow arena) {root : NodeIx}
    (live : root.toNat < 258 + arena.length) (tokens : List Token) :
    (∃ st v rest, WalkEnds arena root tokens st v rest) ∨ WalkStarves arena root tokens := by
  obtain ⟨q, tail, rfl, htail⟩ : ∃ q tail, tokens = tokensOf q ++ tail ∧ (tail = [] ∨ ∃ rest, tail = .other :: rest) := by
    obtain ⟨q, rfl | ⟨rest, rfl⟩⟩ := exists_tokensOf_initial tokens
    · exact ⟨q, [], (List.append_nil _).symm, .inl rfl⟩
    · exact ⟨q, _, rfl, .inr ⟨rest, rfl⟩⟩
  obtain ⟨p, r, m, rfl, path, leaf | ⟨internal, rfl⟩⟩ := exists_follow_initial below live q
  · rw [tokensOf_append, List.append_assoc]
    rcases Nat.lt_or_ge m.toNat 256 with byte | sentinel
    · exact .inl ⟨_, _, _, .leaf path (by omega)⟩
    · obtain rfl | rfl : m = 256 ∨ m = 257 := by
        rcases Nat.eq_or_lt_of_le sentinel with eq | lt
        · exact .inl (BitVec.eq_of_toNat_eq eq.symm)
        · exact .inr (BitVec.eq_of_toNat_eq (show m.toNat = 257 by omega))
      · exact literal_ends_or_starves path r htail
      · exact .inl ⟨_, _, _, .eos path⟩
  · rw [List.append_nil]
    obtain rfl | ⟨rest, rfl⟩ := htail
    · exact .inr (by rw [List.append_nil]; exact .inCodeword path internal)
    · exact .inl ⟨_, _, _, .truncCodeword path internal⟩

theorem TreeOk.walkEnds_or_walkStarves {s : State} (ok : TreeOk s) (valid : s.treeValid = true) (tokens : List Token) :
    (∃ st v rest, WalkEnds s.arena s.root tokens st v rest) ∨ WalkStarves s.arena s.root tokens := by
  obtain ⟨-, -, below, root, -, -⟩ := ok.of_treeValid valid
  have live : s.root.toNat < 258 + s.arena.length := root.trans_lt (Nat.add_lt_add_right (by decide) _)
  exact Machine.walkEnds_or_walkStarves below live tokens

/-- Settles O41: the walk ends or starves, and DECODE does what it says. -/
theorem decodeEndsOrWaits : Obligations.DecodeEndsOrWaits := by
  intro s valid ok
  obtain ⟨st, v, rest, ends⟩ | starves := ok.walkEnds_or_walkStarves valid s.bitSource
  · exact ⟨_, exec_decode_done valid ends.decodeWalk_eq, .inl ⟨st, v, rest, ends, rfl⟩⟩
  · exact ⟨s, exec_decode_starved valid starves.decodeWalk_eq, .inr ⟨starves, rfl⟩⟩

/-- Settles O42: the accepted word is DECODE, which waits. -/
theorem starvedDecodeWaits : Obligations.StarvedDecodeWaits := by
  intro s idle pending valid starves
  have waits : blockStep s = .next s := by
    rw [blockStep_pending s _ pending, executeWord_command s _ .decode (by decide)]
    exact exec_decode_starved valid starves.decodeWalk_eq
  have busy : s.busy = true := by rw [busy_eq_pending, pending]; rfl
  exact ⟨(step_idle s idle).trans waits, busy, ⟨busy, waits⟩, idle⟩

/-! ## Decoding inverts encoding -/

/-- The walk over what the encoder sends for a symbol ends at the symbol and takes exactly those bits (R168). -/
theorem walkEnds_emission {arena : List ArenaSlot} {root : NodeIx} {o : Opnd} {p : BitString} {found : Bool}
    (legal : o.toNat ≤ 255 ∨ o.toNat = 257) (literal : found = false → o.toNat ≤ 255)
    (path : follow arena root p = some (if found then o else 256)) (rest : List Token) :
    WalkEnds arena root (tokensOf (emission o p found) ++ rest)
      (if found then (if o = 257 then .eos else .leaf) else .literal) (o.setWidth 9) rest := by
  cases found with
  | true =>
    obtain byte | eos := legal
    · have ne : o ≠ 257 := ne_endOfStream_of_byte byte
      rw [if_pos rfl, if_neg ne]
      exact .leaf path byte
    · obtain rfl : o = 257 := BitVec.eq_of_toNat_eq eos
      exact .eos path
  | false =>
    have value : (byteOf o).setWidth 9 = o.setWidth 9 := by
      apply BitVec.eq_of_toNat_eq
      have := literal rfl
      simp only [byteOf, BitVec.toNat_setWidth]
      omega
    have walk := WalkEnds.literal (v := byteOf o) (rest := rest) path
    rwa [value, ← List.append_assoc, ← tokensOf_append] at walk

/-- END_OF_STREAM is in every good tree, so a symbol that is not is a byte. -/
theorem TreeOk.byte_of_not_inTree {s : State} (ok : TreeOk s) (valid : s.treeValid = true) {o : Opnd}
    (legal : o.toNat ≤ 255 ∨ o.toNat = 257) (out : ¬ InTree s o) : o.toNat ≤ 255 := by
  obtain ⟨-, -, -, -, -, eosIn⟩ := ok.of_treeValid valid
  refine legal.resolve_right fun eos => out ?_
  obtain rfl : o = 257 := BitVec.eq_of_toNat_eq eos
  exact eosIn

/-- Settles O43: the register holds the codeword ENCODE found, and `walkEnds_emission` is DECODE's walk over it. -/
theorem decodeInvertsEncode : Obligations.DecodeInvertsEncode := by
  intro o s t rest valid ok legal h
  obtain ⟨-, size, -⟩ := ok.of_treeValid valid
  obtain ⟨p, found, rfl, inTree, path, len⟩ := exec_encode_goodTree ok valid ((symLegal_iff o).mpr legal) h
  have held : heldCodeword (complete (putCodeword p found s)) = p := heldCodeword_putCodeword found s (by omega)
  have sent : p ++ (if found then [] else bin8 (o.setWidth 8)) = emission o p found := by
    cases found
    · rfl
    · exact List.append_nil p
  have byte : found = false → o.toNat ≤ 255 := fun out =>
    ok.byte_of_not_inTree valid legal fun hin => absurd (out.symm.trans (inTree.mpr hin)) nofun
  have walk := walkEnds_emission legal byte path rest
  refine ⟨_, exec_decode_done (v := o.setWidth 9) (rest := rest) valid ?_, rfl, rfl, rfl⟩
  rw [held, complete_found, putCodeword_found, sent]
  exact walk.decodeWalk_eq

/-! ## DEC_STEP (R194, R207) -/

/-- Settles O49: the word has no operand, and on the tree of a build DEC_STEP does what the walk says: it waits, ends the
session, overflows with all that was done kept, or outputs and records the byte. -/
theorem decStepRule : Obligations.DecStepRule := by
  refine ⟨rfl, fun _ s hop hlow => executeWord_noneForm s (by rw [opField, hop]; decide) hlow, fun s =>
    ⟨exec_decStep_sessionMode, fun mode => ⟨_, exec_build s, ?_, ?_, ?_, ?_⟩⟩⟩
  · exact fun starves => exec_decStep_starved mode starves.decodeWalk_eq
  · intro st v rest ends ending
    exact exec_decStep_end mode ends.decodeWalk_eq (by rcases ending with rfl | rfl <;> decide)
  · exact fun st v rest ends byte full => exec_decStep_overflow mode ends.decodeWalk_eq byte full
  · exact fun st v rest ends byte room => ⟨_, exec_decStep_byte mode ends.decodeWalk_eq byte room,
      countAt_putCount_same _ _ _, fun c hc => countAt_putCount_ne _ _ _ _ hc, rfl⟩

/-! ## No command meets a broken tree (log 10) -/

theorem exists_exec_encStep (o : Opnd) (s : State) : ∃ t, exec (.encStep o) s = .next t := by
  cases legal : symLegal o with
  | false => exact ⟨_, exec_encStep_range s legal⟩
  | true =>
    by_cases mode : s.session = .encoding
    case neg => exact ⟨_, exec_encStep_sessionMode legal mode⟩
    by_cases full : o ≠ endOfStream ∧ countFull s (byteOf o) = true
    · exact ⟨_, exec_encStep_full legal mode full⟩
    · obtain ⟨p, found, hl, -⟩ := lookup_spec (treeOk_rebuild s) rfl (isLeaf_of_symLegal legal)
      exact ⟨_, exec_encStep_found legal mode full hl⟩

theorem exists_exec_decStep (s : State) : ∃ t, exec .decStep s = .next t := by
  by_cases mode : s.session = .decoding
  case neg => exact ⟨_, exec_decStep_sessionMode mode⟩
  obtain ⟨st, v, rest, ends⟩ | starves := (treeOk_rebuild s).walkEnds_or_walkStarves rfl s.bitSource
  · exact ⟨_, exec_decStep_done mode ends.decodeWalk_eq⟩
  · exact ⟨_, exec_decStep_starved mode starves.decodeWalk_eq⟩

/-- From a good tree every command answers a next state. -/
theorem TreeOk.exists_exec {s : State} (ok : TreeOk s) (i : Instr) : ∃ t, exec i s = .next t := by
  have frequency := frequencyFamilyFrame i s
  have heap := heapFamilyFrame i s
  cases i with
  | nop => exact ⟨_, exec_nop s⟩
  | sessInit o =>
    rcases Nat.lt_or_ge 1 o.toNat with range | legal
    · exact ⟨_, exec_sessInit_range s range⟩
    · exact ⟨_, exec_sessInit_legal s legal⟩
  | ftReset => exact (frequency (.inl rfl)).imp fun _ => And.left
  | ftRecord o => exact (frequency (.inr (.inl ⟨o, rfl⟩))).imp fun _ => And.left
  | ftQuery o => exact (frequency (.inr (.inr (.inl ⟨o, rfl⟩)))).imp fun _ => And.left
  | ftNext o => exact (frequency (.inr (.inr (.inr ⟨o, rfl⟩)))).imp fun _ => And.left
  | heapClear => exact (heap (.inl rfl)).imp fun _ => And.left
  | heapInsert o => exact (heap (.inr (.inl ⟨o, rfl⟩))).imp fun _ => And.left
  | heapExtract => exact (heap (.inr (.inr rfl))).imp fun _ => And.left
  | build => exact ⟨_, exec_build s⟩
  | encode o =>
    cases legal : symLegal o with
    | false => exact ⟨_, exec_encode_range s legal⟩
    | true =>
      obtain valid | noTree := Bool.eq_false_or_eq_true s.treeValid
      · obtain ⟨p, found, hl, -⟩ := lookup_spec ok valid (isLeaf_of_symLegal legal)
        exact ⟨_, exec_encode_found legal valid hl⟩
      · exact ⟨_, exec_encode_noTree legal noTree⟩
  | decode =>
    obtain valid | noTree := Bool.eq_false_or_eq_true s.treeValid
    · exact (decodeEndsOrWaits s valid ok).imp fun _ => And.left
    · exact ⟨_, exec_decode_noTree noTree⟩
  | encStep o => exact exists_exec_encStep o s
  | decStep => exact exists_exec_decStep s

theorem TreeOk.exists_blockStep {s : State} (ok : TreeOk s) : ∃ t, blockStep s = .next t := by
  cases hp : s.pending with
  | none => exact ⟨s, blockStep_idle s hp⟩
  | some w =>
    rw [blockStep_pending s w hp]
    cases hd : decode w with
    | illegal why => exact ⟨_, executeWord_illegal s w why hd⟩
    | command i => rw [executeWord_command s w i hd]; exact ok.exists_exec i

/-- An event that is not the block's turn ends in no fault of the model. -/
theorem perform_ne_fault {e : Event} (other : e ≠ .blockTurn) (s : State) (f : Fault) : perform e s ≠ .fault f := by
  cases e with
  | memRead bytes a =>
    cases hr : resolve false bytes a with
    | error why => rw [perform_memRead_error hr]; nofun
    | ok loc => obtain ⟨t, ht⟩ := perform_memRead_ok (s := s) hr; rw [ht]; nofun
  | memWrite bytes a v =>
    cases hr : resolve true bytes a with
    | error why => rw [perform_memWrite_error hr]; nofun
    | ok loc => rw [perform_memWrite_ok hr]; nofun
  | deliver token => nofun
  | blockTurn => exact absurd rfl other
  | reset => nofun

/-- Settles O60: only the block's turn could fault, and from a good tree it answers a next state. -/
theorem noModelFaultFromAGoodTree : Obligations.NoModelFaultFromAGoodTree := by
  intro s f ok
  cases hs : s.schedule with
  | nil =>
    obtain ⟨t, ht⟩ := ok.exists_blockStep
    rw [step_idle s hs, ht]
    nofun
  | cons e rest =>
    rw [step_event s e rest hs]
    by_cases turn : e = .blockTurn
    · subst turn
      obtain ⟨t, ht⟩ := TreeOk.exists_blockStep (s := { s with schedule := rest }) ok
      rw [perform, ht]
      nofun
    · exact perform_ne_fault turn _ f

end Sys2Proof.Machine
end

section
/-! PROOFS. The heap property (spec/41_heap.md R127): the loops of R121 and R122 restore it, so HEAP_INSERT and HEAP_EXTRACT
keep it and the root is a minimum. -/

namespace Sys2Proof.Machine

/-! ## The heap property but for one entry -/

/-- Entry i is not heavier than entry j, where both are live. -/
def NotHeavier (h : List HeapEntry) (i j : Nat) : Prop :=
  ∀ x y, h[i]? = some x → h[j]? = some y → x.wgt.toNat ≤ y.wgt.toNat

theorem heapOrdered_iff (h : List HeapEntry) : HeapOrdered h ↔ ∀ j, 1 ≤ j → NotHeavier h ((j - 1) / 2) j :=
  ⟨fun ordered j hj x y => ordered j x y hj, fun ordered j x y hj => ordered j hj x y⟩

theorem NotHeavier.of_le {h : List HeapEntry} {i j : Nat} {x y : HeapEntry} (hx : h[i]? = some x) (hy : h[j]? = some y)
    (le : x.wgt.toNat ≤ y.wgt.toNat) : NotHeavier h i j := by
  intro x' y' hx' hy'
  obtain rfl := Option.some.inj (hx.symm.trans hx')
  obtain rfl := Option.some.inj (hy.symm.trans hy')
  exact le

theorem NotHeavier.of_not_live {h : List HeapEntry} {i j : Nat} (hj : h.length ≤ j) : NotHeavier h i j := by
  intro x y _ hy
  rw [List.getElem?_eq_none hj] at hy
  cases hy

theorem NotHeavier.congr {h g : List HeapEntry} {i j : Nat} (le : NotHeavier h i j) (hi : g[i]? = h[i]?)
    (hj : g[j]? = h[j]?) : NotHeavier g i j := by
  intro x y hx hy
  exact le x y (hi ▸ hx) (hj ▸ hy)

/-- Ordered but that entry i may be lighter than its parent, while its children are not lighter than that parent: what holds
in each round of R121's loop. -/
structure OrderedAbove (h : List HeapEntry) (i : Nat) : Prop where
  others : ∀ j, 1 ≤ j → j ≠ i → NotHeavier h ((j - 1) / 2) j
  grandchildren : ∀ j, 1 ≤ i → 1 ≤ j → (j - 1) / 2 = i → NotHeavier h ((i - 1) / 2) j

/-- Ordered but that entry i may be heavier than its children, while they are not lighter than its parent: what holds in each
round of R122's loop. -/
structure OrderedBelow (h : List HeapEntry) (i : Nat) : Prop where
  others : ∀ j, 1 ≤ j → (j - 1) / 2 ≠ i → NotHeavier h ((j - 1) / 2) j
  grandchildren : ∀ j, 1 ≤ i → 1 ≤ j → (j - 1) / 2 = i → NotHeavier h ((i - 1) / 2) j

/-! ## One round of a loop -/

/-- The entries after two of them are put in each other's places. -/
theorem getElem?_exchanged {h : List HeapEntry} {i k : Nat} {x y : HeapEntry} (hi : i < h.length) (hk : k < h.length)
    (j : Nat) : ((h.set i y).set k x)[j]? = if j = k then some x else if j = i then some y else h[j]? := by
  grind

/-- One round of R121's loop: the lighter entry goes up, and the loop's invariant with it. -/
theorem OrderedAbove.exchange {h : List HeapEntry} {i : Nat} {e parent : HeapEntry} (inv : OrderedAbove h i) (pos : 0 < i)
    (he : h[i]? = some e) (hp : h[(i - 1) / 2]? = some parent) (lt : e.wgt.toNat < parent.wgt.toNat) :
    OrderedAbove ((h.set i parent).set ((i - 1) / 2) e) ((i - 1) / 2) := by
  have up : (i - 1) / 2 < i := by omega
  have entry := getElem?_exchanged (x := e) (y := parent) (List.getElem?_eq_some_iff.mp he).1
    (List.getElem?_eq_some_iff.mp hp).1
  generalize (h.set i parent).set ((i - 1) / 2) e = g at entry ⊢
  constructor
  · intro j hj ne x y hx hy
    rw [entry, if_neg ne] at hy
    rw [entry] at hx
    by_cases own : j = i
    · subst own
      rw [if_pos rfl] at hx hy
      cases hx; cases hy
      exact Nat.le_of_lt lt
    rw [if_neg own] at hy
    by_cases sibling : (j - 1) / 2 = (i - 1) / 2
    · rw [if_pos sibling] at hx
      cases hx
      exact (Nat.le_of_lt lt).trans (inv.others j hj own parent y (sibling ▸ hp) hy)
    rw [if_neg sibling] at hx
    by_cases child : (j - 1) / 2 = i
    · rw [if_pos child] at hx
      cases hx
      exact inv.grandchildren j pos hj child parent y hp hy
    · rw [if_neg child] at hx
      exact inv.others j hj own x y hx hy
  · intro j hp1 hj child x y hx hy
    rw [entry, if_neg (by omega), if_neg (by omega)] at hx
    rw [entry, if_neg (by omega)] at hy
    have above := inv.others _ hp1 (by omega) x parent hx hp
    by_cases own : j = i
    · rw [if_pos own] at hy
      cases hy
      exact above
    · rw [if_neg own] at hy
      exact above.trans (inv.others j hj own parent y (child ▸ hp) hy)

theorem SiftsUp.heapOrdered {h h' : List HeapEntry} {i : Nat} (sifts : SiftsUp h i h') (inv : OrderedAbove h i) :
    HeapOrdered h' := by
  induction sifts with
  | atRoot => exact (heapOrdered_iff _).mpr fun j hj => inv.others j hj (by omega)
  | @stays h i e parent pos he hp le =>
    refine (heapOrdered_iff _).mpr fun j hj => ?_
    by_cases own : j = i
    · exact own ▸ .of_le hp he le
    · exact inv.others j hj own
  | moves pos he hp lt _ ih => exact ih (inv.exchange pos he hp lt)

/-- The chosen child is a child of i and not heavier than the other one. -/
theorem ChosenChild.least {h : List HeapEntry} {i c : Nat} {child : HeapEntry} (hc : ChosenChild h i c child) :
    1 ≤ c ∧ (c - 1) / 2 = i ∧
    ∀ j y, 1 ≤ j → (j - 1) / 2 = i → h[j]? = some y → child.wgt.toNat ≤ y.wgt.toNat := by
  obtain ⟨rfl, live, l, hl, lt⟩ | ⟨rfl, live, le⟩ := hc
  · refine ⟨by omega, by omega, fun j y hj hi hy => ?_⟩
    obtain rfl | rfl : j = 2 * i + 1 ∨ j = 2 * i + 2 := by omega
    · cases hl.symm.trans hy
      exact Nat.le_of_lt lt
    · cases live.symm.trans hy
      exact le_rfl
  · refine ⟨by omega, by omega, fun j y hj hi hy => ?_⟩
    obtain rfl | rfl : j = 2 * i + 1 ∨ j = 2 * i + 2 := by omega
    · cases live.symm.trans hy
      exact le_rfl
    · exact le y hy

/-- One round of R122's loop: the chosen child goes up, and the loop's invariant goes down with the entry. -/
theorem OrderedBelow.exchange {h : List HeapEntry} {i c : Nat} {e child : HeapEntry} (inv : OrderedBelow h i)
    (he : h[i]? = some e) (chosen : ChosenChild h i c child) (lt : child.wgt.toNat < e.wgt.toNat) :
    OrderedBelow ((h.set i child).set c e) c := by
  obtain ⟨hc1, parent, least⟩ := chosen.least
  have hc := chosen.getElem?_eq
  have down := chosen.lt
  have entry := getElem?_exchanged (x := e) (y := child) (List.getElem?_eq_some_iff.mp he).1
    (List.getElem?_eq_some_iff.mp hc).1
  generalize (h.set i child).set c e = g at entry ⊢
  constructor
  · intro j hj ne x y hx hy
    rw [entry, if_neg ne] at hx
    rw [entry] at hy
    by_cases child' : (j - 1) / 2 = i
    · rw [if_pos child'] at hx
      cases hx
      by_cases own : j = c
      · rw [if_pos own] at hy
        cases hy
        exact Nat.le_of_lt lt
      · rw [if_neg own, if_neg (by omega)] at hy
        exact least j y hj child' hy
    rw [if_neg child'] at hx
    rw [if_neg (by rintro rfl; exact child' parent)] at hy
    by_cases up : j = i
    · subst up
      rw [if_pos rfl] at hy
      cases hy
      exact inv.grandchildren c hj hc1 parent x child hx hc
    · rw [if_neg up] at hy
      exact inv.others j hj child' x y hx hy
  · intro j _ hj below x y hx hy
    rw [parent, entry, if_neg (by omega), if_pos rfl] at hx
    rw [entry, if_neg (by omega), if_neg (by omega)] at hy
    cases hx
    exact inv.others j hj (by omega) child y (below ▸ hc) hy

theorem SiftsDown.heapOrdered {h h' : List HeapEntry} {i : Nat} (sifts : SiftsDown h i h') (inv : OrderedBelow h i) :
    HeapOrdered h' := by
  induction sifts with
  | @noChild h i short =>
    refine (heapOrdered_iff _).mpr fun j hj => ?_
    by_cases child : (j - 1) / 2 = i
    · exact .of_not_live (by omega)
    · exact inv.others j hj child
  | @stays h i c e child he chosen le =>
    obtain ⟨-, -, least⟩ := chosen.least
    refine (heapOrdered_iff _).mpr fun j hj => ?_
    by_cases below : (j - 1) / 2 = i
    · intro x y hx hy
      cases he.symm.trans (below ▸ hx)
      exact le.trans (least j y hj below hy)
    · exact inv.others j hj below
  | moves he chosen lt _ ih => exact ih (inv.exchange he chosen lt)

/-! ## HeapInsert and HeapExtract keep the heap property -/

theorem HeapOrdered.append {h : List HeapEntry} (ordered : HeapOrdered h) (e : HeapEntry) :
    OrderedAbove (h ++ [e]) h.length := by
  have size : (h ++ [e]).length = h.length + 1 := by simp
  constructor
  · intro j hj ne
    rcases Nat.lt_or_ge j h.length with old | free
    · exact ((heapOrdered_iff h).mp ordered j hj).congr (List.getElem?_append_left (by omega))
        (List.getElem?_append_left old)
    · exact .of_not_live (by omega)
  · exact fun j _ _ _ => .of_not_live (by omega)

theorem heapInsert_heapOrdered {h : List HeapEntry} (ordered : HeapOrdered h) (e : HeapEntry) :
    HeapOrdered (heapInsert h e) :=
  (heapInsert_siftsUp h e).heapOrdered (ordered.append e)

/-- HeapExtract answers as R122 says. -/
theorem heapExtract_extracts {h h' : List HeapEntry} {top : HeapEntry} (he : heapExtract h = some (top, h')) :
    Extracts h top h' := by
  obtain ⟨rest, rfl, -⟩ := heapExtract_some he
  rcases List.eq_nil_or_concat rest with rfl | ⟨mid, last, rfl⟩
  · cases he
    exact .inl ⟨rfl, rfl⟩
  · rw [List.concat_eq_append] at he ⊢
    obtain ⟨g, hg, sifts⟩ := heapExtract_siftsDown top last mid
    cases hg.symm.trans he
    exact .inr ⟨mid, last, rfl, sifts⟩

theorem HeapOrdered.extract {top last : HeapEntry} {mid : List HeapEntry}
    (ordered : HeapOrdered (top :: (mid ++ [last]))) : OrderedBelow (last :: mid) 0 := by
  have below (k : Nat) (hk : 1 ≤ k) (live : k < mid.length + 1) :
      (last :: mid)[k]? = (top :: (mid ++ [last]))[k]? := by
    obtain ⟨k, rfl⟩ := Nat.exists_eq_add_of_le' hk
    exact (List.getElem?_append_left (by omega)).symm
  constructor
  · intro j hj ne
    rcases Nat.lt_or_ge j (mid.length + 1) with live | free
    · exact ((heapOrdered_iff _).mp ordered j hj).congr (below _ (by omega) (by omega)) (below j hj live)
    · exact .of_not_live (by simpa using free)
  · exact fun j zero => absurd zero (by decide)

theorem heapExtract_heapOrdered {h h' : List HeapEntry} {top : HeapEntry} (he : heapExtract h = some (top, h'))
    (ordered : HeapOrdered h) : HeapOrdered h' := by
  obtain ⟨-, rfl⟩ | ⟨mid, last, rfl, sifts⟩ := heapExtract_extracts he
  · intro i x y _ hx
    simp at hx
  · exact sifts.heapOrdered ordered.extract

/-- In an ordered heap no entry is lighter than the root. -/
theorem HeapOrdered.root_le {top : HeapEntry} {rest : List HeapEntry} (ordered : HeapOrdered (top :: rest)) :
    ∀ e ∈ top :: rest, top.wgt.toNat ≤ e.wgt.toNat := by
  have at_index (i : Nat) : ∀ e, (top :: rest)[i]? = some e → top.wgt.toNat ≤ e.wgt.toNat := by
    induction i using Nat.strongRecOn with
    | ind i ih =>
      intro e he
      rcases Nat.eq_zero_or_pos i with rfl | pos
      · cases he
        exact le_rfl
      · have live := (List.getElem?_eq_some_iff.mp he).1
        have hp := List.getElem?_eq_getElem (l := top :: rest) (i := (i - 1) / 2) (by omega)
        exact (ih _ (by omega) _ hp).trans (ordered i _ e pos hp he)
  intro e mem
  obtain ⟨i, hi⟩ := List.mem_iff_getElem?.mp mem
  exact at_index i e hi

/-! ## The heap commands -/

theorem SiftsUp.eq_of_parent_le {h h' : List HeapEntry} {i : Nat} {e parent : HeapEntry} (sifts : SiftsUp h i h')
    (he : h[i]? = some e) (hp : h[(i - 1) / 2]? = some parent) (le : parent.wgt.toNat ≤ e.wgt.toNat) : h' = h := by
  cases sifts with
  | atRoot => rfl
  | stays => rfl
  | moves _ he' hp' lt =>
    cases he.symm.trans he'
    cases hp.symm.trans hp'
    exact absurd le (Nat.not_le_of_lt lt)

theorem weightOf_byte {o : NodeIx} (freq : Vector Count 256) (arena : List ArenaSlot) (byte : o.toNat ≤ 255) :
    weightOf freq arena o = (countAt freq (byteOf o)).setWidth 64 :=
  if_pos byte

theorem weightOf_slot {o : NodeIx} {k : Nat} {slot : ArenaSlot} (freq : Vector Count 256) {arena : List ArenaSlot}
    (ho : o.toNat = 258 + k) (hs : arena[k]? = some slot) : weightOf freq arena o = slot.wint := by
  have hk : slotOf o = k := Nat.sub_eq_of_eq_add' ho
  rw [weightOf, if_neg (by omega), if_neg (by omega), hk, hs]

/-- Settles O28: `weightOf` in its three cases, HeapInsert's loop, and the heap property it restores. -/
theorem heapInsertAddsTheWeightedNode : Obligations.HeapInsertAddsTheWeightedNode := by
  intro o s legal room
  have sifts := heapInsert_siftsUp s.heap ⟨o, weightOf s.freq s.arena o⟩
  refine ⟨_, weightOf s.freq s.arena o, exec_heapInsert_room legal room, rfl, weightOf_byte _ _, ?_, ?_, sifts,
    heapInsert_perm _ _, fun ordered => heapInsert_heapOrdered ordered _, ?_⟩
  · exact fun sentinel => weightOf_sentinel _ _ (by omega) (by omega)
  · exact fun k slot ho hs => weightOf_slot _ ho hs
  · intro parent ne hp le
    have live : (s.hsize - 1) / 2 < s.heap.length := (List.getElem?_eq_some_iff.mp hp).1
    exact sifts.eq_of_parent_le List.getElem?_concat_length ((List.getElem?_append_left live).trans hp) le

/-- Settles O29: HeapExtract's loop, and the heap property, which makes the root a minimum. -/
theorem heapExtractRemovesAMinimum : Obligations.HeapExtractRemovesAMinimum := by
  intro s top others hs
  obtain ⟨h, he, perm⟩ := heapExtract_cons top others
  rw [← hs] at he
  refine ⟨_, exec_heapExtract_some he, rfl, fun mid last split => ?_, perm.symm, fun ordered => ?_⟩
  · subst split
    obtain ⟨g, hg, sifts⟩ := heapExtract_siftsDown top last mid
    rw [hs] at he
    cases hg.symm.trans he
    exact sifts
  · refine ⟨heapExtract_heapOrdered he ordered, ?_⟩
    rw [hs] at ordered ⊢
    exact ordered.root_le

/-! ## Every step keeps the heap property -/

theorem heapOrdered_nil : HeapOrdered [] := fun _ _ _ _ hx => by simp at hx

theorem heapOrdered_singleton (e : HeapEntry) : HeapOrdered [e] :=
  (heapOrdered_iff _).mpr fun _ hj => .of_not_live hj

theorem heapOrdered_rebuild (s : State) : HeapOrdered (rebuild s).heap := by
  obtain ⟨⟨w, heap⟩, -⟩ := buildTree_spec s.freq
  rw [rebuild_heap, heap]
  exact heapOrdered_singleton _

theorem Effect.keeps_heapOrdered {i : Instr} {s u : State} (ordered : HeapOrdered s.heap) (h : Effect i s u) :
    HeapOrdered u.heap := by
  cases h with
  | sessInit => exact heapOrdered_nil
  | heapClear => exact heapOrdered_nil
  | heapInsert => exact heapInsert_heapOrdered ordered _
  | heapExtract he => exact heapExtract_heapOrdered he ordered
  | build => exact heapOrdered_rebuild s
  | encStepEnd => exact heapOrdered_rebuild s
  | encStepByte => exact heapOrdered_rebuild s
  | decStepByte => exact heapOrdered_rebuild s
  | decStepOverflow => exact heapOrdered_rebuild s
  | decStepEnd => exact heapOrdered_rebuild s
  | _ => exact ordered

/-- Settles O56: inserting, extracting, clearing and building keep the heap property, and nothing else writes the heap. -/
theorem stepKeepsHeapOrdered : Obligations.StepKeepsHeapOrdered := fun _ _ =>
  step_keeps (P := fun s => HeapOrdered s.heap) (fun _ _ _ _ _ _ ordered => ordered) (fun _ _ _ ordered => ordered)
    (fun _ _ => heapOrdered_nil) (fun _ _ _ => Effect.keeps_heapOrdered)

end Sys2Proof.Machine
end

section
/-! PROOFS. What a build leaves (spec/42_tree_builder.md R140 to R148): the leaves it inserts and the merges it makes, the
weights, and a tree in which every node is the child of one slot at most. -/

namespace Sys2Proof.Machine

/-! ## The leaves (R141) -/

/-- The 256 byte values, ascending. -/
def allBytes : List Byte := (List.range 256).map (BitVec.ofNat 8)

theorem nodup_allBytes : allBytes.Nodup := by
  refine List.Nodup.map_on (fun i hi j hj eq => ?_) List.nodup_range
  have := congrArg BitVec.toNat eq
  simp only [BitVec.toNat_ofNat, List.mem_range] at this hi hj
  omega

theorem zipIdx_toList (freq : Vector Count 256) :
    freq.toList.zipIdx = allBytes.map fun b => (countAt freq b, b.toNat) := by
  refine List.ext_getElem (by simp [allBytes]) fun i hi _ => ?_
  have lt : i < 256 := by simpa using hi
  simp [allBytes, countAt, Nat.mod_eq_of_lt lt]

/-- The enumeration by its bytes. -/
theorem observed_eq (freq : Vector Count 256) :
    observed freq = (allBytes.filter fun b => countAt freq b ≠ 0).map fun b => (countAt freq b, b.toNat) := by
  rw [observed, zipIdx_toList, List.filter_map]
  refine congrArg _ (List.filter_congr fun b _ => ?_)
  rw [Function.comp_apply, Bool.eq_iff_iff, hitFlag_iff, decide_eq_true_iff]

/-- A build inserts the leaves in the order of R141. -/
theorem leavesOf_eq_leavesInOrder (freq : Vector Count 256) : leavesOf freq = leavesInOrder freq := by
  rw [leavesOf, observed_eq, List.map_map]
  simp only [Function.comp_def, BitVec.ofNat_toNat]
  rfl

theorem mem_leaf_nodes_iff (freq : Vector Count 256) (n : NodeIx) : n ∈ (leavesOf freq).map (·.node) ↔
    (n.toNat ≤ 255 ∧ countAt freq (n.setWidth 8) ≠ 0) ∨ n.toNat = 256 ∨ n.toNat = 257 := by
  have notSeen_iff : n = 256 ↔ n.toNat = 256 := BitVec.toNat_inj.symm
  have endOfStream_iff : n = 257 ↔ n.toNat = 257 := BitVec.toNat_inj.symm
  have byte_iff : (∃ b : Byte, countAt freq b ≠ 0 ∧ b.setWidth 10 = n) ↔
      n.toNat ≤ 255 ∧ countAt freq (n.setWidth 8) ≠ 0 := by
    constructor
    · rintro ⟨b, hb, rfl⟩
      have back : (b.setWidth 10).setWidth 8 = b := BitVec.setWidth_setWidth_of_le b (by decide) |>.trans (by simp)
      have := b.isLt
      exact ⟨by rw [BitVec.toNat_setWidth]; omega, by rwa [back]⟩
    · rintro ⟨byte, hn⟩
      refine ⟨_, hn, BitVec.eq_of_toNat_eq ?_⟩
      simp only [BitVec.toNat_setWidth]
      omega
  have all (b : Byte) : b ∈ allBytes := List.mem_map.mpr ⟨b.toNat, List.mem_range.mpr b.isLt, by simp⟩
  have nodes : n ∈ (leavesOf freq).map (·.node) ↔
      n = 256 ∨ n = 257 ∨ ∃ b : Byte, countAt freq b ≠ 0 ∧ b.setWidth 10 = n := by
    rw [leavesOf_eq_leavesInOrder]
    change n ∈ (⟨256, 0⟩ :: ⟨257, 0⟩ :: (allBytes.filter _).map _).map HeapEntry.node ↔ _
    simp [all]
  rw [nodes, byte_iff, notSeen_iff, endOfStream_iff]
  exact (or_comm.trans or_assoc).symm

theorem nodup_leaf_nodes (freq : Vector Count 256) : ((leavesOf freq).map (·.node)).Nodup := by
  have bytes : (allBytes.filter fun b => countAt freq b ≠ 0).Nodup := nodup_allBytes.filter _
  have widened : ((allBytes.filter fun b => countAt freq b ≠ 0).map fun b : Byte => b.setWidth 10).Nodup := by
    refine bytes.map fun a b eq => BitVec.eq_of_toNat_eq ?_
    have := congrArg BitVec.toNat eq
    simpa [Nat.mod_eq_of_lt (a.isLt.trans (by decide : 256 < 1024)),
      Nat.mod_eq_of_lt (b.isLt.trans (by decide : 256 < 1024))] using this
  have below : ∀ n ∈ (allBytes.filter fun b => countAt freq b ≠ 0).map fun b : Byte => b.setWidth 10, n.toNat < 256 := by
    intro n hn
    obtain ⟨b, -, rfl⟩ := List.mem_map.mp hn
    have := b.isLt
    rw [BitVec.toNat_setWidth]
    omega
  have nodes : (leavesOf freq).map (·.node) =
      256 :: 257 :: (allBytes.filter fun b => countAt freq b ≠ 0).map fun b : Byte => b.setWidth 10 := by
    rw [leavesOf_eq_leavesInOrder, leavesInOrder, List.map_cons, List.map_cons, List.map_map]
    rfl
  rw [nodes, List.nodup_cons, List.nodup_cons]
  refine ⟨fun mem => ?_, fun mem => absurd (below _ mem) (by decide), widened⟩
  obtain eq | mem := List.mem_cons.mp mem
  · exact absurd eq (by decide)
  · exact absurd (below _ mem) (by decide)

/-! ## The table as a whole (R141, R145) -/

theorem observed_length (freq : Vector Count 256) : (observed freq).length = observedBytes freq := by
  have fsts : freq.toList.zipIdx.map Prod.fst = freq.toList := List.zipIdx_map_fst 0 _
  rw [observed, ← List.countP_eq_length_filter, observedBytes]
  conv_rhs => rw [← fsts, List.countP_map]
  rfl

theorem sum_map_filter {α : Type} (l : List α) (p : α → Bool) (f : α → Nat) (zero : ∀ a ∈ l, p a = false → f a = 0) :
    ((l.filter p).map f).sum = (l.map f).sum := by
  induction l with
  | nil => rfl
  | cons a l ih =>
    have rest := ih fun b hb => zero b (List.mem_cons_of_mem _ hb)
    cases hp : p a with
    | true => simp [hp, rest]
    | false => simp [hp, rest, zero a List.mem_cons_self hp]

/-- The weight of a heap as a whole. -/
def totalWeight (h : List HeapEntry) : Nat := (h.map fun e => e.wgt.toNat).sum

theorem totalWeight_perm {h g : List HeapEntry} (perm : h.Perm g) : totalWeight h = totalWeight g :=
  (perm.map _).sum_nat

/-- The leaves weigh what the table counts: the unobserved bytes have weight 0. -/
theorem totalWeight_leavesOf (freq : Vector Count 256) : totalWeight (leavesOf freq) = totalCount freq := by
  have fsts : freq.toList.zipIdx.map Prod.fst = freq.toList := List.zipIdx_map_fst 0 _
  have weights : totalWeight (leavesOf freq) = ((observed freq).map fun e => e.1.toNat).sum := by
    have widened (c : Count) : (c.setWidth 64).toNat = c.toNat := BitVec.toNat_setWidth_of_le (by decide)
    simp [totalWeight, leavesOf, Function.comp_def, widened, -BitVec.toNat_setWidth]
  rw [weights, observed, sum_map_filter _ _ _ fun e _ he => ?_, totalCount]
  · conv_rhs => rw [← fsts, List.map_map]
    rfl
  · simpa [hitFlag] using he

theorem totalCount_lt {freq : Vector Count 256} {m : Nat} (fits : ∀ b, (countAt freq b).toNat < m) :
    totalCount freq < 256 * m := by
  have le : ∀ x ∈ freq.toList.map fun c => c.toNat, x ≤ m - 1 := by
    intro x hx
    obtain ⟨c, hc, rfl⟩ := List.mem_map.mp hx
    obtain ⟨i, hi, rfl⟩ := List.mem_iff_getElem.mp hc
    have lt : i < 256 := by simpa using hi
    have := fits (BitVec.ofNat 8 i)
    simp only [countAt, BitVec.toNat_ofNat, Nat.mod_eq_of_lt lt] at this
    simpa using Nat.le_sub_one_of_lt this
  have sum := List.sum_le_card_nsmul _ _ le
  have := fits 0
  simp only [List.length_map, Vector.length_toList, smul_eq_mul] at sum
  rw [totalCount]
  omega

theorem totalCount_lt_two_pow (freq : Vector Count 256) : totalCount freq < 2 ^ 64 :=
  totalCount_lt (m := 2 ^ 56) fun b => (countAt freq b).isLt

/-! ## The merges follow R140 to R142 -/

theorem insertsAll_foldl (l h : List HeapEntry) : InsertsAll h l (l.foldl heapInsert h) := by
  induction l generalizing h with
  | nil => exact .none
  | cons e l ih => exact .next (heapInsert_siftsUp h e) (ih _)

theorem mergeLoop_merges (fuel : Nat) (h : List HeapEntry) (a : List ArenaSlot) (bound : h.length ≤ fuel + 1) :
    Merges h a (mergeLoop fuel h a).1 (mergeLoop fuel h a).2 := by
  induction fuel generalizing h a with
  | zero => exact .finished bound
  | succ fuel ih =>
    rcases Nat.lt_or_ge 1 h.length with more | done
    · obtain ⟨x, h₁, y, h₂, hx, hy, len, eq⟩ := mergeLoop_succ fuel h a more
      rw [eq]
      exact .merge (heapExtract_extracts hx) (heapExtract_extracts hy) (heapInsert_siftsUp _ _)
        (ih _ _ (by rw [heapInsert_length]; omega))
    · rw [mergeLoop, if_pos done]
      exact .finished done

/-! ## Weights during the merges (R142, R145) -/

/-- Between two merges the heap is ordered and weighs what the table counts, no slot weighs more, an entry has the weight of
its node, and a slot that of its children, the lighter one left. -/
structure Weighed (freq : Vector Count 256) (heap : List HeapEntry) (arena : List ArenaSlot) : Prop where
  ordered : HeapOrdered heap
  total : totalWeight heap = totalCount freq
  bound : ∀ slot ∈ arena, slot.wint.toNat ≤ totalCount freq
  entries : ∀ e ∈ heap, weightOf freq arena e.node = e.wgt
  slots : ∀ (k : Nat) (slot : ArenaSlot), arena[k]? = some slot →
    slot.wint.toNat = (weightOf freq arena slot.left).toNat + (weightOf freq arena slot.right).toNat ∧
    (weightOf freq arena slot.left).toNat ≤ (weightOf freq arena slot.right).toNat

/-- A new slot changes the weight of no node below it. -/
theorem weightOf_append (freq : Vector Count 256) (arena : List ArenaSlot) (slot : ArenaSlot) {n : NodeIx}
    (below : n.toNat < 258 + arena.length) : weightOf freq (arena ++ [slot]) n = weightOf freq arena n := by
  rcases Nat.lt_or_ge n.toNat 258 with leaf | internal
  · rcases Nat.lt_or_ge 255 n.toNat with sentinel | byte
    · rw [weightOf_sentinel _ _ sentinel (by omega), weightOf_sentinel _ _ sentinel (by omega)]
    · rw [weightOf_byte _ _ byte, weightOf_byte _ _ byte]
  · have live : slotOf n < arena.length := Nat.sub_lt_left_of_lt_add internal below
    have hn := (add_slotOf internal).symm
    have hs := List.getElem?_eq_getElem live
    rw [weightOf_slot freq hn hs, weightOf_slot freq hn ((List.getElem?_append_left live).trans hs)]

theorem Weighed.merge {freq : Vector Count 256} {leaves h h₁ h₂ : List HeapEntry} {a : List ArenaSlot} {x y : HeapEntry}
    (shape : Merging leaves h a) (inv : Weighed freq h a) (hx : heapExtract h = some (x, h₁))
    (hy : heapExtract h₁ = some (y, h₂)) :
    Weighed freq (heapInsert h₂ ⟨internalNode a.length, x.wgt + y.wgt⟩) (a ++ [⟨x.node, y.node, x.wgt + y.wgt⟩]) := by
  have perm := heapExtract_heapExtract_perm hx hy
  have inserted := heapInsert_perm h₂ ⟨internalNode a.length, x.wgt + y.wgt⟩
  have total : x.wgt.toNat + (y.wgt.toNat + totalWeight h₂) = totalCount freq :=
    ((totalWeight_perm perm).symm.trans inv.total)
  have exact_sum : (x.wgt + y.wgt).toNat = x.wgt.toNat + y.wgt.toNat := by
    have := totalCount_lt_two_pow freq
    rw [BitVec.toNat_add, Nat.mod_eq_of_lt (by omega)]
  have lighter_left : x.wgt.toNat ≤ y.wgt.toNat := by
    obtain ⟨rest, rfl, -⟩ := heapExtract_some hx
    exact inv.ordered.root_le y (perm.mem_iff.mpr (by simp))
  have kept {n : NodeIx} (below : n.toNat < 258 + a.length) :=
    weightOf_append freq a ⟨x.node, y.node, x.wgt + y.wgt⟩ below
  have entry {e : HeapEntry} (he : e ∈ x :: y :: h₂) :
      weightOf freq (a ++ [⟨x.node, y.node, x.wgt + y.wgt⟩]) e.node = e.wgt :=
    (kept (shape.entries e (perm.mem_iff.mpr he))).trans (inv.entries e (perm.mem_iff.mpr he))
  refine ⟨?_, ?_, fun slot hs => ?_, fun e he => ?_, fun k slot hk => ?_⟩
  · exact heapInsert_heapOrdered (heapExtract_heapOrdered hy (heapExtract_heapOrdered hx inv.ordered)) _
  · rw [totalWeight_perm inserted]
    change (x.wgt + y.wgt).toNat + totalWeight h₂ = _
    omega
  · obtain hs | hs := List.mem_append.mp hs
    · exact inv.bound slot hs
    · obtain rfl := List.mem_singleton.mp hs
      change (x.wgt + y.wgt).toNat ≤ _
      omega
  · obtain rfl | he := List.mem_cons.mp (inserted.mem_iff.mp he)
    · have size := shape.size
      rw [perm.length_eq, List.length_cons, List.length_cons] at size
      rw [weightOf_internalNode _ _ (by omega), List.getElem?_concat_length]
      rfl
    · exact entry (by simp [he])
  · rcases Nat.lt_trichotomy k a.length with old | rfl | free
    · rw [List.getElem?_append_left old] at hk
      obtain ⟨left, right⟩ := shape.below k slot hk
      rw [kept (left.trans (by omega)), kept (right.trans (by omega))]
      exact inv.slots k slot hk
    · obtain rfl : ⟨x.node, y.node, x.wgt + y.wgt⟩ = slot := by simpa using hk
      rw [entry (e := x) (by simp), entry (e := y) (by simp)]
      exact ⟨exact_sum, lighter_left⟩
    · rw [List.getElem?_eq_none (by simpa using free)] at hk
      cases hk

theorem foldl_heapInsert_heapOrdered (l : List HeapEntry) {h : List HeapEntry} (ordered : HeapOrdered h) :
    HeapOrdered (l.foldl heapInsert h) := by
  induction l generalizing h with
  | nil => exact ordered
  | cons e l ih => exact ih (heapInsert_heapOrdered ordered e)

theorem weightOf_leaf {freq : Vector Count 256} {l : HeapEntry} (hl : l ∈ leavesOf freq) :
    weightOf freq [] l.node = l.wgt := by
  obtain rfl | rfl | hl : l = ⟨notSeen, 0⟩ ∨ l = ⟨endOfStream, 0⟩ ∨ _ := by simpa [leavesOf] using hl
  · exact weightOf_sentinel _ _ (by decide) (by decide)
  · exact weightOf_sentinel _ _ (by decide) (by decide)
  · obtain ⟨c, b, hb, rfl⟩ := hl
    obtain ⟨b, he, -⟩ := exists_byte_of_mem_observed hb
    obtain ⟨rfl, rfl⟩ := Prod.mk.inj he
    exact BitVec.eq_of_toNat_eq ((weightOf_byteLeaf freq [] b).trans (BitVec.toNat_setWidth_of_le (by decide)).symm)

theorem weighed_leafHeap (freq : Vector Count 256) : Weighed freq (leafHeap freq) [] := by
  have perm := leafHeap_perm freq
  exact ⟨foldl_heapInsert_heapOrdered _ heapOrdered_nil, (totalWeight_perm perm).trans (totalWeight_leavesOf freq),
    nofun, fun e he => weightOf_leaf (perm.mem_iff.mp he), fun k slot hk => by simp at hk⟩

theorem weighed_buildTree (freq : Vector Count 256) : Weighed freq (buildTree freq).heap (buildTree freq).arena :=
  (mergeLoop_induction (fun h a => Merging (leavesOf freq) h a ∧ Weighed freq h a)
    (fun _ _ _ _ _ _ inv hx hy => ⟨inv.1.merge hx hy, inv.2.merge inv.1 hx hy⟩) _ _ _
    ⟨merging_leafHeap freq, weighed_leafHeap freq⟩).2

/-- A build leaves one entry, of the node of the last slot and the total weight. -/
theorem buildTree_heap (freq : Vector Count 256) :
    ∃ w : Weight, (buildTree freq).heap = [⟨(buildTree freq).root, w⟩] ∧ w.toNat = totalCount freq := by
  obtain ⟨⟨w, heap⟩, -⟩ := buildTree_spec freq
  have total := (weighed_buildTree freq).total
  rw [heap] at total
  exact ⟨w, heap, total⟩

/-- Settles O32: `buildTree_spec`, with the weight of the one entry left. -/
theorem buildLeavesOneRoot : Obligations.BuildLeavesOneRoot := by
  refine ⟨rfl, fun s => ?_⟩
  obtain ⟨w, heap, total⟩ := buildTree_heap s.freq
  obtain ⟨-, -, slots⟩ := buildTree_spec s.freq
  obtain ⟨-, -, -, root, -, -⟩ := (treeOk_rebuild s).of_treeValid rfl
  refine ⟨_, w, exec_build s, rfl, heap, total, ?_, ?_⟩
  · rw [complete_root, root, complete_nint]
    omega
  · rw [complete_nint, State.nint, rebuild_arena, slots, observed_length]

/-- Settles O33: `mergeLoop` follows R140 step 3, and `Weighed` and the shape of the tree say what each slot holds. -/
theorem buildMergesAddWeights : Obligations.BuildMergesAddWeights := by
  intro s t h
  obtain rfl := eq_of_next (exec_build s) h
  refine ⟨⟨leafHeap s.freq, ?_, mergeLoop_merges _ _ _ (by omega)⟩, fun k slot hk => ?_⟩
  · rw [← leavesOf_eq_leavesInOrder]
    exact insertsAll_foldl _ _
  · obtain ⟨left, right⟩ := (merging_buildTree s.freq).below k slot hk
    exact ⟨left, right, (weighed_buildTree s.freq).slots k slot hk⟩

/-- Settles O36: `buildTree` is a function of the table. -/
theorem buildDependsOnTheTableAlone : Obligations.BuildDependsOnTheTableAlone := by
  intro s₁ s₂ t₁ t₂ same h₁ h₂
  obtain rfl := eq_of_next (exec_build s₁) h₁
  obtain rfl := eq_of_next (exec_build s₂) h₂
  simp [same]

/-- Settles O37: with no observed byte the leaves are the two sentinels, and one merge is left to evaluate. -/
theorem emptyTableTree : Obligations.EmptyTableTree := by
  intro s zero
  have none : observed s.freq = [] := List.eq_nil_iff_forall_not_mem.mpr fun e he => by
    obtain ⟨b, -, hb⟩ := exists_byte_of_mem_observed he
    exact hb (zero b)
  have leaves : leavesOf s.freq = [⟨notSeen, 0⟩, ⟨endOfStream, 0⟩] := by rw [leavesOf, none]; rfl
  have tree : buildTree s.freq = ⟨[⟨258, 0⟩], [⟨256, 257, 0⟩], 258⟩ := by
    rw [buildTree, leafHeap, leaves]
    decide
  refine ⟨_, exec_build s, ?_⟩
  simp only [complete_arena, complete_root, complete_heap, rebuild_arena, rebuild_root, rebuild_heap, tree]
  trivial

/-! ## Every node has one parent at most (R27) -/

/-- LEFT and RIGHT of every slot, in order. -/
def childrenOf : List ArenaSlot → List NodeIx
  | [] => []
  | slot :: arena => slot.left :: slot.right :: childrenOf arena

theorem childrenOf_append (a b : List ArenaSlot) : childrenOf (a ++ b) = childrenOf a ++ childrenOf b := by
  induction a with
  | nil => rfl
  | cons slot a ih => simp [childrenOf, ih]

/-- Where a child stands among the children. -/
theorem getElem?_childrenOf {arena : List ArenaSlot} {k : Nat} {slot : ArenaSlot} (hs : arena[k]? = some slot) (b : Bool) :
    (childrenOf arena)[2 * k + b.toNat]? = some (if b then slot.right else slot.left) := by
  induction arena generalizing k with
  | nil => simp at hs
  | cons first arena ih =>
    cases k with
    | zero =>
      obtain rfl : first = slot := by simpa using hs
      cases b <;> rfl
    | succ k =>
      rw [show 2 * (k + 1) + b.toNat = 2 * k + b.toNat + 2 by omega]
      exact ih hs

theorem mem_childrenOf {arena : List ArenaSlot} {k : Nat} {slot : ArenaSlot} (hs : arena[k]? = some slot) (b : Bool) :
    (if b then slot.right else slot.left) ∈ childrenOf arena :=
  List.mem_of_getElem? (getElem?_childrenOf hs b)

theorem exists_slot_of_mem_childrenOf {arena : List ArenaSlot} {n : NodeIx} (hn : n ∈ childrenOf arena) :
    ∃ (k : Nat) (slot : ArenaSlot), arena[k]? = some slot ∧ (n = slot.left ∨ n = slot.right) := by
  induction arena with
  | nil => cases hn
  | cons first arena ih =>
    obtain rfl | rfl | hn : n = first.left ∨ n = first.right ∨ n ∈ childrenOf arena := by simpa [childrenOf] using hn
    · exact ⟨0, first, rfl, .inl rfl⟩
    · exact ⟨0, first, rfl, .inr rfl⟩
    · obtain ⟨k, slot, hs, child⟩ := ih hn
      exact ⟨k + 1, slot, hs, child⟩

/-- A slot and a side are given by the child there, where no node is a child twice. -/
theorem child_inj {arena : List ArenaSlot} (nodup : (childrenOf arena).Nodup) {k k' : Nat} {slot slot' : ArenaSlot}
    {b b' : Bool} (hs : arena[k]? = some slot) (hs' : arena[k']? = some slot')
    (same : (if b then slot.right else slot.left) = if b' then slot'.right else slot'.left) : k = k' ∧ b = b' := by
  have here := getElem?_childrenOf hs b
  have there := getElem?_childrenOf hs' b'
  have index : 2 * k + b.toNat = 2 * k' + b'.toNat :=
    (List.getElem?_inj (List.getElem?_eq_some_iff.mp here).1 nodup).mp (here.trans (same ▸ there.symm))
  have side := b.toNat_le
  have side' := b'.toNat_le
  have sides : b.toNat = b'.toNat := by omega
  refine ⟨by omega, ?_⟩
  rw [← Bool.ofNat_toNat b, sides, Bool.ofNat_toNat]

/-- The nodes in use between two merges: those of the entries and the children. -/
def nodesOf (heap : List HeapEntry) (arena : List ArenaSlot) : List NodeIx := heap.map (·.node) ++ childrenOf arena

/-- Between two merges no node is in use twice, and a leaf in use is one of those inserted. -/
structure Planted (leaves heap : List HeapEntry) (arena : List ArenaSlot) : Prop where
  nodup : (nodesOf heap arena).Nodup
  leaf : ∀ n ∈ nodesOf heap arena, n.toNat < 258 → n ∈ leaves.map (·.node)

theorem Merging.node_lt {leaves heap : List HeapEntry} {arena : List ArenaSlot} (inv : Merging leaves heap arena) {n : NodeIx}
    (hn : n ∈ nodesOf heap arena) : n.toNat < 258 + arena.length := by
  obtain hn | hn := List.mem_append.mp hn
  · obtain ⟨e, he, rfl⟩ := List.mem_map.mp hn
    exact inv.entries e he
  · obtain ⟨k, slot, hs, child⟩ := exists_slot_of_mem_childrenOf hn
    obtain ⟨left, right⟩ := inv.below k slot hs
    have live := (List.getElem?_eq_some_iff.mp hs).1
    obtain rfl | rfl := child
    · exact left.trans (by omega)
    · exact right.trans (by omega)

/-- A merge puts its own node in use and keeps the others in use. -/
theorem nodesOf_merge {h h₁ h₂ : List HeapEntry} {a : List ArenaSlot} {x y : HeapEntry} (hx : heapExtract h = some (x, h₁))
    (hy : heapExtract h₁ = some (y, h₂)) (w : Weight) :
    (nodesOf (heapInsert h₂ ⟨internalNode a.length, w⟩) (a ++ [⟨x.node, y.node, w⟩])).Perm
      (internalNode a.length :: nodesOf h a) := by
  have extracted := (heapExtract_heapExtract_perm hx hy).map (·.node)
  have inserted := (heapInsert_perm h₂ ⟨internalNode a.length, w⟩).map (·.node)
  rw [nodesOf, nodesOf, childrenOf_append]
  refine (inserted.append_right _).trans (.cons _ ?_)
  refine .trans ?_ (extracted.append_right _).symm
  change (h₂.map (·.node) ++ (childrenOf a ++ [x.node, y.node])).Perm
    ([x.node, y.node] ++ h₂.map (·.node) ++ childrenOf a)
  simpa only [List.append_assoc] using
    List.perm_append_comm (l₁ := h₂.map (·.node) ++ childrenOf a) (l₂ := [x.node, y.node])

theorem Planted.merge {leaves h h₁ h₂ : List HeapEntry} {a : List ArenaSlot} {x y : HeapEntry} (shape : Merging leaves h a)
    (inv : Planted leaves h a) (hx : heapExtract h = some (x, h₁)) (hy : heapExtract h₁ = some (y, h₂)) :
    Planted leaves (heapInsert h₂ ⟨internalNode a.length, x.wgt + y.wgt⟩) (a ++ [⟨x.node, y.node, x.wgt + y.wgt⟩]) := by
  have perm := nodesOf_merge (a := a) hx hy (x.wgt + y.wgt)
  have size := shape.size
  rw [(heapExtract_heapExtract_perm hx hy).length_eq, List.length_cons, List.length_cons] at size
  have node := toNat_internalNode (k := a.length) (by omega)
  refine ⟨perm.nodup_iff.mpr (List.nodup_cons.mpr ⟨fun mem => ?_, inv.nodup⟩), fun n hn leaf => ?_⟩
  · have := shape.node_lt mem
    omega
  · obtain rfl | hn := List.mem_cons.mp (perm.mem_iff.mp hn)
    · omega
    · exact inv.leaf n hn leaf

theorem planted_leafHeap (freq : Vector Count 256) : Planted (leavesOf freq) (leafHeap freq) [] := by
  have perm := (leafHeap_perm freq).map (·.node)
  have nodes : nodesOf (leafHeap freq) [] = (leafHeap freq).map (·.node) := List.append_nil _
  constructor
  · rw [nodes]
    exact perm.nodup_iff.mpr (nodup_leaf_nodes freq)
  · rw [nodes]
    exact fun n hn _ => perm.mem_iff.mp hn

theorem planted_buildTree (freq : Vector Count 256) :
    Planted (leavesOf freq) (buildTree freq).heap (buildTree freq).arena :=
  (mergeLoop_induction (fun h a => Merging (leavesOf freq) h a ∧ Planted (leavesOf freq) h a)
    (fun _ _ _ _ _ _ inv hx hy => ⟨inv.1.merge hx hy, inv.2.merge inv.1 hx hy⟩) _ _ _
    ⟨merging_leafHeap freq, planted_leafHeap freq⟩).2

/-- In use after a build are ROOT and the children. -/
theorem nodesOf_buildTree (freq : Vector Count 256) :
    nodesOf (buildTree freq).heap (buildTree freq).arena = (buildTree freq).root :: childrenOf (buildTree freq).arena := by
  obtain ⟨⟨w, heap⟩, -⟩ := buildTree_spec freq
  rw [nodesOf, heap]
  rfl

/-! ## The leaves of a built tree -/

theorem Reach.eq_root_or_mem_childrenOf {arena : List ArenaSlot} {root n : NodeIx} (hr : Reach arena root n) :
    n = root ∨ n ∈ childrenOf arena := by
  cases hr with
  | root => exact .inl rfl
  | left hs => exact .inr (mem_childrenOf hs false)
  | right hs => exact .inr (mem_childrenOf hs true)

/-- The leaves in the tree of a build are exactly those it inserts. -/
theorem inTree_rebuild_iff (s : State) {n : NodeIx} (leaf : n.toNat < 258) :
    InTree (rebuild s) n ↔ (n.toNat ≤ 255 ∧ countAt s.freq (n.setWidth 8) ≠ 0) ∨ n.toNat = 256 ∨ n.toNat = 257 := by
  rw [← mem_leaf_nodes_iff]
  constructor
  · rintro ⟨-, hr⟩
    refine (planted_buildTree s.freq).leaf n ?_ leaf
    rw [nodesOf_buildTree]
    exact List.mem_cons.mpr hr.eq_root_or_mem_childrenOf
  · intro hn
    obtain ⟨l, hl, rfl⟩ := List.mem_map.mp hn
    exact inTree_rebuild_of_mem_leavesOf s hl

/-- Settles O34: `inTree_rebuild_iff` is the statement. -/
theorem buildLeavesAreTheObservedSymbols : Obligations.BuildLeavesAreTheObservedSymbols := by
  intro s t h n leaf
  obtain rfl := eq_of_next (exec_build s) h
  exact inTree_rebuild_iff s (by omega)

/-! ## Paths are unique (R27) -/

/-- The last bit of a path. -/
theorem follow_concat {arena : List ArenaSlot} {root n : NodeIx} {p : BitString} {b : Bool}
    (h : follow arena root (p ++ [b]) = some n) : ∃ m, follow arena root p = some m ∧ 258 ≤ m.toNat ∧
      ∃ slot, arena[slotOf m]? = some slot ∧ (if b then slot.right else slot.left) = n := by
  rw [follow_append, Option.bind_eq_some_iff] at h
  obtain ⟨m, hp, hb⟩ := h
  obtain ⟨internal, slot, hs, child⟩ := follow_cons hb
  exact ⟨m, hp, internal, slot, hs, Option.some.inj child⟩

/-- Where no node is a child twice and the root is none, two paths to a node are one: their last bits come from one slot. -/
theorem follow_unique {arena : List ArenaSlot} {root : NodeIx} (nodup : (root :: childrenOf arena).Nodup)
    {p q : BitString} {n : NodeIx} (hp : follow arena root p = some n) (hq : follow arena root q = some n) : p = q := by
  obtain ⟨rootNoChild, children⟩ := List.nodup_cons.mp nodup
  induction p using List.reverseRecOn generalizing q n with
  | nil =>
    obtain rfl := Option.some.inj hp
    rcases List.eq_nil_or_concat q with rfl | ⟨q, c, rfl⟩
    · rfl
    · rw [List.concat_eq_append] at hq
      obtain ⟨m, -, -, slot, hs, child⟩ := follow_concat hq
      exact absurd (child ▸ mem_childrenOf hs c) rootNoChild
  | append_singleton p b ih =>
    obtain ⟨m, hm, internal, slot, hs, child⟩ := follow_concat hp
    rcases List.eq_nil_or_concat q with rfl | ⟨q, c, rfl⟩
    · obtain rfl := Option.some.inj hq
      exact absurd (child ▸ mem_childrenOf hs b) rootNoChild
    · rw [List.concat_eq_append] at hq ⊢
      obtain ⟨m', hm', internal', slot', hs', child'⟩ := follow_concat hq
      obtain ⟨slots, rfl⟩ := child_inj children hs hs' (child.trans child'.symm)
      obtain rfl : m = m' := by rw [← internalNode_slotOf internal, slots, internalNode_slotOf internal']
      rw [ih hm hm']

/-- Settles O35: `reach_iff_follow` both ways, and `follow_unique` on the nodes `Planted` keeps apart. -/
theorem buildPathsAreUnique : Obligations.BuildPathsAreUnique := by
  intro s t n h
  obtain rfl := eq_of_next (exec_build s) h
  obtain ⟨-, size, -⟩ := (treeOk_rebuild s).of_treeValid rfl
  have paths := reach_iff_follow size (rebuild s).root n
  have nodup := (planted_buildTree s.freq).nodup
  rw [nodesOf_buildTree] at nodup
  exact ⟨fun hin => paths.mp hin.2, fun p hp => ⟨rfl, paths.mpr ⟨p, hp⟩⟩, fun p q => follow_unique nodup⟩

/-! ## First and later occurrences (R195) -/

/-- Settles O48: the byte is in the tree ENC_STEP builds exactly if its count is not 0, and the codeword it holds and sends is
the one `lookup_spec` describes. -/
theorem firstOccurrenceSendsALiteral : Obligations.FirstOccurrenceSendsALiteral := by
  intro o s t byte mode room h
  have legal : symLegal o = true := (symLegal_iff o).mpr (.inl byte)
  obtain ⟨p, found, hl, inTree, path, len⟩ := lookup_spec (treeOk_rebuild s) rfl (isLeaf_of_symLegal legal)
  obtain ⟨-, size, -⟩ := (treeOk_rebuild s).of_treeValid rfl
  obtain rfl := eq_of_next (exec_encStep_byte byte mode room hl) h
  have held := heldCodeword_putCodeword found (rebuild s) (len.trans size)
  have observed : found = true ↔ countAt s.freq (o.setWidth 8) ≠ 0 := by
    rw [inTree, inTree_rebuild_iff s (by omega)]
    exact ⟨fun h => (h.resolve_right (by omega)).2, fun h => .inl ⟨byte, h⟩⟩
  refine ⟨?_, ?_, fun out => ⟨p, ?_, held.symm⟩, fun hin => ?_⟩
  · change found = false ↔ _
    rw [← Bool.not_eq_true, observed, not_not]
  · exact (congrArg (follow (rebuild s).arena (rebuild s).root) held).trans path
  · obtain rfl : found = false := out
    exact (List.append_assoc _ _ _).symm
  · obtain rfl : found = true := hin
    exact congrArg (s.bitSink ++ ·) held.symm

end Sys2Proof.Machine
end

section
/-! PROOFS. The invariants of R43 and the widths of R147: reset meets them and every step keeps them. -/

namespace Sys2Proof.Machine

/-! ## The shape of the tree (R43 (c), (d)) -/

/-- TreeOk reads the arena, ROOT and TREE_VALID alone. -/
theorem TreeOk.congr {s t : State} (ok : TreeOk s) (arena : t.arena = s.arena) (root : t.root = s.root)
    (valid : t.treeValid = s.treeValid) : TreeOk t := by
  simpa only [TreeOk, InTree, State.nint, arena, root, valid] using ok

theorem Effect.keeps_treeOk {i : Instr} {s u : State} (ok : TreeOk s) (h : Effect i s u) : TreeOk u := by
  cases h with
  | sessInit => exact ⟨rfl, rfl⟩
  | build => exact treeOk_rebuild s
  | encStepEnd => exact (treeOk_rebuild s).congr rfl rfl rfl
  | encStepByte => exact (treeOk_rebuild s).congr rfl rfl rfl
  | decStepByte => exact (treeOk_rebuild s).congr rfl rfl rfl
  | decStepOverflow => exact (treeOk_rebuild s).congr rfl rfl rfl
  | decStepEnd => exact (treeOk_rebuild s).congr rfl rfl rfl
  | _ => exact ok.congr rfl rfl rfl

/-- Settles O57: a command leaves the tree, builds one or clears it. -/
theorem stepKeepsTreeShape : Obligations.StepKeepsTreeShape := fun _ _ =>
  step_keeps (fun _ _ _ _ _ _ ok => ok.congr rfl rfl rfl) (fun _ _ _ ok => ok.congr rfl rfl rfl)
    (fun _ _ => ⟨rfl, rfl⟩) (fun _ _ _ => Effect.keeps_treeOk)

/-! ## Sizes (R43 (a)) -/

theorem sizesOk_rebuild (s : State) : SizesOk (rebuild s) := by
  obtain ⟨-, size, -⟩ := (treeOk_rebuild s).of_treeValid rfl
  obtain ⟨⟨w, heap⟩, -⟩ := buildTree_spec s.freq
  refine ⟨?_, size⟩
  rw [State.hsize, rebuild_heap, heap]
  exact (by decide : 1 ≤ 258)

theorem Effect.keeps_sizesOk {i : Instr} {s u : State} (sizes : SizesOk s) (h : Effect i s u) : SizesOk u := by
  obtain ⟨hsize, nint⟩ := sizes
  cases h with
  | sessInit => exact ⟨Nat.zero_le _, Nat.zero_le _⟩
  | heapClear => exact ⟨Nat.zero_le _, nint⟩
  | heapInsert _ room =>
    exact ⟨(heapInsert_length _ _).trans_le (Nat.lt_of_le_of_ne hsize room), nint⟩
  | heapExtract he =>
    have shorter := (heapExtract_length he).symm.trans_le hsize
    exact ⟨Nat.le_of_succ_le shorter, nint⟩
  | build => exact sizesOk_rebuild s
  | encStepEnd => exact sizesOk_rebuild s
  | encStepByte => exact sizesOk_rebuild s
  | decStepByte => exact sizesOk_rebuild s
  | decStepOverflow => exact sizesOk_rebuild s
  | decStepEnd => exact sizesOk_rebuild s
  | _ => exact ⟨hsize, nint⟩

/-! ## Widths (R147) -/

theorem weightBound_eq (w : Config.CntW) : 2 ^ (w.val + 8) = 256 * 2 ^ w.val := by
  rw [Nat.pow_add, Nat.mul_comm]

theorem count_lt_weightBound {w : Config.CntW} {n : Nat} (h : n < 2 ^ w.val) : n < 2 ^ (w.val + 8) :=
  h.trans_le (Nat.pow_le_pow_right (by decide) (Nat.le_add_right _ _))

theorem WidthsOk.totalCount_lt {s : State} (widths : WidthsOk s) : totalCount s.freq < 2 ^ (s.cntW.val + 8) := by
  obtain ⟨counts, -⟩ := widths
  rw [weightBound_eq]
  exact Machine.totalCount_lt counts

/-- The weight of every node fits WGT_W bits. -/
theorem WidthsOk.weightOf_lt {s : State} (widths : WidthsOk s) (n : NodeIx) :
    (weightOf s.freq s.arena n).toNat < 2 ^ (s.cntW.val + 8) := by
  obtain ⟨counts, -, -, slots, -⟩ := widths
  rcases Nat.lt_or_ge 255 n.toNat with high | byte
  · rcases Nat.lt_or_ge 257 n.toNat with internal | sentinel
    · rw [weightOf, if_neg (by omega), if_neg (by omega)]
      split
      · rename_i slot hs
        exact slots slot (List.mem_of_getElem? hs)
      · exact Nat.two_pow_pos _
    · rw [weightOf_sentinel _ _ high sentinel]
      exact Nat.two_pow_pos _
  · rw [weightOf_byte _ _ byte, BitVec.toNat_setWidth_of_le (by decide)]
    exact count_lt_weightBound (counts _)

theorem WidthsOk.recordByte {s : State} (widths : WidthsOk s) {b : Byte}
    (room : (countAt s.freq b).toNat ≠ 2 ^ s.cntW.val - 1) : WidthsOk (Machine.recordByte b s) := by
  obtain ⟨counts, rest⟩ := widths
  refine ⟨fun c => ?_, rest⟩
  rw [recordByte_freq, recordByte_cntW, toNat_countAt_recordByte (counts b) room c]
  split
  case isTrue same => exact same ▸ (toNat_count_add_one (counts b) room).2
  case isFalse => exact counts c

/-- A build's weights are at most the table's total. -/
theorem WidthsOk.rebuild {s : State} (widths : WidthsOk s) : WidthsOk (Machine.rebuild s) := by
  have total := widths.totalCount_lt
  obtain ⟨counts, rCount, -, -, rWeight⟩ := widths
  obtain ⟨w, heap, hw⟩ := buildTree_heap s.freq
  refine ⟨counts, rCount, fun e he => ?_, fun slot hs => ?_, rWeight⟩
  · rw [rebuild_heap, heap, List.mem_singleton] at he
    subst he
    exact hw.trans_lt total
  · exact ((weighed_buildTree s.freq).bound slot hs).trans_lt total

theorem count_of_find?_observed {freq : Vector Count 256} {p : Count × Nat → Bool} {e : Count × Nat}
    (h : (observed freq).find? p = some e) : ∃ b, e.1 = countAt freq b := by
  obtain ⟨b, rfl, -⟩ := exists_byte_of_mem_observed (List.mem_of_find?_eq_some h)
  exact ⟨b, rfl⟩

theorem toNat_countAt_zeroTable (w : Config.CntW) (b : Byte) : (countAt zeroTable b).toNat < 2 ^ w.val := by
  rw [countAt_zeroTable]
  exact Nat.two_pow_pos _

theorem Effect.keeps_widthsOk {i : Instr} {s u : State} (widths : WidthsOk s) (h : Effect i s u) : WidthsOk u := by
  have built := widths.rebuild
  have weight := widths.weightOf_lt
  obtain ⟨counts, rCount, entries, slots, rWeight⟩ := id widths
  cases h with
  | sessInit => exact ⟨toNat_countAt_zeroTable _, rCount, nofun, nofun, rWeight⟩
  | ftReset => exact ⟨toNat_countAt_zeroTable _, rCount, entries, slots, rWeight⟩
  | ftRecord _ room => exact widths.recordByte room
  | ftQuery => exact ⟨counts, counts _, entries, slots, rWeight⟩
  | ftNextFound _ found =>
    obtain ⟨b, rfl⟩ := count_of_find?_observed found
    exact ⟨counts, counts b, entries, slots, rWeight⟩
  | ftNextNone => exact ⟨counts, Nat.two_pow_pos _, entries, slots, rWeight⟩
  | heapClear => exact ⟨counts, rCount, nofun, slots, rWeight⟩
  | @heapInsert o =>
    refine ⟨counts, rCount, fun e he => ?_, slots, rWeight⟩
    obtain rfl | old := List.mem_cons.mp ((heapInsert_perm _ _).mem_iff.mp he)
    · exact weight o
    · exact entries e old
  | heapExtract he =>
    obtain ⟨rest, split, perm⟩ := heapExtract_some he
    rw [split] at entries
    exact ⟨counts, rCount, fun e mem => entries e (List.mem_cons_of_mem _ (perm.mem_iff.mp mem)), slots,
      entries _ List.mem_cons_self⟩
  | build => exact built
  | encStepEnd => exact built
  | encStepByte _ _ room => exact WidthsOk.recordByte (s := emitBits _ (putCodeword _ _ (rebuild s))) built room
  | @decStepByte _ st v rest _ _ _ room =>
    exact WidthsOk.recordByte
      (s := emitByte (v.setWidth 8) { rebuild s with dstat := st, rSym := v, bitSource := rest }) built room
  | decStepOverflow => exact built
  | decStepEnd => exact built
  | _ => exact widths

theorem widthsOk_hardReset (s : State) : WidthsOk (hardReset s) :=
  ⟨toNat_countAt_zeroTable _, Nat.two_pow_pos _, nofun, nofun, Nat.two_pow_pos _⟩

/-- Settles O55: each command keeps both, a build because its weights are at most the table's total. -/
theorem stepKeepsSizesAndWidths : Obligations.StepKeepsSizesAndWidths := fun _ _ sizes widths =>
  step_keeps (P := fun s => SizesOk s ∧ WidthsOk s) (fun _ _ _ _ _ _ ok => ok) (fun _ _ _ ok => ok)
    (fun s _ => ⟨⟨Nat.zero_le _, Nat.zero_le _⟩, widthsOk_hardReset s⟩)
    (fun _ _ _ ok effect => ⟨effect.keeps_sizesOk ok.1, effect.keeps_widthsOk ok.2⟩) ⟨sizes, widths⟩

/-! ## The codeword register (R33, R161) -/

theorem lookup_length {s : State} {sym : NodeIx} {p : BitString} {found : Bool} (hl : lookup s sym = some (p, found)) :
    p.length ≤ s.nint := by
  rw [lookup] at hl
  split at hl
  case h_1 q hq =>
    cases hl
    exact (codeword_spec hq).2
  case h_2 =>
    obtain ⟨q, hq, eq⟩ := Option.map_eq_some_iff.mp hl
    cases eq
    exact (codeword_spec hq).2

theorem codewordOk_putCodeword {p : BitString} (found : Bool) (s : State) (len : p.length ≤ 257) :
    CodewordOk (putCodeword p found s) := by
  have cwLen : (putCodeword p found s).cwLen.toNat = p.length := Nat.mod_eq_of_lt (by omega)
  rw [CodewordOk, cwLen]
  refine ⟨len, fun i hi => ?_⟩
  rcases Nat.lt_or_ge i 258 with stored | beyond
  · rw [putCodeword_bit p found s i stored, List.getD_eq_default _ _ hi]
  · exact BitVec.getLsbD_of_ge _ _ beyond

theorem Effect.keeps_codewordOk {i : Instr} {s u : State} (sizes : SizesOk s) (ok : CodewordOk s) (h : Effect i s u) :
    CodewordOk u := by
  cases h with
  | @encode _ _ _ found _ _ hl => exact codewordOk_putCodeword found s ((lookup_length hl).trans sizes.2)
  | @encStepEnd _ _ found _ hl =>
    exact codewordOk_putCodeword found (rebuild s) ((lookup_length hl).trans (sizesOk_rebuild s).2)
  | @encStepByte _ _ _ found _ _ _ hl =>
    exact codewordOk_putCodeword found (rebuild s) ((lookup_length hl).trans (sizesOk_rebuild s).2)
  | _ => exact ok

theorem codewordOk_hardReset (s : State) : CodewordOk (hardReset s) :=
  ⟨Nat.zero_le _, fun _ _ => BitVec.getLsbD_zero⟩

/-- Settles O58: only a codeword of at most NINT bits is put into the register. -/
theorem stepKeepsCodewordRegister : Obligations.StepKeepsCodewordRegister := fun _ _ sizes ok h =>
  (step_keeps (P := fun s => SizesOk s ∧ CodewordOk s) (fun _ _ _ _ _ _ ok => ok) (fun _ _ _ ok => ok)
    (fun s _ => ⟨⟨Nat.zero_le _, Nat.zero_le _⟩, codewordOk_hardReset s⟩)
    (fun _ _ _ ok effect => ⟨effect.keeps_sizesOk ok.1, effect.keeps_codewordOk ok.1 ok.2⟩) ⟨sizes, ok⟩ h).2

/-! ## FCODE (R201) -/

theorem FaultOk.recordFault {s : State} (ok : FaultOk s) {c : FaultCode} (code : c ≠ .none) :
    FaultOk (Machine.recordFault c s) := by
  rw [FaultOk, recordFault_fault, recordFault_fcode]
  refine iff_of_true rfl ?_
  split
  case isTrue faulted => exact ok.mp faulted
  case isFalse => exact code

theorem Effect.keeps_faultOk {i : Instr} {s u : State} (ok : FaultOk s) (h : Effect i s u) : FaultOk u := by
  obtain ⟨fault, fcode⟩ | ⟨-, -, fault, fcode⟩ := h.fault_eq
  · rwa [FaultOk, fault, fcode]
  · have recorded := ok.recordFault (c := .cntOverflow) nofun
    rwa [FaultOk, fault, fcode]

theorem faultOk_hardReset (s : State) : FaultOk (hardReset s) := iff_of_false Bool.false_ne_true fun code => code rfl

/-- Settles O59: every fault is recorded by `recordFault`, and the reset clears both registers. -/
theorem stepKeepsFaultCode : Obligations.StepKeepsFaultCode := fun _ _ =>
  step_keeps (fun _ _ _ _ _ _ ok => ok) (fun _ _ code ok => ok.recordFault code)
    (fun s _ => faultOk_hardReset s) (fun _ _ _ => Effect.keeps_faultOk)

/-! ## Reset -/

/-- Settles O54: `State.reset` is what the reset leaves of itself. -/
theorem resetMeetsTheInvariants : Obligations.ResetMeetsTheInvariants :=
  ⟨⟨Nat.zero_le _, Nat.zero_le _⟩, heapOrdered_nil, ⟨rfl, rfl⟩, widthsOk_hardReset State.reset,
    codewordOk_hardReset State.reset, faultOk_hardReset State.reset⟩

end Sys2Proof.Machine
end

section
/-! PROOFS. The handshake and the host's reads: the turn that runs the accepted word, the idle block, a delivered token, the
result registers, and reads while BUSY = 1 (spec/60_exceptions.md R204; spec/10_state.md R40; spec/20_memory.md R70, R76). -/

namespace Sys2Proof.Machine

theorem blockStep_command {s : State} {w : Word} {i : Instr} (hp : s.pending = some w) (hd : decode w = .command i) :
    blockStep s = exec i s := by
  rw [blockStep_pending s w hp, executeWord_command s w i hd]

/-- Settles O4: both forms of the turn execute the accepted word. -/
theorem stepRunsDecodedCommand : Obligations.StepRunsDecodedCommand := fun s _ _ hp hd =>
  ⟨fun idle => (step_idle s idle).trans (blockStep_command hp hd), fun rest turn =>
    (step_event s _ rest turn).trans (blockStep_command (s := { s with schedule := rest }) hp hd)⟩

theorem acceptCommand_accepted {s : State} (w : Word) (idle : s.busy = false) (clear : s.fault = false) :
    acceptCommand w s = { s with pending := some w } := by
  rw [acceptCommand, clear, idle]
  rfl

theorem pending_eq_none {s : State} (idle : s.busy = false) : s.pending = none := by
  refine Option.not_isSome_iff_eq_none.mp ?_
  rw [← busy_eq_pending, idle]
  exact Bool.false_ne_true

/-- Settles O5: an idle turn keeps the state, and the write is accepted. -/
theorem idleBlockKeepsStateAndAccepts : Obligations.IdleBlockKeepsStateAndAccepts :=
  ⟨fun s idle none => (step_idle s none).trans (blockStep_idle s (pending_eq_none idle)), fun s w idle clear =>
    ⟨_, perform_cmdWrite s w, acceptCommand_accepted w idle clear, by rw [acceptCommand_accepted w idle clear]; rfl⟩⟩

/-- Settles O20: the step performs the delivery. -/
theorem deliveredTokensQueueInOrder : Obligations.DeliveredTokensQueueInOrder := fun s _ rest hs =>
  step_event s _ rest hs

/-- Settles O13: the register map at each offset. -/
theorem registerMapReads : Obligations.RegisterMapReads := fun _ idle =>
  ⟨memReads_of_locate (loc := .rSym) idle (by decide) rfl nofun,
    memReads_of_locate (loc := .rNode) idle (by decide) rfl nofun,
    memReads_of_locate (loc := .rCountLo) idle (by decide) rfl nofun,
    memReads_of_locate (loc := .rCountHi) idle (by decide) rfl nofun,
    memReads_of_locate (loc := .rWeightLo) idle (by decide) rfl nofun,
    memReads_of_locate (loc := .rWeightHi) idle (by decide) rfl nofun,
    memReads_of_locate (loc := .root) idle (by decide) rfl nofun,
    memReads_of_locate (loc := .nint) idle (by decide) rfl nofun,
    memReads_of_locate (loc := .hsize) idle (by decide) rfl nofun,
    memReads_of_locate (loc := .cwLen) idle (by decide) rfl nofun,
    memReads_of_locate (loc := .id) idle (by decide) rfl nofun,
    memReads_of_locate (loc := .param) idle (by decide) rfl nofun⟩

theorem locate_register_eq_status_iff : ∀ n < 0x0040, (locate (BitVec.ofNat 16 n) = some .status ↔ n = 4) := by decide

/-- STATUS is at offset 4 and nowhere else (R40). -/
theorem locate_ne_status {a : Addr} (hm : MappedOffset a.toNat) (h4 : a ≠ 4) : locate a ≠ some .status := by
  obtain ⟨-, reg | ⟨lo, hi⟩ | ⟨lo, hi⟩ | ⟨lo, hi⟩ | ⟨lo, hi⟩⟩ := hm
  · have status := locate_register_eq_status_iff a.toNat (by omega)
    rw [BitVec.ofNat_toNat, BitVec.setWidth_eq] at status
    exact fun hl => h4 (BitVec.eq_of_toNat_eq (status.mp hl))
  · rw [locate_codeword lo hi]; nofun
  · rw [locate_freqWindow lo hi]; nofun
  · rw [locate_nodeWindow lo hi]; nofun
  · rw [locate_heapWindow lo hi]; nofun

/-- Settles O18: the read reaches a location that is neither CMD nor STATUS, which draws while BUSY = 1. -/
theorem busyReadIsADraw : Obligations.BusyReadIsADraw := by
  intro s a busy hm h0 h4
  obtain ⟨loc, hl⟩ := Option.isSome_iff_exists.mp ((locate_isSome_iff hm.1).mpr hm)
  have notCmd : loc ≠ .cmd := fun eq => h0 ((locate_eq_cmd_iff hm.1).mp (eq ▸ hl))
  have notStatus : loc ≠ .status := fun eq => locate_ne_status hm h4 (eq ▸ hl)
  have hr : resolve false 4 a = .ok loc := by simp [resolve, hm.1, hl, notCmd]
  have draws : drawsValue s loc = true := by simp [drawsValue, busy, notStatus]
  simp [perform, busRead, hr, readValue, draws]

end Sys2Proof.Machine
end

section
/-! PROOFS. Encoder and decoder agree (spec/44_session.md R195): with one table and one CNT_W, each DEC_STEP undoes an
ENC_STEP, and the two tables stay equal. -/

namespace Sys2Proof

theorem toNat_leafOfByte (b : Byte) : (leafOfByte b).toNat = b.toNat := BitVec.toNat_setWidth_of_le (by decide)

theorem leafOfByte_le (b : Byte) : (leafOfByte b).toNat ≤ 255 := by
  rw [toNat_leafOfByte]
  exact Nat.le_of_lt_succ b.isLt

theorem byteOf_leafOfByte (b : Byte) : byteOf (leafOfByte b) = b := by
  apply BitVec.eq_of_toNat_eq
  rw [byteOf, BitVec.toNat_setWidth, toNat_leafOfByte, Nat.mod_eq_of_lt b.isLt]

/-- The symbol a byte is decoded to holds the byte. -/
theorem symbol_leafOfByte (b : Byte) : ((leafOfByte b).setWidth 9).setWidth 8 = b := by
  apply BitVec.eq_of_toNat_eq
  have := b.isLt
  rw [BitVec.toNat_setWidth, BitVec.toNat_setWidth, toNat_leafOfByte]
  omega

end Sys2Proof

namespace Sys2Proof.Machine

/-! ## Runs of commands -/

theorem runCommands_cons {i : Instr} {s t : State} (h : exec i s = .next t) (rest : List Instr) :
    runCommands (i :: rest) s = runCommands rest t := by
  rw [runCommands, h]

theorem runCommands_cons_some {i : Instr} {rest : List Instr} {s u : State} (h : runCommands (i :: rest) s = some u) :
    ∃ t, exec i s = .next t ∧ runCommands rest t = some u := by
  rw [runCommands] at h
  split at h
  · exact ⟨_, ‹_›, h⟩
  · cases h

/-- A run that ends without a fault has met none. -/
theorem runCommands_fault {l : List Instr} {s t : State} (h : runCommands l s = some t) (clear : t.fault = false) :
    s.fault = false := by
  induction l generalizing s with
  | nil => exact Option.some.inj h ▸ clear
  | cons i l ih =>
    obtain ⟨u, hu, hl⟩ := runCommands_cons_some h
    refine Bool.eq_false_iff.mpr fun faulted => ?_
    exact absurd ((ih hl).symm.trans (exec_keeps_fault faulted hu).1) nofun

/-! ## One step of each -/

/-- An encoder and a decoder between two steps of one stream: the same table, the same CNT_W, no fault. -/
structure InStep (e d : State) : Prop where
  encoding : e.session = .encoding
  decoding : d.session = .decoding
  freq : d.freq = e.freq
  cntW : d.cntW = e.cntW
  clear : d.fault = false

/-- An ENC_STEP that raises no fault sends the codeword `lookup_spec` describes. -/
theorem exec_encStep_sends {o : Opnd} {e e' : State} (legal : symLegal o = true) (mode : e.session = .encoding)
    (h : exec (.encStep o) e = .next e') (clear : e'.fault = false) :
    ∃ p found, ¬ (o ≠ endOfStream ∧ countFull e (byteOf o) = true) ∧
      e' = complete (afterEncode o (emitBits (emission o p found) (putCodeword p found (rebuild e)))) ∧
      (found = true ↔ InTree (rebuild e) o) ∧
      ∀ rest, WalkEnds (rebuild e).arena (rebuild e).root (tokensOf (emission o p found) ++ rest)
        (if found then (if o = 257 then .eos else .leaf) else .literal) (o.setWidth 9) rest := by
  obtain ⟨range, -⟩ | ⟨-, other, -⟩ | ⟨-, -, -, -, rfl⟩ | ⟨p, found, -, -, room, hl, rfl⟩ := exec_encStep_cases h
  · exact absurd (range.symm.trans legal) nofun
  · exact absurd mode other
  · exact absurd clear nofun
  · obtain ⟨p', found', hl', inTree, path, -⟩ := lookup_spec (treeOk_rebuild e) rfl (isLeaf_of_symLegal legal)
    cases hl.symm.trans hl'
    have legal := (symLegal_iff o).mp legal
    have byte : found = false → o.toNat ≤ 255 := fun out =>
      (treeOk_rebuild e).byte_of_not_inTree rfl legal fun hin => absurd (out.symm.trans (inTree.mpr hin)) nofun
    exact ⟨p, found, room, rfl, inTree, walkEnds_emission legal byte path⟩

/-- The decoder walks the encoder's tree: a build reads the table alone. -/
theorem InStep.decodeWalk_eq {e d : State} (step : InStep e d) {tokens rest : List Token} {st : DStat} {v : Sym}
    (walk : WalkEnds (rebuild e).arena (rebuild e).root tokens st v rest) (source : d.bitSource = tokens) :
    decodeWalk (rebuild d).arena (rebuild d).root d.bitSource = .done st v rest := by
  rw [source, rebuild_arena, rebuild_root, step.freq]
  exact walk.decodeWalk_eq

/-- DEC_STEP undoes the ENC_STEP of a byte: it takes exactly the bits sent, outputs the byte, and both record it. -/
theorem encStep_decStep_byte {b : Byte} {e e' : State} (mode : e.session = .encoding)
    (h : exec (.encStep (leafOfByte b)) e = .next e') (clear : e'.fault = false) :
    ∃ bits, e'.bitSink = e.bitSink ++ bits ∧ e'.session = .encoding ∧
      ∀ d rest, InStep e d → d.bitSource = tokensOf bits ++ rest →
        ∃ d', exec .decStep d = .next d' ∧ InStep e' d' ∧ d'.bitSource = rest ∧ d'.byteSink = d.byteSink ++ [b] := by
  have ne : leafOfByte b ≠ endOfStream := ne_endOfStream_of_byte (leafOfByte_le b)
  obtain ⟨p, found, room, rfl, -, walk⟩ :=
    exec_encStep_sends ((symLegal_iff _).mpr (.inl (leafOfByte_le b))) mode h clear
  rw [byteOf_leafOfByte] at room
  rw [afterEncode_byte _ ne, byteOf_leafOfByte]
  refine ⟨_, rfl, mode, fun d rest step source => ?_⟩
  have notFull : (countAt d.freq b).toNat ≠ 2 ^ d.cntW.val - 1 := fun full =>
    room ⟨ne, (countFull_iff e b).mpr (by rw [← step.freq, ← step.cntW, full])⟩
  have status : (if found then (if leafOfByte b = 257 then DStat.eos else .leaf) else .literal) = .leaf ∨
      (if found then (if leafOfByte b = 257 then DStat.eos else .leaf) else .literal) = .literal := by
    cases found
    · exact .inr rfl
    · exact .inl (if_neg ne)
  have done := exec_decStep_byte step.decoding (step.decodeWalk_eq (walk rest) source) status
    (by rw [symbol_leafOfByte]; exact notFull)
  rw [symbol_leafOfByte] at done
  refine ⟨_, done, ⟨mode, step.decoding, ?_, step.cntW, step.clear⟩, rfl, rfl⟩
  simp [step.freq]

/-- What the decoder's last step leaves. -/
def StreamEnded (d d' : State) (bytes : List Byte) (rest : List Token) : Prop :=
  d'.byteSink = d.byteSink ++ bytes ∧ d'.dstat = .eos ∧ d'.rSym = 257 ∧ d'.session = .done ∧ d'.bitSource = rest ∧
  d'.fault = false

/-- DEC_STEP undoes the ENC_STEP of END_OF_STREAM: it takes exactly the bits sent and ends the session. -/
theorem encStep_decStep_end {e e' : State} (mode : e.session = .encoding) (h : exec (.encStep 257) e = .next e')
    (clear : e'.fault = false) :
    ∃ bits, e'.bitSink = e.bitSink ++ bits ∧ ∀ d rest, InStep e d → d.bitSource = tokensOf bits ++ rest →
      ∃ d', exec .decStep d = .next d' ∧ StreamEnded d d' [] rest := by
  obtain ⟨p, found, -, rfl, inTree, walk⟩ := exec_encStep_sends (by decide) mode h clear
  obtain ⟨-, -, -, -, -, eosIn⟩ := (treeOk_rebuild e).of_treeValid rfl
  obtain rfl : found = true := inTree.mpr eosIn
  refine ⟨_, rfl, fun d rest step source => ?_⟩
  have done := exec_decStep_end step.decoding (step.decodeWalk_eq (walk rest) source) (by decide)
  exact ⟨_, done, (List.append_nil _).symm, rfl, rfl, rfl, rfl, step.clear⟩

/-! ## The stream -/

/-- From one table on, the decoder's steps over what the encoder sends for a byte string output that byte string. -/
theorem decoder_follows_encoder {bytes : List Byte} {e e' : State} (mode : e.session = .encoding)
    (h : runCommands ((bytes.map fun b => Instr.encStep (leafOfByte b)) ++ [.encStep 257]) e = some e')
    (clear : e'.fault = false) :
    ∃ bits, e'.bitSink = e.bitSink ++ bits ∧ ∀ d rest, InStep e d → d.bitSource = tokensOf bits ++ rest →
      ∃ d', runCommands (List.replicate (bytes.length + 1) .decStep) d = some d' ∧ StreamEnded d d' bytes rest := by
  induction bytes generalizing e with
  | nil =>
    obtain ⟨t, he, ht⟩ := runCommands_cons_some h
    obtain rfl := Option.some.inj ht
    obtain ⟨bits, sink, follows⟩ := encStep_decStep_end mode he clear
    refine ⟨bits, sink, fun d rest step source => ?_⟩
    obtain ⟨d', hd, ended⟩ := follows d rest step source
    exact ⟨d', runCommands_cons hd [], ended⟩
  | cons b bytes ih =>
    obtain ⟨t, he, ht⟩ := runCommands_cons_some h
    obtain ⟨bits, sink, mode', follows⟩ := encStep_decStep_byte mode he (runCommands_fault ht clear)
    obtain ⟨bits', sink', follows'⟩ := ih mode' ht
    refine ⟨bits ++ bits', by rw [sink', sink, List.append_assoc], fun d rest step source => ?_⟩
    rw [tokensOf_append, List.append_assoc] at source
    obtain ⟨d₁, hd₁, step', source', out⟩ := follows d _ step source
    obtain ⟨d', hd', out', ended⟩ := follows' d₁ rest step' source'
    refine ⟨d', ?_, ?_, ended⟩
    · rw [List.length_cons, List.replicate_succ, runCommands_cons hd₁, hd']
    · rw [out', out, List.append_assoc]
      rfl

/-- Settles O52: SESS_INIT gives both sides the zero table, and from there `decoder_follows_encoder`. -/
theorem decoderReproducesTheEncodersBytes : Obligations.DecoderReproducesTheEncodersBytes := by
  intro bytes e e' d rest h clear cntW dClear source
  have eInit := exec_sessInit_legal (o := 0) e (by decide)
  obtain ⟨d₀, dInit, decoding, zero, dCntW, dFault, dSource, dSink⟩ : ∃ d₀, exec (.sessInit 1) d = .next d₀ ∧
      d₀.session = .decoding ∧ d₀.freq = zeroTable ∧ d₀.cntW = d.cntW ∧ d₀.fault = d.fault ∧
      d₀.bitSource = d.bitSource ∧ d₀.byteSink = d.byteSink :=
    ⟨_, exec_sessInit_legal d (by decide), rfl, rfl, rfl, rfl, rfl, rfl⟩
  rw [encoderSession, List.cons_append, runCommands_cons eInit] at h
  obtain ⟨bits, sink, follows⟩ := decoder_follows_encoder rfl h clear
  have sent : e'.bitSink.drop e.bitSink.length = bits := by
    rw [sink]
    exact List.drop_left
  rw [sent] at source
  obtain ⟨d', hd, out, ended⟩ := follows d₀ rest
    ⟨rfl, decoding, zero, dCntW.trans cntW, dFault.trans dClear⟩ (dSource.trans source)
  exact ⟨d', (runCommands_cons dInit _).trans hd, dSink ▸ out, ended⟩

end Sys2Proof.Machine
end

section
/-! PROOFS. Runs from reset and their ends (spec/70_reset_and_hazards.md R242): a run has one end at most, a run that has run
out after a finished session has one, and a later command leaves it. -/

namespace Sys2Proof.Machine

/-! ## Runs step by step -/

theorem afterSteps_concat {n : Nat} {s u t : State} (hu : afterSteps n s = some u) (h : step u = .next t) :
    afterSteps (n + 1) s = some t := by
  rw [afterSteps_add, hu, Option.bind_some, afterSteps_succ 0 h, afterSteps_zero]

/-- A run goes on by a step that is not a reset. -/
theorem RunFromReset.next {s₀ u t : State} {n : Nat} (run : RunFromReset s₀ n u)
    (noReset : u.schedule.head? ≠ some .reset) (h : step u = .next t) : RunFromReset s₀ (n + 1) t := by
  obtain ⟨start, hu, before⟩ := run
  refine ⟨start, afterSteps_concat hu h, fun k v hk hv => ?_⟩
  obtain hk | rfl := Nat.lt_succ_iff_lt_or_eq.mp hk
  · exact before k v hk hv
  · cases hu.symm.trans hv
    exact noReset

/-- What holds at the start of a run and is kept by each of its steps holds at its end. -/
theorem RunFromReset.induct {s₀ : State} {P : Nat → State → Prop} (start : P 0 s₀)
    (next : ∀ n u t, afterSteps n s₀ = some u → u.schedule.head? ≠ some .reset → step u = .next t → P n u → P (n + 1) t)
    {n : Nat} {t : State} (run : RunFromReset s₀ n t) : P n t := by
  obtain ⟨-, ht, before⟩ := run
  induction n generalizing t with
  | zero =>
    cases ht
    exact start
  | succ n ih =>
    obtain ⟨u, hu, h⟩ := afterSteps_last ht
    exact next n u t hu (before n u (Nat.lt_succ_self n) hu) h
      (ih hu fun k v hk hv => before k v (Nat.lt_succ_of_lt hk) hv)

/-- A step that is no reset does something beside the commands, or executes one. -/
theorem step_cases_noReset {s t : State} (noReset : s.schedule.head? ≠ some .reset) (h : step s = .next t) :
    Aside s t ∨ ∃ i rest, Executes s i ∧ exec i { s with schedule := rest } = .next t := by
  obtain aside | ⟨rest, hs, -⟩ | executed := step_aside_or_exec h
  · exact .inl aside
  · rw [hs] at noReset
    exact absurd rfl noReset
  · exact .inr executed

/-! ## SESSION, DSTAT and the sinks along a run -/

/-- The registers a run's end is read from, FAULT and BUSY apart, are kept. -/
structure KeepsEnd (s t : State) : Prop where
  session : t.session = s.session
  dstat : t.dstat = s.dstat
  bitSink : t.bitSink = s.bitSink
  byteSink : t.byteSink = s.byteSink

theorem Aside.keepsEnd {s t : State} (h : Aside s t) : KeepsEnd s t := by
  cases h <;> exact ⟨rfl, rfl, rfl, rfl⟩

/-- With SESSION = DONE, only SESS_INIT leaves DONE and only DECODE writes DSTAT. -/
theorem Effect.of_sessionDone {i : Instr} {s u : State} (h : Effect i s u) (done : s.session = .done) :
    ((∃ o, i = .sessInit o) ∧ u.session ≠ .done) ∨ i = .decode ∨ KeepsEnd s u := by
  cases h with
  | sessInit =>
    refine .inl ⟨⟨_, rfl⟩, ?_⟩
    dsimp only
    split <;> nofun
  | decode => exact .inr (.inl rfl)
  | encStepEnd mode => exact absurd (done.symm.trans mode) nofun
  | encStepByte _ mode => exact absurd (done.symm.trans mode) nofun
  | decStepByte mode => exact absurd (done.symm.trans mode) nofun
  | decStepOverflow mode => exact absurd (done.symm.trans mode) nofun
  | decStepEnd mode => exact absurd (done.symm.trans mode) nofun
  | _ => exact .inr (.inr ⟨rfl, rfl, rfl, rfl⟩)

/-- A command makes SESSION = DONE only as the end of a session: `ENC_STEP 257`, or a DEC_STEP whose walk ends the stream. -/
theorem Effect.to_sessionDone {i : Instr} {s u : State} (h : Effect i s u) (notDone : s.session ≠ .done)
    (done : u.session = .done) : i = .encStep endOfStream ∨ (i = .decStep ∧ (u.dstat = .eos ∨ u.dstat = .trunc)) := by
  cases h with
  | sessInit =>
    dsimp only at done
    split at done <;> cases done
  | encStepEnd => exact .inl rfl
  | @decStepEnd _ st _ _ _ hw ending =>
    refine .inr ⟨rfl, ?_⟩
    cases st with
    | none => exact absurd rfl (decodeWalk_ne_none hw)
    | leaf => exact absurd (.inl rfl) ending
    | literal => exact absurd (.inr rfl) ending
    | eos => exact .inl rfl
    | trunc => exact .inr rfl
  | _ => exact absurd done notDone

theorem step_to_sessionDone {s t : State} (noReset : s.schedule.head? ≠ some .reset) (h : step s = .next t)
    (notDone : s.session ≠ .done) (done : t.session = .done) :
    Executes s (.encStep endOfStream) ∨ (Executes s .decStep ∧ (t.dstat = .eos ∨ t.dstat = .trunc)) := by
  obtain aside | ⟨i, rest, executes, hx⟩ := step_cases_noReset noReset h
  · exact absurd (aside.keepsEnd.session.symm.trans done) notDone
  · obtain - | - | effect := ends_of_exec hx
    · exact absurd done notDone
    · exact absurd done notDone
    · obtain rfl | ⟨rfl, ending⟩ := effect.to_sessionDone notDone done
      · exact .inl executes
      · exact .inr ⟨executes, ending⟩

theorem step_in_sessionDone {s t : State} (noReset : s.schedule.head? ≠ some .reset) (h : step s = .next t)
    (before : s.session = .done) (after : t.session = .done) : t.dstat = s.dstat ∨ Executes s .decode := by
  obtain aside | ⟨i, rest, executes, hx⟩ := step_cases_noReset noReset h
  · exact .inl aside.keepsEnd.dstat
  · obtain - | - | effect := ends_of_exec hx
    · exact .inl rfl
    · exact .inl rfl
    · obtain ⟨-, notDone⟩ | rfl | kept := effect.of_sessionDone before
      · exact absurd after notDone
      · exact .inr executes
      · exact .inl kept.dstat

/-- The sinks only grow (R77). -/
theorem Effect.sinks_grow {i : Instr} {s u : State} (h : Effect i s u) :
    s.bitSink <+: u.bitSink ∧ s.byteSink <+: u.byteSink := by
  cases h with
  | encStepEnd => exact ⟨List.prefix_append _ _, List.prefix_rfl⟩
  | encStepByte => exact ⟨List.prefix_append _ _, List.prefix_rfl⟩
  | decStepByte => exact ⟨List.prefix_rfl, List.prefix_append _ _⟩
  | _ => exact ⟨List.prefix_rfl, List.prefix_rfl⟩

/-- A run appends to the sinks. -/
theorem RunFromReset.sinks_grow {s₀ t : State} {n : Nat} (run : RunFromReset s₀ n t) :
    s₀.bitSink <+: t.bitSink ∧ s₀.byteSink <+: t.byteSink :=
  run.induct (P := fun _ t => s₀.bitSink <+: t.bitSink ∧ s₀.byteSink <+: t.byteSink) ⟨List.prefix_rfl, List.prefix_rfl⟩
    fun _ _ _ _ _ h grown =>
      step_keeps (P := fun t => s₀.bitSink <+: t.bitSink ∧ s₀.byteSink <+: t.byteSink) (fun _ _ _ _ _ _ ok => ok)
        (fun _ _ _ ok => ok) (fun _ ok => ok)
        (fun _ _ _ ok effect => ⟨ok.1.trans effect.sinks_grow.1, ok.2.trans effect.sinks_grow.2⟩) grown h

/-! ## Which command ended the session -/

theorem DoneBy.next {i : Instr} {s₀ t : State} {n : Nat} (ended : DoneBy i s₀ n) (ht : afterSteps (n + 1) s₀ = some t)
    (done : t.session = .done) : DoneBy i s₀ (n + 1) := by
  obtain ⟨k, u, hk, hu, executes, notDone, after⟩ := ended
  refine ⟨k, u, Nat.lt_succ_of_lt hk, hu, executes, notDone, fun j v hkj hj hv => ?_⟩
  obtain hj | rfl := Nat.le_succ_iff.mp hj
  · exact after j v hkj hj hv
  · cases ht.symm.trans hv
    exact done

theorem doneBy_last {i : Instr} {s₀ u t : State} {n : Nat} (hu : afterSteps n s₀ = some u)
    (ht : afterSteps (n + 1) s₀ = some t) (executes : Executes u i) (notDone : u.session ≠ .done)
    (done : t.session = .done) : DoneBy i s₀ (n + 1) := by
  refine ⟨n, u, Nat.lt_succ_self n, hu, executes, notDone, fun j v hnj hj hv => ?_⟩
  obtain rfl : j = n + 1 := by omega
  cases ht.symm.trans hv
  exact done

/-- One command ended the session: after it SESSION has been DONE, so no other can have. -/
theorem DoneBy.unique {i j : Instr} {s₀ : State} {n : Nat} (hi : DoneBy i s₀ n) (hj : DoneBy j s₀ n) : i = j := by
  obtain ⟨k, u, hk, hu, ⟨-, w, hw, hd⟩, notDone, after⟩ := hi
  obtain ⟨k', u', hk', hu', ⟨-, w', hw', hd'⟩, notDone', after'⟩ := hj
  rcases Nat.lt_trichotomy k k' with lt | rfl | gt
  · exact absurd (after k' u' lt (Nat.le_of_lt hk') hu') notDone'
  · cases hu.symm.trans hu'
    cases hw.symm.trans hw'
    exact Decoded.command.inj (hd.symm.trans hd')
  · exact absurd (after' k u gt (Nat.le_of_lt hk) hu) notDone

/-- A DECODE was executed after the session's end. -/
def DecodedAfterDone (s₀ : State) (n : Nat) : Prop :=
  ∃ k u, k < n ∧ afterSteps k s₀ = some u ∧ u.session = .done ∧ Executes u .decode

/-- How a run from reset came to SESSION = DONE: by `ENC_STEP 257`, or by a DEC_STEP, whose DSTAT a later DECODE alone can
have overwritten. -/
def DoneSomehow (s₀ : State) (n : Nat) (t : State) : Prop :=
  DoneBy (.encStep endOfStream) s₀ n ∨
  (DoneBy .decStep s₀ n ∧ ((t.dstat = .eos ∨ t.dstat = .trunc) ∨ DecodedAfterDone s₀ n))

theorem DecodedAfterDone.next {s₀ : State} {n : Nat} (h : DecodedAfterDone s₀ n) : DecodedAfterDone s₀ (n + 1) := by
  obtain ⟨k, u, hk, rest⟩ := h
  exact ⟨k, u, Nat.lt_succ_of_lt hk, rest⟩

theorem DoneSomehow.next {s₀ u t : State} {n : Nat} (hu : afterSteps n s₀ = some u)
    (noReset : u.schedule.head? ≠ some .reset) (h : step u = .next t) (before : u.session = .done)
    (after : t.session = .done) (ended : DoneSomehow s₀ n u) : DoneSomehow s₀ (n + 1) t := by
  have ht := afterSteps_concat hu h
  obtain encoded | ⟨decoded, status⟩ := ended
  · exact .inl (encoded.next ht after)
  · refine .inr ⟨decoded.next ht after, ?_⟩
    obtain ending | overwritten := status
    · obtain same | executes := step_in_sessionDone noReset h before after
      · exact .inl (same ▸ ending)
      · exact .inr ⟨n, u, Nat.lt_succ_self n, hu, before, executes⟩
    · exact .inr overwritten.next

/-- Reset leaves SESSION = IDLE, so a run in which SESSION is DONE has come there by a command. -/
theorem RunFromReset.doneSomehow {s₀ t : State} {n : Nat} (run : RunFromReset s₀ n t) (done : t.session = .done) :
    DoneSomehow s₀ n t := by
  refine RunFromReset.induct (P := fun n t => t.session = .done → DoneSomehow s₀ n t) (fun start => ?_)
    (fun n u t hu noReset h ih after => ?_) run done
  · rw [run.1] at start
    cases start
  · by_cases before : u.session = .done
    · exact (ih before).next hu noReset h before after
    · have ht := afterSteps_concat hu h
      obtain executes | ⟨executes, ending⟩ := step_to_sessionDone noReset h before after
      · exact .inl (doneBy_last hu ht executes before after)
      · exact .inr ⟨doneBy_last hu ht executes before after, .inl ending⟩

/-! ## A run has one end at most -/

/-- The end of a run as read from its last state, and from whether an encoder ended the session. -/
def endOf (encoded : Bool) (s₀ t : State) : RunEnd :=
  if t.fault then .faulted
  else if t.busy then .stuck
  else if encoded then .encodeComplete (t.bitSink.drop s₀.bitSink.length)
  else if t.dstat = .eos then .decodeComplete (t.byteSink.drop s₀.byteSink.length)
  else .decodeTruncated (t.byteSink.drop s₀.byteSink.length)

theorem EndsAs.eq_endOf {s₀ t : State} {n : Nat} {x : RunEnd} {encoded : Bool} (h : EndsAs s₀ n t x)
    (hb : encoded = true ↔ DoneBy (.encStep endOfStream) s₀ n) : x = endOf encoded s₀ t := by
  have notEncoded (decoded : DoneBy .decStep s₀ n) : encoded = false :=
    Bool.eq_false_iff.mpr fun enc => absurd ((hb.mp enc).unique decoded) nofun
  cases x with
  | encodeComplete result =>
    obtain ⟨⟨busy, fault, -⟩, ended, sink⟩ := h
    simp [endOf, busy, fault, hb.mpr ended, sink]
  | decodeComplete result =>
    obtain ⟨⟨busy, fault, -⟩, ended, status, sink⟩ := h
    simp [endOf, busy, fault, notEncoded ended, status, sink]
  | decodeTruncated result =>
    obtain ⟨⟨busy, fault, -⟩, ended, status, sink⟩ := h
    simp [endOf, busy, fault, notEncoded ended, status, sink]
  | faulted =>
    have fault : t.fault = true := h
    simp [endOf, fault]
  | stuck =>
    obtain ⟨fault, ⟨busy, -⟩, -⟩ := h
    simp [endOf, busy, fault]

theorem EndsAs.unique {s₀ t : State} {n : Nat} {x y : RunEnd} (hx : EndsAs s₀ n t x) (hy : EndsAs s₀ n t y) : x = y := by
  obtain ⟨encoded, hb⟩ : ∃ b : Bool, b = true ↔ DoneBy (.encStep endOfStream) s₀ n := by
    classical exact ⟨decide _, decide_eq_true_iff⟩
  rw [hx.eq_endOf hb, hy.eq_endOf hb]

theorem EndsAs.doneAtRest {s₀ t : State} {n : Nat} {x : RunEnd} (h : EndsAs s₀ n t x) (good : x.good = true) :
    DoneAtRest t := by
  cases x with
  | encodeComplete => exact h.1
  | decodeComplete => exact h.1
  | decodeTruncated => cases good
  | faulted => cases good
  | stuck => cases good

/-! ## A run that has run out -/

/-- At rest after a finished session the run has ended, unless a DECODE has overwritten DSTAT. -/
theorem RunFromReset.ends_at_rest {s₀ t : State} {n : Nat} (run : RunFromReset s₀ n t) (rest : DoneAtRest t) :
    (∃ x, EndsAs s₀ n t x) ∨
    (DoneBy .decStep s₀ n ∧ t.dstat ∉ [DStat.eos, .trunc] ∧ DecodedAfterDone s₀ n) := by
  obtain ⟨⟨bits, bitSink⟩, bytes, byteSink⟩ := run.sinks_grow
  obtain ⟨-, -, done⟩ := id rest
  obtain encoded | ⟨decoded, status⟩ := run.doneSomehow done
  · exact .inl ⟨.encodeComplete bits, rest, encoded, bitSink.symm⟩
  · by_cases eos : t.dstat = .eos
    · exact .inl ⟨.decodeComplete bytes, rest, decoded, eos, byteSink.symm⟩
    by_cases trunc : t.dstat = .trunc
    · exact .inl ⟨.decodeTruncated bytes, rest, decoded, trunc, byteSink.symm⟩
    · exact .inr ⟨decoded, by simp [eos, trunc], status.resolve_left (not_or.mpr ⟨eos, trunc⟩)⟩

theorem RunFromReset.ends_or_unfinished {s₀ t : State} {n : Nat} (run : RunFromReset s₀ n t) (idle : t.schedule = [])
    (still : step t = .next t) : (∃ x, EndsAs s₀ n t x) ∨ (t.busy = false ∧ t.fault = false ∧
      (t.session ≠ .done ∨ (DoneBy .decStep s₀ n ∧ t.dstat ∉ [DStat.eos, .trunc] ∧ DecodedAfterDone s₀ n))) := by
  obtain faulted | clear := Bool.eq_false_or_eq_true t.fault
  · exact .inl ⟨.faulted, faulted⟩
  obtain busy | free := Bool.eq_false_or_eq_true t.busy
  · exact .inl ⟨.stuck, clear, ⟨busy, (step_idle t idle).symm.trans still⟩, idle⟩
  by_cases done : t.session = .done
  · exact (run.ends_at_rest ⟨free, clear, done⟩).imp_right fun unfinished => ⟨free, clear, .inr unfinished⟩
  · exact .inr ⟨free, clear, .inl done⟩

/-! ## A command after the end -/

/-- A command that is neither SESS_INIT nor DECODE, and does not fault, keeps a finished session's end. -/
theorem exec_in_sessionDone {i : Instr} {s t : State} (h : exec i s = .next t) (done : s.session = .done)
    (notInit : ∀ o, i ≠ .sessInit o) (notDecode : i ≠ .decode) (clear : t.fault = false) : t.busy = false ∧ KeepsEnd s t := by
  obtain - | waited | effect := ends_of_exec h
  · cases clear
  · cases waited with
    | decode => exact absurd rfl notDecode
    | decStep mode => exact absurd (done.symm.trans mode) nofun
  · obtain ⟨⟨o, init⟩, -⟩ | decode | ⟨session, dstat, bitSink, byteSink⟩ := effect.of_sessionDone done
    · exact absurd init (notInit o)
    · exact absurd decode notDecode
    · exact ⟨rfl, session, dstat, bitSink, byteSink⟩

/-- The two steps of a command the host writes last: the write, and the turn that executes what it accepted. -/
theorem two_steps_of_write {u t : State} {w : Word} (sched : u.schedule = [.memWrite 4 0 w])
    (h : afterSteps 2 u = some t) :
    step u = .next (acceptCommand w { u with schedule := [] }) ∧
    step (acceptCommand w { u with schedule := [] }) = .next t := by
  have first : step u = .next (acceptCommand w { u with schedule := [] }) :=
    (step_event u _ [] sched).trans (perform_cmdWrite _ w)
  obtain ⟨v, hv, second⟩ := afterSteps_last h
  rw [afterSteps_succ 0 first, afterSteps_zero] at hv
  cases hv
  exact ⟨first, second⟩

/-- A fault stays through the two steps: the write is dropped and the turn keeps it. -/
theorem fault_after_write {u t : State} {w : Word} (sched : u.schedule = [.memWrite 4 0 w])
    (h : afterSteps 2 u = some t) (faulted : u.fault = true) : t.fault = true := by
  obtain ⟨-, second⟩ := two_steps_of_write sched h
  rw [acceptCommand_dropped w (s := { u with schedule := [] }) faulted] at second
  exact (step_keeps_fault (s := { u with schedule := [] }) faulted nofun second).1

/-- A command written and executed after a finished session at rest keeps the rest and the end, and the run goes on. -/
theorem RunFromReset.command_after_end {s₀ u t : State} {n : Nat} {i : Instr} (run : RunFromReset s₀ n u)
    (sched : u.schedule = [.memWrite 4 0 (encode i)]) (rest : DoneAtRest u) (notInit : ∀ o, i ≠ .sessInit o)
    (notDecode : i ≠ .decode) (h : afterSteps 2 u = some t) (clear : t.fault = false) :
    RunFromReset s₀ (n + 2) t ∧ DoneAtRest t ∧ KeepsEnd u t ∧
    ∀ j, DoneBy j s₀ n → DoneBy j s₀ (n + 2) := by
  obtain ⟨busy, fault, done⟩ := rest
  obtain ⟨first, second⟩ := two_steps_of_write sched h
  rw [acceptCommand_accepted (s := { u with schedule := [] }) _ busy fault] at first second
  obtain ⟨turn, -⟩ := stepRunsDecodedCommand { u with schedule := [], pending := some (encode i) } (encode i) i rfl
    (decode_encode i)
  have executed := (turn rfl).symm.trans second
  obtain ⟨busy', session, dstat, bitSink, byteSink⟩ := exec_in_sessionDone executed done notInit notDecode clear
  have run₁ := run.next (by rw [sched]; nofun) first
  have run₂ := run₁.next nofun second
  obtain ⟨-, reached₁, -⟩ := run₁
  obtain ⟨-, reached₂, -⟩ := id run₂
  exact ⟨run₂, ⟨busy', clear, session.trans done⟩, ⟨session, dstat, bitSink, byteSink⟩, fun j ended =>
    (ended.next reached₁ done).next reached₂ (session.trans done)⟩

/-- A command after the end leaves it. -/
theorem EndsAs.after_command {s₀ u t : State} {n : Nat} {i : Instr} {x : RunEnd} (ends : EndsAs s₀ n u x)
    (run : RunFromReset s₀ n u) (sched : u.schedule = [.memWrite 4 0 (encode i)]) (notInit : ∀ o, i ≠ .sessInit o)
    (notDecode : i ≠ .decode) (h : afterSteps 2 u = some t) (clear : t.fault = false) :
    RunFromReset s₀ (n + 2) t ∧ EndsAs s₀ (n + 2) t x := by
  have later (rest : DoneAtRest u) := run.command_after_end sched rest notInit notDecode h clear
  cases x with
  | encodeComplete result =>
    obtain ⟨rest, ended, sink⟩ := ends
    obtain ⟨run', rest', kept, ended'⟩ := later rest
    exact ⟨run', rest', ended' _ ended, kept.bitSink.trans sink⟩
  | decodeComplete result =>
    obtain ⟨rest, ended, status, sink⟩ := ends
    obtain ⟨run', rest', kept, ended'⟩ := later rest
    exact ⟨run', rest', ended' _ ended, kept.dstat.trans status, kept.byteSink.trans sink⟩
  | decodeTruncated result =>
    obtain ⟨rest, ended, status, sink⟩ := ends
    obtain ⟨run', rest', kept, ended'⟩ := later rest
    exact ⟨run', rest', ended' _ ended, kept.dstat.trans status, kept.byteSink.trans sink⟩
  | faulted => exact absurd (clear.symm.trans (fault_after_write sched h ends)) nofun
  | stuck =>
    obtain ⟨-, -, idle⟩ := ends
    exact absurd (idle.symm.trans sched) nofun

/-- Settles O53: `EndsAs.unique`, `EndsAs.doneAtRest`, `RunFromReset.ends_or_unfinished` and `EndsAs.after_command`. -/
theorem runsEndInOneWay : Obligations.RunsEndInOneWay :=
  ⟨fun _ _ _ run => ⟨fun _ _ => EndsAs.unique, fun _ good ends => ends.doneAtRest good, run.ends_or_unfinished⟩,
    fun _ _ _ _ _ _ run sched ends notInit notDecode => ends.after_command run sched notInit notDecode⟩

end Sys2Proof.Machine
end
